-- ==== Sys2Proof/Word.lean ====
section
/-! DEFINITION. The words LMC computes with: 1024-bit wide words, 64-bit limbs, bytes, 4-bit operand indices, and the
16-entry register banks those indices select from (spec 00 R7, R12; 30 R121). -/
namespace Sys2Proof

/-- A 1024-bit value: a BigInt, or a field element's Montgomery representative (00 R7). -/
abbrev Word := BitVec 1024

/-- A 64-bit limb, and the width of every MMIO register (00 R7, 20 R85). -/
abbrev Limb := BitVec 64

/-- One byte lane of a 64-bit access (20 R84). -/
abbrev Byte := BitVec 8

/-- A 4-bit operand index, as the command word carries it (30 R121). -/
abbrev Idx := BitVec 4

/-- The 12-bit unsigned immediate of a command word (30 R121, R125). -/
abbrev Imm12 := BitVec 12

/-- The Montgomery radix R = 2^1024 (00 R8). -/
abbrev radix : Nat := 2 ^ 1024

/-- A register file with one entry for every value of a 4-bit index. Entries at or above the file's count do not
exist in the hardware: decode refuses their indices (30 R124; log 13). -/
abbrev Bank (α : Type) := Vector α 16

/-- The bank whose entry `i` is `f i`. -/
def Bank.tabulate {α : Type} (f : Nat → α) : Bank α :=
  ⟨((List.range 16).map f).toArray, by simp⟩

/-- The entry a 4-bit index selects. -/
def Bank.get {α : Type} (b : Bank α) (i : Idx) : α := b[i.toNat]'i.isLt

/-- The bank with the entry `i` replaced. -/
def Bank.put {α : Type} (b : Bank α) (i : Idx) (x : α) : Bank α := b.set i.toNat x i.isLt

end Sys2Proof
end

