-- ==== Sys2Proof/Config.lean ====
section
/-! DEFINITION. What an implementation fixes (the size parameters and the aperture's base, spec 00 R9, 20 R81), and
the free values: contents that the spec leaves unspecified, as constants without a body, so that nothing can be proved of them
(93 I1 to I5; log 1, 2, 8). -/
namespace Sys2Proof

/-- The parameters "a model takes as arguments" (00 R9), and the platform's aperture base (20 R81). -/
structure Params where
  /-- NW: number of wide registers. -/
  nw : Nat
  /-- NRING: number of ring-element slots. -/
  nring : Nat
  /-- NCTX: number of NTT-context slots. -/
  nctx : Nat
  /-- LOGNMAX: largest supported log2 of the ring degree. -/
  lognmax : Nat
  /-- LMC_BASE: byte address of the aperture (`OPEN: LMC_BASE`). -/
  base : Nat
deriving DecidableEq, Repr

/-- NMAX = 2^LOGNMAX: largest ring degree and staging capacity (00 R9). -/
def Params.nmax (p : Params) : Nat := 2 ^ p.lognmax

/-- The legal ranges of 00 R9, and the alignment of the base (20 R81). -/
def Params.legal (p : Params) : Bool :=
  (decide (1 ≤ p.nw) && decide (p.nw ≤ 16)) && (decide (1 ≤ p.nring) && decide (p.nring ≤ 16)) &&
  (decide (1 ≤ p.nctx) && decide (p.nctx ≤ 16)) && decide (p.lognmax ≤ 12) && decide (p.base % 8192 = 0)

/-- The spec's default sizes (00 R9, 92 D5). DESIGN CHOICE (log 4): the base is 0; the platform chooses it. -/
def Params.default : Params := { nw := 16, nring := 8, nctx := 4, lognmax := 8, base := 0 }

/-- What LMC answers to a bus access: the error response and, to a read, the data (20 R88, R95, R102). -/
structure Reply where
  /-- The access was answered with the error response (20 R88). -/
  error : Bool
  /-- The data a read returns; `none` to a write. -/
  data : Option Limb
deriving DecidableEq, Repr

/-- The RAM words that no reset initialises and that a freed slot leaves unspecified (10 R57, 42 R273, 43 R329). -/
inductive RamCell where
  | stage (k : Nat)
  | psi (c : Nat)
  | zeta (c k : Nat)
  | zetainv (c k : Nat)
  | ninv (c : Nat)
  | data (r k : Nat)
deriving DecidableEq, Repr

/-- FREE VALUE (log 2): what the RAM word `cell` holds after the `draw`-th time its contents became unspecified. -/
opaque Config.ram (draw : Nat) (cell : RamCell) : Word

/-- FREE VALUE (log 1): what limb `k` of W[`i`] holds while nothing has written it since the reset of number `draw`
(10 R32, 93 I1). -/
opaque Config.unwrittenLimb (draw i k : Nat) : Limb

/-- FREE VALUE (log 8): how the bus answers an access made while rst_n = 0 (70 R460, `OPEN: BUS_PROTOCOL`). -/
opaque Config.replyInReset (draw : Nat) : Option Reply

end Sys2Proof
end

