-- ==== Sys2Proof/Syntax.lean ====
section
/-! DEFINITION. The command set: one constructor per row of the opcode map (spec 30 R126), operands in the order
D, A, B, E, immediate. The class of each operand (W, R or C) is in its name: `w…`, `r…`, `c…`. -/
namespace Sys2Proof

/-- The configuration registers that CFGW and CFGR select (30 R133, 10 R50). -/
inductive CfgSel where
  | q | r1 | r2 | qprime | root | s
deriving DecidableEq, Repr

/-- The 44 commands of LMC (30 R126). -/
inductive Instr where
  -- command engine (44)
  | nop
  -- field configuration (41)
  | cfgw (sel : CfgSel) (wa : Idx)
  | cfgr (wd : Idx) (sel : CfgSel)
  | cfgcommit
  | cfginv
  -- BigInt (40)
  | wadd (wd wa wb : Idx)
  | wsub (wd wa wb : Idx)
  | wcmp (wa wb : Idx)
  | wsel (wd wa wb : Idx)
  | wmul (wlo wa wb whi : Idx)
  | wli (wd : Idx) (imm : Imm12)
  | wmov (wd wa : Idx)
  -- field (41)
  | fenc (wd wa : Idx)
  | fdec (wd wa : Idx)
  | fadd (wd wa wb : Idx)
  | fsub (wd wa wb : Idx)
  | fmul (wd wa wb : Idx)
  | fneg (wd wa : Idx)
  | feq (wa wb : Idx)
  | fzero (wd : Idx)
  | fone (wd : Idx)
  -- staging buffer, raw transforms, contexts (42)
  | sclr
  | spush (wa : Idx)
  | sget (wd : Idx) (idx : Imm12)
  | sntt (ca : Idx)
  | sintt (ca : Idx)
  | ctxnew (cd : Idx) (logn : Imm12)
  | ctxrel (cd : Idx)
  -- ring elements (43)
  | rfromc (rd ca : Idx)
  | rfromn (rd ca : Idx)
  | rzero (rd ca : Idx)
  | rone (rd ca : Idx)
  | rcopy (rd ra : Idx)
  | rfree (rd : Idx)
  | rtontt (rd : Idx)
  | rtocoef (rd : Idx)
  | radd (rd ra rb : Idx)
  | rsub (rd ra rb : Idx)
  | rmul (rd ra rb : Idx)
  | rneg (rd ra : Idx)
  | rscale (rd ra wb : Idx)
  | req (ra rb : Idx)
  | rgetc (wd ra : Idx) (idx : Imm12)
  | rgetn (wd ra : Idx) (idx : Imm12)
deriving DecidableEq, Repr

end Sys2Proof
end

