-- ==== Sys2Proof/WellFormed.lean ====
section
/-! DEFINITION. Which instructions a command word can stand for under given parameters: every operand index below its
file's count (spec 30 R124), and the two destinations of WMUL distinct (30 R128). -/
namespace Sys2Proof

/-- The three register files an operand field can name (30 R124). -/
inductive OperandClass where
  | w | r | c
deriving DecidableEq, Repr

/-- How many entries the file of a class has (30 R124). -/
def Params.count (p : Params) : OperandClass → Nat
  | .w => p.nw
  | .r => p.nring
  | .c => p.nctx

/-- The operand index `x` is legal for its class (30 R124). -/
def Params.has (p : Params) (cls : OperandClass) (x : Idx) : Bool := decide (x.toNat < p.count cls)

/-- The instruction's operands exist, and WMUL's destinations differ (30 R124, R128). -/
def Instr.wf (p : Params) : Instr → Bool
  | .nop => true
  | .cfgw _ wa => p.has .w wa
  | .cfgr wd _ => p.has .w wd
  | .cfgcommit => true
  | .cfginv => true
  | .wadd wd wa wb => p.has .w wd && p.has .w wa && p.has .w wb
  | .wsub wd wa wb => p.has .w wd && p.has .w wa && p.has .w wb
  | .wcmp wa wb => p.has .w wa && p.has .w wb
  | .wsel wd wa wb => p.has .w wd && p.has .w wa && p.has .w wb
  | .wmul wlo wa wb whi => p.has .w wlo && p.has .w wa && p.has .w wb && p.has .w whi && decide (wlo ≠ whi)
  | .wli wd _ => p.has .w wd
  | .wmov wd wa => p.has .w wd && p.has .w wa
  | .fenc wd wa => p.has .w wd && p.has .w wa
  | .fdec wd wa => p.has .w wd && p.has .w wa
  | .fadd wd wa wb => p.has .w wd && p.has .w wa && p.has .w wb
  | .fsub wd wa wb => p.has .w wd && p.has .w wa && p.has .w wb
  | .fmul wd wa wb => p.has .w wd && p.has .w wa && p.has .w wb
  | .fneg wd wa => p.has .w wd && p.has .w wa
  | .feq wa wb => p.has .w wa && p.has .w wb
  | .fzero wd => p.has .w wd
  | .fone wd => p.has .w wd
  | .sclr => true
  | .spush wa => p.has .w wa
  | .sget wd _ => p.has .w wd
  | .sntt ca => p.has .c ca
  | .sintt ca => p.has .c ca
  | .ctxnew cd _ => p.has .c cd
  | .ctxrel cd => p.has .c cd
  | .rfromc rd ca => p.has .r rd && p.has .c ca
  | .rfromn rd ca => p.has .r rd && p.has .c ca
  | .rzero rd ca => p.has .r rd && p.has .c ca
  | .rone rd ca => p.has .r rd && p.has .c ca
  | .rcopy rd ra => p.has .r rd && p.has .r ra
  | .rfree rd => p.has .r rd
  | .rtontt rd => p.has .r rd
  | .rtocoef rd => p.has .r rd
  | .radd rd ra rb => p.has .r rd && p.has .r ra && p.has .r rb
  | .rsub rd ra rb => p.has .r rd && p.has .r ra && p.has .r rb
  | .rmul rd ra rb => p.has .r rd && p.has .r ra && p.has .r rb
  | .rneg rd ra => p.has .r rd && p.has .r ra
  | .rscale rd ra wb => p.has .r rd && p.has .r ra && p.has .w wb
  | .req ra rb => p.has .r ra && p.has .r rb
  | .rgetc wd ra _ => p.has .w wd && p.has .r ra
  | .rgetn wd ra _ => p.has .w wd && p.has .r ra

end Sys2Proof
end

