-- ==== Sys2Proof/Decode.lean ====
section
/-! DEFINITION. The decoder of CMD values, total on every 64-bit value, in the order of spec 30 R129, and the encoder
written from the same field layout (30 R121, R122, R126). Every refusal has a name; the engine turns each of them into
ILLEGAL_COMMAND (60 R411). -/
namespace Sys2Proof

/-- The fields of a command word (30 R121). E is the upper four bits of IMM12: the two overlap. -/
structure Fields where
  opc : BitVec 8
  d : Idx
  a : Idx
  b : Idx
  imm : Imm12
deriving DecidableEq, Repr

/-- OPC = w[31:24], D = w[23:20], A = w[19:16], B = w[15:12], IMM12 = w[11:0] (30 R121). -/
def fieldsOf (w : BitVec 32) : Fields :=
  { opc := w.extractLsb' 24 8, d := w.extractLsb' 20 4, a := w.extractLsb' 16 4, b := w.extractLsb' 12 4,
    imm := w.extractLsb' 0 12 }

/-- E = w[11:8] (30 R121). -/
def Fields.e (f : Fields) : Idx := f.imm.extractLsb' 8 4

/-- The ten formats (30 R122). -/
inductive Format where
  | N | D | A | DA | AB | DAB | DABE | DI | AI | DAI
deriving DecidableEq, Repr

/-- Every bit outside OPC and the fields the format uses is 0 (30 R122, R123). -/
def Format.unusedZero (f : Fields) : Format → Bool
  | .N => decide (f.d = 0) && decide (f.a = 0) && decide (f.b = 0) && decide (f.imm = 0)
  | .D => decide (f.a = 0) && decide (f.b = 0) && decide (f.imm = 0)
  | .A => decide (f.d = 0) && decide (f.b = 0) && decide (f.imm = 0)
  | .DA => decide (f.b = 0) && decide (f.imm = 0)
  | .AB => decide (f.d = 0) && decide (f.imm = 0)
  | .DAB => decide (f.imm = 0)
  | .DABE => decide (f.imm.extractLsb' 0 8 = 0)
  | .DI => decide (f.a = 0) && decide (f.b = 0)
  | .AI => decide (f.d = 0) && decide (f.b = 0)
  | .DAI => decide (f.b = 0)

/-- The selector values of CFGW and CFGR; 6 to 4095 name nothing (30 R133). -/
def CfgSel.ofImm (imm : Imm12) : Option CfgSel :=
  match imm.toNat with
  | 0 => some .q
  | 1 => some .r1
  | 2 => some .r2
  | 3 => some .qprime
  | 4 => some .root
  | 5 => some .s
  | _ => none

/-- The immediate that selects a configuration register (30 R133). -/
def CfgSel.toImm : CfgSel → Imm12
  | .q => 0
  | .r1 => 1
  | .r2 => 2
  | .qprime => 3
  | .root => 4
  | .s => 5

/-- Why a CMD value stands for no instruction. All are ILLEGAL_COMMAND to the host (30 R129). -/
inductive DecodeError where
  /-- v[63:32] is not 0 (30 R120). -/
  | upperHalf
  /-- The operation code is not in the opcode map (30 R127). -/
  | reservedOpcode
  /-- A bit outside the format's fields is set (30 R123). -/
  | mustBeZero
  /-- An operand index is at or above its file's count (30 R124). -/
  | indexTooLarge
  /-- A configuration selector above 5 (30 R133). -/
  | badSelector
  /-- WMUL with D = E (30 R128). -/
  | sameDestination
deriving DecidableEq, Repr

/-- One row of the opcode map (30 R126): the code, the format, the class of each index field used, and the instruction
the fields make (`none` for a selector that names no register). -/
structure Row where
  opc : BitVec 8
  fmt : Format
  clsD : Option OperandClass
  clsA : Option OperandClass
  clsB : Option OperandClass
  clsE : Option OperandClass
  make : Fields → Option Instr

/-- System, configuration and BigInt rows of the opcode map (30 R126). -/
def rowsLow : List Row :=
  [ ⟨0x00, .N, none, none, none, none, fun _ => some .nop⟩,
    ⟨0x01, .AI, none, some .w, none, none, fun f => (CfgSel.ofImm f.imm).map (fun sel => .cfgw sel f.a)⟩,
    ⟨0x02, .DI, some .w, none, none, none, fun f => (CfgSel.ofImm f.imm).map (fun sel => .cfgr f.d sel)⟩,
    ⟨0x03, .N, none, none, none, none, fun _ => some .cfgcommit⟩,
    ⟨0x04, .N, none, none, none, none, fun _ => some .cfginv⟩,
    ⟨0x10, .DAB, some .w, some .w, some .w, none, fun f => some (.wadd f.d f.a f.b)⟩,
    ⟨0x11, .DAB, some .w, some .w, some .w, none, fun f => some (.wsub f.d f.a f.b)⟩,
    ⟨0x12, .AB, none, some .w, some .w, none, fun f => some (.wcmp f.a f.b)⟩,
    ⟨0x13, .DAB, some .w, some .w, some .w, none, fun f => some (.wsel f.d f.a f.b)⟩,
    ⟨0x14, .DABE, some .w, some .w, some .w, some .w, fun f => some (.wmul f.d f.a f.b f.e)⟩,
    ⟨0x15, .DI, some .w, none, none, none, fun f => some (.wli f.d f.imm)⟩,
    ⟨0x16, .DA, some .w, some .w, none, none, fun f => some (.wmov f.d f.a)⟩ ]

/-- Field rows of the opcode map (30 R126). -/
def rowsField : List Row :=
  [ ⟨0x20, .DA, some .w, some .w, none, none, fun f => some (.fenc f.d f.a)⟩,
    ⟨0x21, .DA, some .w, some .w, none, none, fun f => some (.fdec f.d f.a)⟩,
    ⟨0x22, .DAB, some .w, some .w, some .w, none, fun f => some (.fadd f.d f.a f.b)⟩,
    ⟨0x23, .DAB, some .w, some .w, some .w, none, fun f => some (.fsub f.d f.a f.b)⟩,
    ⟨0x24, .DAB, some .w, some .w, some .w, none, fun f => some (.fmul f.d f.a f.b)⟩,
    ⟨0x25, .DA, some .w, some .w, none, none, fun f => some (.fneg f.d f.a)⟩,
    ⟨0x26, .AB, none, some .w, some .w, none, fun f => some (.feq f.a f.b)⟩,
    ⟨0x27, .D, some .w, none, none, none, fun f => some (.fzero f.d)⟩,
    ⟨0x28, .D, some .w, none, none, none, fun f => some (.fone f.d)⟩ ]

/-- Staging, transform and context rows of the opcode map (30 R126). -/
def rowsNtt : List Row :=
  [ ⟨0x30, .N, none, none, none, none, fun _ => some .sclr⟩,
    ⟨0x31, .A, none, some .w, none, none, fun f => some (.spush f.a)⟩,
    ⟨0x32, .DI, some .w, none, none, none, fun f => some (.sget f.d f.imm)⟩,
    ⟨0x33, .A, none, some .c, none, none, fun f => some (.sntt f.a)⟩,
    ⟨0x34, .A, none, some .c, none, none, fun f => some (.sintt f.a)⟩,
    ⟨0x38, .DI, some .c, none, none, none, fun f => some (.ctxnew f.d f.imm)⟩,
    ⟨0x39, .D, some .c, none, none, none, fun f => some (.ctxrel f.d)⟩ ]

/-- Ring rows of the opcode map (30 R126). -/
def rowsRing : List Row :=
  [ ⟨0x40, .DA, some .r, some .c, none, none, fun f => some (.rfromc f.d f.a)⟩,
    ⟨0x41, .DA, some .r, some .c, none, none, fun f => some (.rfromn f.d f.a)⟩,
    ⟨0x42, .DA, some .r, some .c, none, none, fun f => some (.rzero f.d f.a)⟩,
    ⟨0x43, .DA, some .r, some .c, none, none, fun f => some (.rone f.d f.a)⟩,
    ⟨0x44, .DA, some .r, some .r, none, none, fun f => some (.rcopy f.d f.a)⟩,
    ⟨0x45, .D, some .r, none, none, none, fun f => some (.rfree f.d)⟩,
    ⟨0x46, .D, some .r, none, none, none, fun f => some (.rtontt f.d)⟩,
    ⟨0x47, .D, some .r, none, none, none, fun f => some (.rtocoef f.d)⟩,
    ⟨0x48, .DAB, some .r, some .r, some .r, none, fun f => some (.radd f.d f.a f.b)⟩,
    ⟨0x49, .DAB, some .r, some .r, some .r, none, fun f => some (.rsub f.d f.a f.b)⟩,
    ⟨0x4A, .DAB, some .r, some .r, some .r, none, fun f => some (.rmul f.d f.a f.b)⟩,
    ⟨0x4B, .DA, some .r, some .r, none, none, fun f => some (.rneg f.d f.a)⟩,
    ⟨0x4C, .DAB, some .r, some .r, some .w, none, fun f => some (.rscale f.d f.a f.b)⟩,
    ⟨0x4D, .AB, none, some .r, some .r, none, fun f => some (.req f.a f.b)⟩,
    ⟨0x4E, .DAI, some .w, some .r, none, none, fun f => some (.rgetc f.d f.a f.imm)⟩,
    ⟨0x4F, .DAI, some .w, some .r, none, none, fun f => some (.rgetn f.d f.a f.imm)⟩ ]

/-- The opcode map: 44 rows (30 R126). -/
def opcodeMap : List Row := rowsLow ++ rowsField ++ rowsNtt ++ rowsRing

/-- The row of an operation code, if the map has one (30 R126, R127). -/
def rowOf (opc : BitVec 8) : Option Row := opcodeMap.find? (fun r => r.opc == opc)

/-- One index field is in range, or unused (30 R124). -/
def Params.fieldOk (p : Params) (cls : Option OperandClass) (x : Idx) : Bool :=
  match cls with
  | none => true
  | some cls => p.has cls x

/-- Every used index field of the row is in range, in the order D, A, B, E (30 R124, R129). -/
def Row.indicesOk (r : Row) (p : Params) (f : Fields) : Bool :=
  p.fieldOk r.clsD f.d && p.fieldOk r.clsA f.a && p.fieldOk r.clsB f.b && p.fieldOk r.clsE f.e

/-- WMUL whose two destinations are one register (30 R128). -/
def Instr.sameDestination : Instr → Bool
  | .wmul wlo _ _ whi => decide (wlo = whi)
  | _ => false

/-- The checks of one row on the fields of a word, in R129's order (30 R123, R124, R133, R128). -/
def Row.decode (r : Row) (p : Params) (f : Fields) : Except DecodeError Instr :=
  if r.fmt.unusedZero f = false then .error .mustBeZero
  else if r.indicesOk p f = false then .error .indexTooLarge
  else match r.make f with
    | none => .error .badSelector
    | some i => if i.sameDestination then .error .sameDestination else .ok i

/-- The decoding algorithm, total on every 64-bit CMD value (30 R129). -/
def decode (p : Params) (v : BitVec 64) : Except DecodeError Instr :=
  if v.extractLsb' 32 32 ≠ 0 then .error .upperHalf
  else
    let f := fieldsOf (v.extractLsb' 0 32)
    match rowOf f.opc with
    | none => .error .reservedOpcode
    | some r => r.decode p f

/-- A command word from its fields (30 R121). -/
def pack (opc : BitVec 8) (d a b : Idx) (imm : Imm12) : BitVec 32 := opc ++ d ++ a ++ b ++ imm

/-- The command word of an instruction (30 R121, R122, R126). -/
def encode : Instr → BitVec 32
  | .nop => pack 0x00 0 0 0 0
  | .cfgw sel wa => pack 0x01 0 wa 0 sel.toImm
  | .cfgr wd sel => pack 0x02 wd 0 0 sel.toImm
  | .cfgcommit => pack 0x03 0 0 0 0
  | .cfginv => pack 0x04 0 0 0 0
  | .wadd wd wa wb => pack 0x10 wd wa wb 0
  | .wsub wd wa wb => pack 0x11 wd wa wb 0
  | .wcmp wa wb => pack 0x12 0 wa wb 0
  | .wsel wd wa wb => pack 0x13 wd wa wb 0
  | .wmul wlo wa wb whi => pack 0x14 wlo wa wb (whi ++ 0#8)
  | .wli wd imm => pack 0x15 wd 0 0 imm
  | .wmov wd wa => pack 0x16 wd wa 0 0
  | .fenc wd wa => pack 0x20 wd wa 0 0
  | .fdec wd wa => pack 0x21 wd wa 0 0
  | .fadd wd wa wb => pack 0x22 wd wa wb 0
  | .fsub wd wa wb => pack 0x23 wd wa wb 0
  | .fmul wd wa wb => pack 0x24 wd wa wb 0
  | .fneg wd wa => pack 0x25 wd wa 0 0
  | .feq wa wb => pack 0x26 0 wa wb 0
  | .fzero wd => pack 0x27 wd 0 0 0
  | .fone wd => pack 0x28 wd 0 0 0
  | .sclr => pack 0x30 0 0 0 0
  | .spush wa => pack 0x31 0 wa 0 0
  | .sget wd idx => pack 0x32 wd 0 0 idx
  | .sntt ca => pack 0x33 0 ca 0 0
  | .sintt ca => pack 0x34 0 ca 0 0
  | .ctxnew cd logn => pack 0x38 cd 0 0 logn
  | .ctxrel cd => pack 0x39 cd 0 0 0
  | .rfromc rd ca => pack 0x40 rd ca 0 0
  | .rfromn rd ca => pack 0x41 rd ca 0 0
  | .rzero rd ca => pack 0x42 rd ca 0 0
  | .rone rd ca => pack 0x43 rd ca 0 0
  | .rcopy rd ra => pack 0x44 rd ra 0 0
  | .rfree rd => pack 0x45 rd 0 0 0
  | .rtontt rd => pack 0x46 rd 0 0 0
  | .rtocoef rd => pack 0x47 rd 0 0 0
  | .radd rd ra rb => pack 0x48 rd ra rb 0
  | .rsub rd ra rb => pack 0x49 rd ra rb 0
  | .rmul rd ra rb => pack 0x4A rd ra rb 0
  | .rneg rd ra => pack 0x4B rd ra 0 0
  | .rscale rd ra wb => pack 0x4C rd ra wb 0
  | .req ra rb => pack 0x4D 0 ra rb 0
  | .rgetc wd ra idx => pack 0x4E wd ra 0 idx
  | .rgetn wd ra idx => pack 0x4F wd ra 0 idx

/-- The 64-bit CMD value that delivers an instruction: its word, with a zero upper half (30 R120). By 30 R123 it is the
only CMD value that does. -/
def Instr.cmdValue (i : Instr) : BitVec 64 := (0 : BitVec 32) ++ encode i

/-- The instruction the decoder reads from a row's word under the default parameters. A command is one 32-bit word
(30 R120), so `nbits` is 32 and the CMD value is the word itself; bits of `w` at and above `nbits` are dropped. -/
def decodeTableWord (nbits w : Nat) : Option Instr :=
  (decode Params.default (BitVec.ofNat 64 (w % 2 ^ nbits))).toOption

end Sys2Proof
end

