-- ==== Sys2Proof/Machine/State.lean ====
section
/-! DEFINITION. The state of LMC as plain data (spec 10 R30 to R57), the model's own fields beside it, the two types of
stops, and the state after reset (10 R57). -/
namespace Sys2Proof.Machine

/-- The values STATUS.ERR takes (60 R411). "No other value is ever written." -/
inductive ErrCode where
  | none
  | illegalCommand
  | configurationMismatch
  | invalidState
  | constructionError
  | notConfigured
  | invalidHandle
  | nonCanonical
  | indexRange
  | lengthMismatch
  | stagingOverflow
  | configInvalid
  | resourceBusy
deriving DecidableEq, Repr

/-- FLAGS (10 R33, R34). The reserved bits hold nothing: they read 0. -/
structure Flags where
  cf : Bool
  lt : Bool
  eq : Bool
  gt : Bool
  veq : Bool
deriving DecidableEq, Repr

/-- STATUS (10 R39), with CFGV at its bit 3 (10 R50). The reserved bits hold nothing: they read 0. -/
structure Status where
  fault : Bool
  drop : Bool
  buserr : Bool
  cfgv : Bool
  err : ErrCode
deriving DecidableEq, Repr

/-- The six field-configuration registers (10 R50). -/
structure FieldCfg where
  q : Word
  r1 : Word
  r2 : Word
  qprime : Word
  root : Word
  s : Word
deriving DecidableEq, Repr

/-- One NTT-context slot CX[c] (10 R51). Of a valid slot the two tables have N = 2^LOGN entries. -/
structure Ctx where
  valid : Bool
  hostref : Bool
  refcnt : BitVec 16
  cid : BitVec 64
  logn : BitVec 8
  psi : Word
  zeta : List Word
  zetainv : List Word
  ninv : Word
deriving DecidableEq, Repr

/-- The representation state ST of a ring element (10 R53). -/
inductive Rep where
  | coefficient
  | ntt
deriving DecidableEq, Repr

/-- One ring slot RE[r] (10 R53). DATA has NMAX entries. -/
structure Ring where
  bound : Bool
  ctx : Idx
  cid : BitVec 64
  st : Rep
  data : List Word
deriving DecidableEq, Repr

/-- What the host side can do to LMC (20 R95, R96, R102; 70 R460, R470): a bus read or write at a byte address, `width`
bytes wide, or driving the reset input rst_n to a level. -/
inductive HostEvent where
  | read (addr width : Nat)
  | write (addr width : Nat) (v : Limb)
  | rstn (level : Bool)
deriving DecidableEq, Repr

/-- The machine's state. Everything 10 R30 lists, then the model's own fields (INVENTORY.md, State). -/
structure State where
  /-- NW, NRING, NCTX, LOGNMAX and LMC_BASE: constants, read through PARAMS (00 R9, 10 R42); no step writes them. -/
  params : Params
  /-- The level of the reset input rst_n: `false` while the reset is held (70 R460). -/
  rstn : Bool
  /-- W[0..NW−1] (10 R31). -/
  w : Bank Word
  /-- Which limbs of each W register have been written since reset: bit k for limb k (10 R32, 93 I1). -/
  written : Bank (BitVec 16)
  /-- FLAGS (10 R33). -/
  flags : Flags
  /-- CMDCOUNT (10 R38). -/
  cmdcount : BitVec 64
  /-- STATUS with CFGV (10 R39). -/
  status : Status
  /-- CTRL.IRQEN (10 R40). -/
  irqen : Bool
  /-- FAULTCMD (10 R44). -/
  faultcmd : BitVec 64
  /-- FAULTSEQ (10 R45). -/
  faultseq : BitVec 64
  /-- CFG.Q, R1, R2, QPRIME, ROOT, S (10 R50). -/
  cfg : FieldCfg
  /-- CX[0..NCTX−1] (10 R51). -/
  cx : Bank Ctx
  /-- NEXT_CID (10 R52). -/
  nextCid : BitVec 64
  /-- RE[0..NRING−1] (10 R53). -/
  re : Bank Ring
  /-- STAGE[0..NMAX−1] (10 R54). -/
  stage : List Word
  /-- SLEN, 0 ≤ SLEN ≤ NMAX (10 R46, R54). -/
  slen : Nat
  /-- MODEL: what the host side has still to do, oldest first (00 R4, 20 R94; log 5). -/
  host : List HostEvent
  /-- MODEL: LMC's answer to the last access (20 R95; log 7). -/
  reply : Option Reply
  /-- MODEL: a command or the host has read a W limb that nothing had written (93 I1, 70 R465; log 1). -/
  programFault : Bool
  /-- MODEL: the number of the next draw of unspecified RAM contents (log 3). -/
  draws : Nat
  /-- MODEL: the draw that unwritten W limbs are read from, made at the last reset (log 3). -/
  wDraw : Nat
deriving DecidableEq, Repr

/-- Why the machine stops with a fault: never. Both kinds of exceptional event of LMC (60 R410) leave it in a next state: a
command fault is recorded (60 R412) and a bus error sets STATUS.BUSERR (20 R88). So this type has no constructor (safe; log 20). -/
inductive Fault where
deriving DecidableEq, Repr

/-- Why the machine refuses an instruction. -/
inductive Refusal where
  /-- Raised by an arm of `exec` whose instruction has no meaning yet; no arm does. Safe: nothing is claimed of it. -/
  | notModelled (mnemonic : String)
deriving DecidableEq, Repr

/-- A context slot that is not valid, its tables unspecified: the contents of draw `draw` (10 R57, 42 R273). `nmax` entries
stand for the table RAM. -/
def Ctx.cleared (nmax draw c : Nat) : Ctx :=
  { valid := false, hostref := false, refcnt := 0, cid := 0, logn := 0,
    psi := Config.ram draw (.psi c),
    zeta := (List.range nmax).map (fun k => Config.ram draw (.zeta c k)),
    zetainv := (List.range nmax).map (fun k => Config.ram draw (.zetainv c k)),
    ninv := Config.ram draw (.ninv c) }

/-- An unbound ring slot, its data unspecified: the contents of draw `draw` (10 R57, 43 R329). -/
def Ring.cleared (nmax draw r : Nat) : Ring :=
  { bound := false, ctx := 0, cid := 0, st := .coefficient,
    data := (List.range nmax).map (fun k => Config.ram draw (.data r k)) }

/-- Every piece of state at its reset value (10 R57), with parameters `p`; unspecified contents are those of draw
`draw`. The W registers hold 0 under an empty written mask (DESIGN CHOICE, log 1). -/
def State.resetWith (p : Params) (draw : Nat) : State :=
  { params := p
    rstn := true
    w := Bank.tabulate fun _ => 0
    written := Bank.tabulate fun _ => 0
    flags := { cf := false, lt := false, eq := false, gt := false, veq := false }
    cmdcount := 0
    status := { fault := false, drop := false, buserr := false, cfgv := false, err := .none }
    irqen := false
    faultcmd := 0
    faultseq := 0
    cfg := { q := 0, r1 := 0, r2 := 0, qprime := 0, root := 0, s := 0 }
    cx := Bank.tabulate (Ctx.cleared p.nmax draw)
    nextCid := 1
    re := Bank.tabulate (Ring.cleared p.nmax draw)
    stage := (List.range p.nmax).map (fun k => Config.ram draw (.stage k))
    slen := 0
    host := []
    reply := none
    programFault := false
    draws := draw + 1
    wDraw := draw }

/-- The machine right after reset, with the default parameters and no host access placed (10 R57; log 4, 5). -/
def State.reset : State := State.resetWith Params.default 0

end Sys2Proof.Machine
end

