-- ==== Sys2Proof/Machine/Arith.lean ====
section
/-! DEFINITION. The arithmetic of LMC as pure functions: limbs (spec 00 R12), the adder/subtractor (40 R160 to R167), the
Montgomery datapath (41 R212, R223), the configuration check (41 R206), and bit reversal and encoding (00 R14, R15). -/
namespace Sys2Proof.Machine

/-! ## Limbs -/

/-- limb_k(v) = v[64k+63 : 64k] (00 R12). -/
def limb (v : Word) (k : Nat) : Limb := v.extractLsb' (64 * k) 64

/-- `v` with bits [64k+63 : 64k] replaced by `x` (20 R83). -/
def putLimb (v : Word) (k : Nat) (x : Limb) : Word :=
  (v &&& ~~~((BitVec.allOnes 64).setWidth 1024 <<< (64 * k))) ||| (x.setWidth 1024 <<< (64 * k))

/-- The 1024-bit value whose lowest `n` limbs are `f 0, …, f (n−1)` and whose other limbs are 0 (00 R12). -/
def ofLimbs (f : Nat → Limb) : Nat → Word
  | 0 => 0
  | n + 1 => ofLimbs f n ||| ((f n).setWidth 1024 <<< (64 * n))

/-! ## Adder and subtractor -/

/-- carrying_add: the sum modulo 2^1024, and 1 iff a + b ≥ 2^1024 (40 R161, in the closed form that rule gives; log 11). -/
def carryingAdd (a b : Word) : Word × Bool := (a + b, decide (radix ≤ a.toNat + b.toNat))

/-- borrowing_sub: the difference modulo 2^1024, and 1 iff a < b (40 R162, in the closed form that rule gives; log 11). -/
def borrowingSub (a b : Word) : Word × Bool := (a - b, decide (a.toNat < b.toNat))

/-- The constant-time select: per limb, `m` is all ones if the choice is 1 and all zero if it is 0; the result is
(a AND NOT m) OR (b AND m) (40 R166; polarity: log 18). -/
def selectWord (choice : Bool) (a b : Word) : Word :=
  let m : Word := 0 - (BitVec.ofBool choice).setWidth 1024
  (a &&& ~~~m) ||| (b &&& m)

/-- The exact product of two wide words (40 R167). -/
def wideProduct (a b : Word) : Nat := a.toNat * b.toNat

/-! ## Montgomery arithmetic -/

/-- REDC (41 R212). -/
def redc (c : FieldCfg) (t : Nat) : Word :=
  let m := (t % radix * c.qprime.toNat) % radix
  let u := (t + m * c.q.toNat) / radix
  BitVec.ofNat 1024 (if c.q.toNat ≤ u then u - c.q.toNat else u)

/-- The conditional-correction datapath of FADD (41 R223). -/
def fadd (c : FieldCfg) (a b : Word) : Word :=
  let sum := carryingAdd a b
  let diff := borrowingSub sum.1 c.q
  if sum.2 || !diff.2 then diff.1 else sum.1

/-- The conditional-correction datapath of FSUB (41 R223). -/
def fsub (c : FieldCfg) (a b : Word) : Word :=
  let diff := borrowingSub a b
  if diff.2 then (carryingAdd diff.1 c.q).1 else diff.1

/-- Montgomery product REDC(a · b) (41 R218). -/
def fmul (c : FieldCfg) (a b : Word) : Word := redc c (wideProduct a b)

/-- (q − a) mod q (41 R219). -/
def fneg (c : FieldCfg) (a : Word) : Word := (c.q - a) % c.q

/-- REDC(x · R2): the Montgomery representative of x mod q (41 R214). -/
def fenc (c : FieldCfg) (x : Word) : Word := redc c (wideProduct x c.r2)

/-- REDC(a): the value a stands for (41 R215). -/
def fdec (c : FieldCfg) (a : Word) : Word := redc c a.toNat

/-- The value `v` is canonical: v < q (00 R19). -/
def canonical (c : FieldCfg) (v : Word) : Bool := decide (v.toNat < c.q.toNat)

/-- enc(x) = (x · R) mod q (00 R14). -/
def encNat (q x : Nat) : Nat := x * radix % q

/-- x^(2^k) mod m, by k squarings (log 10). -/
def squareTimes (m x : Nat) : Nat → Nat
  | 0 => x % m
  | k + 1 => squareTimes m x k ^ 2 % m

/-- cfg_ok, the conjunction of the legal values of the six registers (41 R201 to R206). -/
def cfgOk (c : FieldCfg) : Bool :=
  decide (c.q.toNat % 2 = 1) && decide (3 ≤ c.q.toNat) &&
  (decide (c.r1.toNat = 2 ^ 1024 % c.q.toNat) && decide (c.r2.toNat = 2 ^ 2048 % c.q.toNat)) &&
  decide ((c.q.toNat * c.qprime.toNat + 1) % 2 ^ 1024 = 0) &&
  (decide (1 ≤ c.s.toNat) && decide (c.s.toNat ≤ 1023)) && decide ((c.q.toNat - 1) % 2 ^ c.s.toNat = 0) &&
  decide (c.root.toNat < c.q.toNat) && decide (squareTimes c.q.toNat c.root.toNat (c.s.toNat - 1) = c.q.toNat - 1)

/-- brv_b(k): the low `b` bits of `k` in reverse order (00 R15). -/
def brv : Nat → Nat → Nat
  | 0, _ => 0
  | b + 1, k => k % 2 * 2 ^ b + brv b (k / 2)

end Sys2Proof.Machine
end

