-- ==== Sys2Proof/Machine/Transform.lean ====
section
/-! DEFINITION. The butterfly pipeline (spec 42 R265 to R267) and the tables a context is built with (42 R261 to R263), as
pure functions. -/
namespace Sys2Proof.Machine

/-! ## Tables -/

/-- The primitive 2n-th root ψ = ROOT^(2^(S − 1 − logn)) mod q (42 R261). -/
def psiOf (c : FieldCfg) (logn : Nat) : Nat := squareTimes c.q.toNat c.root.toNat (c.s.toNat - 1 - logn)

/-- ZETA[k] = enc(ψ^brv_b(k) mod q), k = 0..n−1 (42 R262). -/
def zetaTable (c : FieldCfg) (logn : Nat) : List Word :=
  (List.range (2 ^ logn)).map fun k =>
    BitVec.ofNat 1024 (encNat c.q.toNat (psiOf c logn ^ brv logn k % c.q.toNat))

/-- ZETAINV[k] = enc(ψ^((2n − brv_b(k)) mod 2n) mod q), k = 0..n−1 (42 R262). -/
def zetainvTable (c : FieldCfg) (logn : Nat) : List Word :=
  (List.range (2 ^ logn)).map fun k =>
    BitVec.ofNat 1024 (encNat c.q.toNat
      (psiOf c logn ^ ((2 * 2 ^ logn - brv logn k) % (2 * 2 ^ logn)) % c.q.toNat))

/-- n⁻¹ mod q for n = 2^logn and odd q: the power logn of (q + 1)/2, which is the inverse of 2 (42 R263; log 10). -/
def invDegree (q logn : Nat) : Nat := ((q + 1) / 2) ^ logn % q

/-- NINV = enc(n⁻¹ mod q) (42 R263). -/
def ninvOf (c : FieldCfg) (logn : Nat) : Word := BitVec.ofNat 1024 (encNat c.q.toNat (invDegree c.q.toNat logn))

/-! ## The network

A stage with half-length `len` cuts the sequence into blocks of 2·len entries. The block that starts at `start` uses the twiddle
k = n/(2·len) + start/(2·len): block number 0 of the stage uses n/(2·len), and each next block the next k. A block's butterflies
join entry j of its first half with entry j of its second half. Butterflies of one stage touch disjoint pairs, so a block's
butterflies are computed at once (42 R266; log 12). -/

/-- The butterflies CT of one block, with twiddle `z`: (u + z·v, u − z·v) (42 R265). -/
def ctBlock (c : FieldCfg) (len : Nat) (z : Word) (blk : List Word) : List Word :=
  let u := blk.take len
  let t := (blk.drop len).map (fmul c z)
  List.zipWith (fadd c) u t ++ List.zipWith (fsub c) u t

/-- The butterflies GS of one block, with inverse twiddle `zi`: (u + v, zi·(u − v)) (42 R265). -/
def gsBlock (c : FieldCfg) (len : Nat) (zi : Word) (blk : List Word) : List Word :=
  let u := blk.take len
  let v := blk.drop len
  List.zipWith (fadd c) u v ++ (List.zipWith (fsub c) u v).map (fmul c zi)

/-- `g k`, `g (k+1)`, … applied to the successive blocks of `width` entries, `blocks` of them. -/
def mapBlocks (g : Nat → List Word → List Word) (width : Nat) : Nat → Nat → List Word → List Word
  | 0, _, a => a
  | blocks + 1, k, a => g k (a.take width) ++ mapBlocks g width blocks (k + 1) (a.drop width)

/-- Forward stage number `s` of log2(n): 2^s blocks, len = n/2^(s+1) (42 R266). -/
def fwdStage (c : FieldCfg) (zeta : List Word) (logn s : Nat) (a : List Word) : List Word :=
  mapBlocks (fun k => ctBlock c (2 ^ (logn - 1 - s)) (zeta.getD k 0)) (2 ^ (logn - s)) (2 ^ s) (2 ^ s) a

/-- Inverse stage over the same blocks and twiddle indices as forward stage `s` (42 R267). -/
def invStage (c : FieldCfg) (zetainv : List Word) (logn s : Nat) (a : List Word) : List Word :=
  mapBlocks (fun k => gsBlock c (2 ^ (logn - 1 - s)) (zetainv.getD k 0)) (2 ^ (logn - s)) (2 ^ s) (2 ^ s) a

/-- NTT_FWD: the stages s = 0, 1, …, logn − 1, i.e. len = n/2, n/4, …, 1 (42 R266). -/
def nttFwd (c : FieldCfg) (zeta : List Word) (logn : Nat) (a : List Word) : List Word :=
  (List.range logn).foldl (fun a s => fwdStage c zeta logn s a) a

/-- NTT_INV: the stages in reverse order, len = 1, 2, …, n/2, then every element times NINV (42 R267). -/
def nttInv (c : FieldCfg) (zetainv : List Word) (ninv : Word) (logn : Nat) (a : List Word) : List Word :=
  ((List.range logn).reverse.foldl (fun a s => invStage c zetainv logn s a) a).map fun x => fmul c x ninv

end Sys2Proof.Machine
end

