-- ==== Sys2Proof/Machine/Ops.lean ====
section
/-! DEFINITION. The named operations over the state: W registers, the command cycle with the fault record (taking a fault) and
the clearing of a fault (returning from one), context lifetime, result binding, and reset. -/
namespace Sys2Proof.Machine

/-! ## Wide registers (spec 10 R31, R32; 20 R83; log 1) -/

/-- Limb `k` of W[`i`]: the stored limb, or while nothing has written it since reset a free value. -/
def State.readLimb (s : State) (i : Idx) (k : Nat) : Limb :=
  if (s.written.get i).getLsbD k then limb (s.w.get i) k else Config.unwrittenLimb s.wDraw i.toNat k

/-- Every limb of W[`i`] has been written since reset. -/
def State.isWritten (s : State) (i : Idx) : Bool := decide (s.written.get i = BitVec.allOnes 16)

/-- `W[i]` read by a command: all 16 limbs. -/
def State.readW (s : State) (i : Idx) : Word :=
  if s.isWritten i then s.w.get i else ofLimbs (s.readLimb i) 16

/-- `W[i] <- v` by a command: all 16 limbs are written (10 R32). -/
def State.writeW (s : State) (i : Idx) (v : Word) : State :=
  { s with w := s.w.put i v, written := s.written.put i (BitVec.allOnes 16) }

/-- A host write of limb `k` of W[`i`]; the other 15 limbs stay as they were, unspecified or not (10 R32, 20 R83). -/
def State.writeLimb (s : State) (i : Idx) (k : Nat) (x : Limb) : State :=
  { s with w := s.w.put i (putLimb (s.w.get i) k x), written := s.written.put i (s.written.get i ||| (1#16 <<< k)) }

/-- A command reads the registers `is`: a program fault is recorded if one of them has an unwritten limb (93 I1). -/
def State.noteReads (s : State) (is : List Idx) : State :=
  { s with programFault := s.programFault || is.any (fun i => !s.isWritten i) }

/-- The host reads limb `k` of W[`i`]: a program fault is recorded if it is unwritten (93 I1). -/
def State.noteLimbRead (s : State) (i : Idx) (k : Nat) : State :=
  { s with programFault := s.programFault || !(s.written.get i).getLsbD k }

/-! ## Taking a command fault, and returning from one -/

/-- `record_fault(code, v)`: the whole trap entry (60 R412). -/
def State.recordFault (s : State) (code : ErrCode) (v : BitVec 64) : State :=
  { s with status := { s.status with fault := true, err := code }, faultcmd := v, faultseq := s.cmdcount }

/-- The return from a fault: FAULT = 0 and ERR = 0x00; FAULTCMD and FAULTSEQ stay (60 R416). -/
def State.clearFault (s : State) : State := { s with status := { s.status with fault := false, err := .none } }

/-- A command completed without a fault: CMDCOUNT + 1 modulo 2^64 (44 R403). -/
def State.complete (s : State) : State := { s with cmdcount := s.cmdcount + 1 }

/-! ## The command cycle (44 R400) -/

/-- One fault condition of a command: it raises `code` if `fails`. -/
structure Check where
  fails : Bool
  code : ErrCode
deriving DecidableEq, Repr

/-- The fault a command reports: that of the first condition met (60 R414). -/
def firstFault : List Check → Option ErrCode
  | [] => none
  | c :: cs => if c.fails then some c.code else firstFault cs

/-- The rule of command `i`: the conditions `pre` on state it checks before it reads W registers, then the reads of the W
registers `reads`, then the conditions `post` on what was read, then its effect `eff` and the counter (44 R400). "The rules check
every fault condition before their first write" (60 R413). A fault is recorded with the CMD value of `i` (60 R412; log 9). -/
def command (i : Instr) (pre : List Check) (reads : List Idx) (post : List Check) (eff : State → State) (s : State) :
    Host.Outcome State Fault Refusal :=
  match firstFault pre with
  | some code => .next (s.recordFault code i.cmdValue)
  | none =>
    match firstFault post with
    | some code => .next ((s.noteReads reads).recordFault code i.cmdValue)
    | none => .next (eff (s.noteReads reads)).complete

/-! ## Contexts and their lifetime (42 R271 to R274) -/

/-- CX[c] replaced. -/
def State.putCtx (s : State) (c : Idx) (x : Ctx) : State := { s with cx := s.cx.put c x }

/-- log2 of the degree of context slot `c`. -/
def State.logDegree (s : State) (c : Idx) : Nat := (s.cx.get c).logn.toNat

/-- The degree n = 2^LOGN of context slot `c` (42 R260). -/
def State.degree (s : State) (c : Idx) : Nat := 2 ^ s.logDegree c

/-- host_ctx(c): the host may name `c` (42 R274). -/
def State.hostCtx (s : State) (c : Idx) : Bool := (s.cx.get c).valid && (s.cx.get c).hostref

/-- Some context slot is valid (41 R210). -/
def State.anyCtxValid (s : State) : Bool := (List.range 16).any fun c => (s.cx.get (BitVec.ofNat 4 c)).valid

/-- A context of log-degree `logn` built from the configuration `cfg`, with identity `cid` (42 R271). -/
def Ctx.build (cfg : FieldCfg) (cid : BitVec 64) (logn : Nat) : Ctx :=
  { valid := true, hostref := true, refcnt := 0, cid := cid, logn := BitVec.ofNat 8 logn,
    psi := BitVec.ofNat 1024 (psiOf cfg logn), zeta := zetaTable cfg logn, zetainv := zetainvTable cfg logn,
    ninv := ninvOf cfg logn }

/-- The construction of CTXNEW: the slot is filled and NEXT_CID grows by 1 (42 R271). -/
def State.newCtx (s : State) (c : Idx) (logn : Nat) : State :=
  { s with cx := s.cx.put c (Ctx.build s.cfg s.nextCid logn), nextCid := s.nextCid + 1 }

/-- free(c): the slot's bookkeeping becomes 0, its tables unspecified (42 R273). -/
def State.freeCtx (s : State) (c : Idx) : State :=
  { s with cx := s.cx.put c (Ctx.cleared s.params.nmax s.draws c.toNat), draws := s.draws + 1 }

/-- The host's hold on `c` is given up; `c` is freed if no ring slot references it (42 R272). -/
def State.dropHold (s : State) (c : Idx) : State :=
  let s1 := s.putCtx c { s.cx.get c with hostref := false }
  if (s1.cx.get c).refcnt = 0 then s1.freeCtx c else s1

/-- acquire(c) (42 R274). -/
def State.acquire (s : State) (c : Idx) : State :=
  s.putCtx c { s.cx.get c with refcnt := (s.cx.get c).refcnt + 1 }

/-- release(c): one reference less; freed at the last one if the host no longer holds it (42 R274). -/
def State.release (s : State) (c : Idx) : State :=
  let s1 := s.putCtx c { s.cx.get c with refcnt := (s.cx.get c).refcnt - 1 }
  if (s1.cx.get c).refcnt = 0 ∧ (s1.cx.get c).hostref = false then s1.freeCtx c else s1

/-! ## Ring slots (43 R322, R329) -/

/-- RE[r] replaced. -/
def State.putRing (s : State) (r : Idx) (x : Ring) : State := { s with re := s.re.put r x }

/-- rebind(rd, c): the new context is acquired before the old one is released (43 R322). -/
def State.rebind (s : State) (rd c : Idx) : State :=
  let s1 := s.acquire c
  let s2 := if (s1.re.get rd).bound then s1.release (s1.re.get rd).ctx else s1
  s2.putRing rd { s2.re.get rd with bound := true, ctx := c, cid := (s2.cx.get c).cid }

/-- DATA[0..n−1] replaced by the n words `d`; the entries from n on stay (43 R322). -/
def overwrite (old d : List Word) : List Word := d ++ old.drop d.length

/-- RE[r].DATA[0..n−1] <- d; RE[r].ST <- st (43 R322). -/
def State.putData (s : State) (r : Idx) (st : Rep) (d : List Word) : State :=
  s.putRing r { s.re.get r with st := st, data := overwrite (s.re.get r).data d }

/-- Result binding: rebind, then the data and the state tag are written (43 R322). -/
def State.bindRing (s : State) (rd c : Idx) (st : Rep) (d : List Word) : State := (s.rebind rd c).putData rd st d

/-- The destruction of an element: the slot is unbound, its data unspecified, its context released (43 R329). -/
def State.unbindRing (s : State) (rd : Idx) : State :=
  let c := (s.re.get rd).ctx
  let s1 : State := { s with re := s.re.put rd (Ring.cleared s.params.nmax s.draws rd.toNat), draws := s.draws + 1 }
  s1.release c

/-! ## Staging buffer (42 R275 to R279) -/

/-- STAGE[SLEN] <- v; SLEN <- SLEN + 1 (42 R276). -/
def State.pushStage (s : State) (v : Word) : State := { s with stage := s.stage.set s.slen v, slen := s.slen + 1 }

/-- STAGE[0..n−1] <- d (42 R278). -/
def State.putStage (s : State) (d : List Word) : State := { s with stage := overwrite s.stage d }

/-! ## Reset (70 R460, R461) -/

/-- Every piece of state takes its value of 10 R57; unspecified contents are drawn afresh. The parameters are constants. What
is outside LMC stays: the host's accesses, the answer on the bus, and the record of a program fault (log 1, 5, 7). -/
def State.toReset (s : State) : State :=
  { State.resetWith s.params s.draws with host := s.host, reply := s.reply, programFault := s.programFault }

/-- rst_n driven to a level: at 0 the reset is held; when it returns to 1 every piece of state holds its reset value
(70 R460; log 8). -/
def State.driveReset (s : State) (level : Bool) : State :=
  if level then (if s.rstn then s else s.toReset) else { s with rstn := false }

end Sys2Proof.Machine
end

