-- ==== Sys2Proof/Machine/Flags.lean ====
section
/-! DEFINITION. Every flag computation of the spec (10 R34 to R37), and the packed views of FLAGS, STATUS and the other
registers made of fields (10 R33 to R49). -/
namespace Sys2Proof.Machine

/-! ## Flag results -/

/-- FLAGS.CF <- b: the carry of WADD or the borrow of WSUB (10 R35). -/
def State.setCF (s : State) (b : Bool) : State := { s with flags := { s.flags with cf := b } }

/-- LT, EQ and GT of the unsigned compare of `a` with `b` (10 R36, 40 R165). -/
def State.setCompare (s : State) (a b : Word) : State :=
  { s with flags := { s.flags with lt := decide (a.toNat < b.toNat), eq := decide (a = b), gt := decide (b.toNat < a.toNat) } }

/-- FLAGS.VEQ <- b: the result of FEQ or REQ (10 R37). -/
def State.setVEQ (s : State) (b : Bool) : State := { s with flags := { s.flags with veq := b } }

/-! ## Packed views -/

/-- The 64-bit word with bit `k` equal to `b` and every other bit 0. -/
def bitAt (b : Bool) (k : Nat) : Limb := (BitVec.ofBool b).setWidth 64 <<< k

/-- FLAGS as the host reads it: bits 63..5 read 0 (10 R33, R34). -/
def Flags.word (f : Flags) : Limb := bitAt f.cf 0 ||| bitAt f.lt 1 ||| bitAt f.eq 2 ||| bitAt f.gt 3 ||| bitAt f.veq 4

/-- FLAGS as a host write leaves it: the reserved bits are ignored (20 R96). -/
def Flags.ofWord (v : Limb) : Flags :=
  { cf := v.getLsbD 0, lt := v.getLsbD 1, eq := v.getLsbD 2, gt := v.getLsbD 3, veq := v.getLsbD 4 }

/-- The 8-bit fault codes (60 R411). -/
def ErrCode.code : ErrCode → BitVec 8
  | .none => 0x00
  | .illegalCommand => 0x01
  | .configurationMismatch => 0x02
  | .invalidState => 0x03
  | .constructionError => 0x04
  | .notConfigured => 0x05
  | .invalidHandle => 0x06
  | .nonCanonical => 0x07
  | .indexRange => 0x08
  | .lengthMismatch => 0x09
  | .stagingOverflow => 0x0A
  | .configInvalid => 0x0B
  | .resourceBusy => 0x0C

/-- STATUS as the host reads it (10 R39). -/
def Status.word (t : Status) : Limb :=
  bitAt t.fault 0 ||| bitAt t.drop 1 ||| bitAt t.buserr 2 ||| bitAt t.cfgv 3 ||| (t.err.code.setWidth 64 <<< 8)

/-- PARAMS: NW, NRING, NCTX and LOGNMAX in one byte each (10 R42). -/
def Params.word (p : Params) : Limb :=
  BitVec.ofNat 64 (p.nw + p.nring * 2 ^ 8 + p.nctx * 2 ^ 16 + p.lognmax * 2 ^ 24)

/-- ID: the constant of 10 R41. -/
def idWord : Limb := 0x4C4D430000070001

/-- CXINFO of a context slot (10 R48). -/
def Ctx.infoWord (x : Ctx) : Limb :=
  bitAt x.valid 0 ||| bitAt x.hostref 1 ||| (x.logn.setWidth 64 <<< 8) ||| (x.refcnt.setWidth 64 <<< 16)

/-- REINFO of a ring slot (10 R49). -/
def Ring.infoWord (x : Ring) : Limb :=
  bitAt x.bound 0 ||| bitAt (decide (x.st = .ntt)) 1 ||| (x.ctx.setWidth 64 <<< 8)

/-- The interrupt output: STATUS.FAULT AND CTRL.IRQEN, and 0 while rst_n = 0 (10 R55, 60 R418, 70 R460). -/
def State.irq (s : State) : Bool := s.rstn && (s.status.fault && s.irqen)

end Sys2Proof.Machine
end

