-- ==== Sys2Proof/Machine/Operands.lean ====
section
/-! DEFINITION. How commands read operands: the checks on each class of operand (spec 41 R211, 42 R274, 43 R323) and the
non-destructive views of a ring element (43 R321). -/
namespace Sys2Proof.Machine

/-! ## Checks -/

/-- NOT_CONFIGURED if CFGV = 0 (41 R211). -/
def State.checkConfigured (s : State) : Check := ⟨!s.status.cfgv, .notConfigured⟩

/-- NON_CANONICAL if W[`i`] ≥ q (41 R211, 43 R336). -/
def State.checkCanonical (s : State) (i : Idx) : Check := ⟨!canonical s.cfg (s.readW i), .nonCanonical⟩

/-- INVALID_HANDLE if the host may not name context `c` (42 R274). -/
def State.checkHostCtx (s : State) (c : Idx) : Check := ⟨!s.hostCtx c, .invalidHandle⟩

/-- INVALID_HANDLE if ring slot `r` is unbound (43 R323). -/
def State.checkBound (s : State) (r : Idx) : Check := ⟨!(s.re.get r).bound, .invalidHandle⟩

/-- CONFIGURATION_MISMATCH if the two slots carry different context identities (43 R323). -/
def State.checkSameCid (s : State) (ra rb : Idx) : Check :=
  ⟨!decide ((s.re.get ra).cid = (s.re.get rb).cid), .configurationMismatch⟩

/-- INVALID_STATE if slot `r` is not in state `st` (43 R338, R339). -/
def State.checkRep (s : State) (r : Idx) (st : Rep) : Check := ⟨!decide ((s.re.get r).st = st), .invalidState⟩

/-- `code` if the staging length differs from the degree of context `c` (42 R278, 43 R324). -/
def State.checkStageLength (s : State) (c : Idx) (code : ErrCode) : Check := ⟨!decide (s.slen = s.degree c), code⟩

/-- The first `n` staged entries. -/
def State.staged (s : State) (n : Nat) : List Word := s.stage.take n

/-- NON_CANONICAL if one of STAGE[0..n−1] is ≥ q, n the degree of `c` (42 R278, 43 R324). -/
def State.checkStageCanonical (s : State) (c : Idx) : Check :=
  ⟨!(s.staged (s.degree c)).all (canonical s.cfg), .nonCanonical⟩

/-! ## Configuration registers -/

/-- The configuration register a selector names (30 R133). -/
def FieldCfg.get (c : FieldCfg) : CfgSel → Word
  | .q => c.q
  | .r1 => c.r1
  | .r2 => c.r2
  | .qprime => c.qprime
  | .root => c.root
  | .s => c.s

/-- The configuration with the register a selector names replaced (41 R207). -/
def FieldCfg.put (c : FieldCfg) (sel : CfgSel) (v : Word) : FieldCfg :=
  match sel with
  | .q => { c with q := v }
  | .r1 => { c with r1 := v }
  | .r2 => { c with r2 := v }
  | .qprime => { c with qprime := v }
  | .root => { c with root := v }
  | .s => { c with s := v }

/-! ## Views of a ring element -/

/-- The degree n(r) of the element in slot `r` (43 R320). -/
def State.ringDegree (s : State) (r : Idx) : Nat := s.degree (s.re.get r).ctx

/-- RE[r].DATA[0..n−1] (43 R320). -/
def State.ringData (s : State) (r : Idx) : List Word := (s.re.get r).data.take (s.ringDegree r)

/-- NTT_FWD(c, a) with the tables of context slot `c` (42 R266). -/
def State.fwd (s : State) (c : Idx) (a : List Word) : List Word := nttFwd s.cfg (s.cx.get c).zeta (s.logDegree c) a

/-- NTT_INV(c, a) with the tables of context slot `c` (42 R267). -/
def State.inv (s : State) (c : Idx) (a : List Word) : List Word :=
  nttInv s.cfg (s.cx.get c).zetainv (s.cx.get c).ninv (s.logDegree c) a

/-- coef(r) (43 R321). -/
def State.coefView (s : State) (r : Idx) : List Word :=
  match (s.re.get r).st with
  | .coefficient => s.ringData r
  | .ntt => s.inv (s.re.get r).ctx (s.ringData r)

/-- ntt(r) (43 R321). -/
def State.nttView (s : State) (r : Idx) : List Word :=
  match (s.re.get r).st with
  | .ntt => s.ringData r
  | .coefficient => s.fwd (s.re.get r).ctx (s.ringData r)

/-- The state in which RADD and RSUB combine: the common one, or Coefficient if the operands differ (43 R332). -/
def State.commonRep (s : State) (ra rb : Idx) : Rep :=
  if (s.re.get ra).st = (s.re.get rb).st then (s.re.get ra).st else .coefficient

/-- The operand sequence of RADD and RSUB: the data if the states agree, else the coefficient view (43 R332). -/
def State.addend (s : State) (ra rb r : Idx) : List Word :=
  if (s.re.get ra).st = (s.re.get rb).st then s.ringData r else s.coefView r

end Sys2Proof.Machine
end

