-- ==== Sys2Proof/Machine/Bus.lean ====
section
/-! DEFINITION. The MMIO aperture (spec 20): the address map, the value each register reads as, what a write to each register
other than CMD does, and the bus error. -/
namespace Sys2Proof.Machine

/-- The registers of the aperture (20 R82). -/
inductive Reg where
  | id | params | ctrl | status | flags | cmd | cmdcount | faultcmd | faultseq | slen | nextcid
  | cxinfo (c : Idx)
  | cxcid (c : Idx)
  | reinfo (r : Idx)
  | recid (r : Idx)
  | wlimb (i : Idx) (k : Nat)
  | reserved
deriving DecidableEq, Repr

/-- The register at an aligned offset of the aperture; every offset not listed is reserved (20 R82, R83, R89). -/
def regAt (p : Params) (off : Nat) : Reg :=
  if off = 0x000 then .id
  else if off = 0x008 then .params
  else if off = 0x010 then .ctrl
  else if off = 0x018 then .status
  else if off = 0x020 then .flags
  else if off = 0x028 then .cmd
  else if off = 0x030 then .cmdcount
  else if off = 0x038 then .faultcmd
  else if off = 0x040 then .faultseq
  else if off = 0x048 then .slen
  else if off = 0x050 then .nextcid
  else if 0x100 ≤ off ∧ off < 0x200 then
    let c := BitVec.ofNat 4 ((off - 0x100) / 16)
    if off % 16 = 0 then .cxinfo c else .cxcid c
  else if 0x200 ≤ off ∧ off < 0x300 then
    let r := BitVec.ofNat 4 ((off - 0x200) / 16)
    if off % 16 = 0 then .reinfo r else .recid r
  else if 0x1000 ≤ off ∧ off < 0x1000 + 0x80 * p.nw then
    .wlimb (BitVec.ofNat 4 ((off - 0x1000) / 0x80)) ((off - 0x1000) % 0x80 / 8)
  else .reserved

/-- What a register reads as: `MMIORead` of an aligned 64-bit access (20 R95; 10 R33 to R49). -/
def State.readReg (s : State) : Reg → Limb
  | .id => idWord
  | .params => Params.word s.params
  | .ctrl => bitAt s.irqen 0
  | .status => s.status.word
  | .flags => s.flags.word
  | .cmd => 0
  | .cmdcount => s.cmdcount
  | .faultcmd => s.faultcmd
  | .faultseq => s.faultseq
  | .slen => BitVec.ofNat 64 s.slen
  | .nextcid => s.nextCid
  | .cxinfo c => if c.toNat < s.params.nctx then (s.cx.get c).infoWord else 0
  | .cxcid c => if c.toNat < s.params.nctx then (s.cx.get c).cid else 0
  | .reinfo r => if r.toNat < s.params.nring then (s.re.get r).infoWord else 0
  | .recid r => if r.toNat < s.params.nring then (s.re.get r).cid else 0
  | .wlimb i k => s.readLimb i k
  | .reserved => 0

/-- The record a read leaves: only a read of an unwritten W limb leaves one, in the model's own `programFault`
(20 R90, 93 I1). -/
def State.noteRegRead (s : State) : Reg → State
  | .wlimb i k => s.noteLimbRead i k
  | _ => s

/-- A write to CTRL: SRST = 1 performs the soft reset and the other bits are ignored; otherwise IRQEN is written
(10 R40, 20 R96, 70 R461). -/
def State.writeCtrl (s : State) (v : Limb) : State :=
  if v.getLsbD 1 then s.toReset else { s with irqen := v.getLsbD 0 }

/-- A write to STATUS: each 1 written to FAULT, DROP or BUSERR clears it; clearing FAULT also zeroes ERR
(10 R39, 20 R96). -/
def State.writeStatus (s : State) (v : Limb) : State :=
  let s1 := if v.getLsbD 0 then s.clearFault else s
  let s2 : State := if v.getLsbD 1 then { s1 with status := { s1.status with drop := false } } else s1
  if v.getLsbD 2 then { s2 with status := { s2.status with buserr := false } } else s2

/-- `MMIOWrite` of an aligned 64-bit access to a register other than CMD (20 R96). Read-only registers and reserved
offsets ignore it (20 R89); the write to CMD is the engine's (44 R400). -/
def State.writeReg (s : State) (v : Limb) : Reg → State
  | .ctrl => s.writeCtrl v
  | .status => s.writeStatus v
  | .flags => { s with flags := Flags.ofWord v }
  | .wlimb i k => s.writeLimb i k v
  | .id => s
  | .params => s
  | .cmd => s
  | .cmdcount => s
  | .faultcmd => s
  | .faultseq => s
  | .slen => s
  | .nextcid => s
  | .cxinfo _ => s
  | .cxcid _ => s
  | .reinfo _ => s
  | .recid _ => s
  | .reserved => s

/-- The byte address `addr` is in the 8 KiB aperture (20 R81). -/
def inAperture (p : Params) (addr : Nat) : Bool := decide (p.base ≤ addr) && decide (addr < p.base + 0x2000)

/-- The access keeps the access rules: 64 bits wide, at an offset that is a multiple of 8 (20 R85 to R87). -/
def accessOk (off width : Nat) : Bool := decide (width = 8) && decide (off % 8 = 0)

/-- A bus error: BUSERR is set and the access has no other effect (20 R88, 60 R420). -/
def State.busError (s : State) : State := { s with status := { s.status with buserr := true } }

/-- What LMC answers. -/
def State.answer (s : State) (r : Option Reply) : State := { s with reply := r }

/-- The access reaches LMC while its reset is held: LMC ignores it, and the bus answers as the platform has it
(70 R460; log 8). -/
def State.ignoreInReset (s : State) : State := { s with reply := Config.replyInReset s.draws, draws := s.draws + 1 }

/-- One byte of the aperture: byte lane `off mod 8` of the 64-bit register there (20 R84). -/
def State.apertureByte (s : State) (off : Nat) : Byte :=
  (s.readReg (regAt s.params (off - off % 8))).extractLsb' (8 * (off % 8)) 8

/-- A host read of `width` bytes at `addr` (20 R81, R88, R95). -/
def busRead (addr width : Nat) (s : State) : State :=
  if inAperture s.params addr = false then s.answer none
  else if s.rstn = false then s.ignoreInReset
  else if accessOk (addr - s.params.base) width = false then s.busError.answer (some ⟨true, some 0⟩)
  else
    let reg := regAt s.params (addr - s.params.base)
    (s.noteRegRead reg).answer (some ⟨false, some (s.readReg reg)⟩)

end Sys2Proof.Machine
end

