-- ==== Sys2Proof/Machine/BigInt.lean ====
section
/-! DEFINITION. The meanings of the BigInt commands (spec 40 R163 to R169). -/
namespace Sys2Proof.Machine

/-- WADD: the sum, and CF the carry (40 R163). -/
def execWadd (wd wa wb : Idx) (s : State) : Host.Outcome State Fault Refusal :=
  command (.wadd wd wa wb) [] [wa, wb] []
    (fun s =>
      let sum := carryingAdd (s.readW wa) (s.readW wb)
      (s.writeW wd sum.1).setCF sum.2) s

/-- WSUB: the difference, and CF the borrow (40 R164). -/
def execWsub (wd wa wb : Idx) (s : State) : Host.Outcome State Fault Refusal :=
  command (.wsub wd wa wb) [] [wa, wb] []
    (fun s =>
      let diff := borrowingSub (s.readW wa) (s.readW wb)
      (s.writeW wd diff.1).setCF diff.2) s

/-- WCMP: LT, EQ, GT (40 R165). -/
def execWcmp (wa wb : Idx) (s : State) : Host.Outcome State Fault Refusal :=
  command (.wcmp wa wb) [] [wa, wb] [] (fun s => s.setCompare (s.readW wa) (s.readW wb)) s

/-- WSEL: W[wb] if CF = 1, else W[wa] (40 R166). -/
def execWsel (wd wa wb : Idx) (s : State) : Host.Outcome State Fault Refusal :=
  command (.wsel wd wa wb) [] [wa, wb] []
    (fun s => s.writeW wd (selectWord s.flags.cf (s.readW wa) (s.readW wb))) s

/-- WMUL: the low half of the product to wlo, the high half to whi (40 R167). -/
def execWmul (wlo wa wb whi : Idx) (s : State) : Host.Outcome State Fault Refusal :=
  command (.wmul wlo wa wb whi) [] [wa, wb] []
    (fun s =>
      let t := wideProduct (s.readW wa) (s.readW wb)
      (s.writeW wlo (BitVec.ofNat 1024 t)).writeW whi (BitVec.ofNat 1024 (t / radix))) s

/-- WLI: the immediate, zero-extended (40 R168). -/
def execWli (wd : Idx) (imm : Imm12) (s : State) : Host.Outcome State Fault Refusal :=
  command (.wli wd imm) [] [] [] (fun s => s.writeW wd (imm.setWidth 1024)) s

/-- WMOV: copy (40 R169). -/
def execWmov (wd wa : Idx) (s : State) : Host.Outcome State Fault Refusal :=
  command (.wmov wd wa) [] [wa] [] (fun s => s.writeW wd (s.readW wa)) s

end Sys2Proof.Machine
end

