-- ==== Sys2Proof/Machine/Configuration.lean ====
section
/-! DEFINITION. The meanings of the four configuration commands (spec 41 R207 to R210). -/
namespace Sys2Proof.Machine

/-- CFGW: CFG[sel] <- W[wa]; RESOURCE_BUSY while the configuration is committed (41 R207). -/
def execCfgw (sel : CfgSel) (wa : Idx) (s : State) : Host.Outcome State Fault Refusal :=
  command (.cfgw sel wa) [⟨s.status.cfgv, .resourceBusy⟩] [wa] []
    (fun s => { s with cfg := s.cfg.put sel (s.readW wa) }) s

/-- CFGR: W[wd] <- CFG[sel], whether or not CFGV = 1 (41 R208). -/
def execCfgr (wd : Idx) (sel : CfgSel) (s : State) : Host.Outcome State Fault Refusal :=
  command (.cfgr wd sel) [] [] [] (fun s => s.writeW wd (s.cfg.get sel)) s

/-- CFGCOMMIT: CFGV <- 1 if cfg_ok holds, else CONFIG_INVALID; no effect and no fault if CFGV = 1 already (41 R209). -/
def execCfgcommit (s : State) : Host.Outcome State Fault Refusal :=
  command .cfgcommit [⟨!s.status.cfgv && !cfgOk s.cfg, .configInvalid⟩] [] []
    (fun s => { s with status := { s.status with cfgv := true } }) s

/-- CFGINV: CFGV <- 0; RESOURCE_BUSY while a context is valid (41 R210). -/
def execCfginv (s : State) : Host.Outcome State Fault Refusal :=
  command .cfginv [⟨s.anyCtxValid, .resourceBusy⟩] [] []
    (fun s => { s with status := { s.status with cfgv := false } }) s

end Sys2Proof.Machine
end

