-- ==== Sys2Proof/Machine/Field.lean ====
section
/-! DEFINITION. The meanings of the field commands (spec 41 R214 to R222). Each first checks CFGV = 1, then that the
operands it reads as field elements are canonical, wa before wb (41 R211). -/
namespace Sys2Proof.Machine

/-- FENC: REDC(W[wa] · R2); the operand is a raw BigInt and is not checked (41 R214). -/
def execFenc (wd wa : Idx) (s : State) : Host.Outcome State Fault Refusal :=
  command (.fenc wd wa) [s.checkConfigured] [wa] [] (fun s => s.writeW wd (Machine.fenc s.cfg (s.readW wa))) s

/-- FDEC: REDC(W[wa]) (41 R215). -/
def execFdec (wd wa : Idx) (s : State) : Host.Outcome State Fault Refusal :=
  command (.fdec wd wa) [s.checkConfigured] [wa] [s.checkCanonical wa]
    (fun s => s.writeW wd (Machine.fdec s.cfg (s.readW wa))) s

/-- FADD (41 R216, R223). -/
def execFadd (wd wa wb : Idx) (s : State) : Host.Outcome State Fault Refusal :=
  command (.fadd wd wa wb) [s.checkConfigured] [wa, wb] [s.checkCanonical wa, s.checkCanonical wb]
    (fun s => s.writeW wd (Machine.fadd s.cfg (s.readW wa) (s.readW wb))) s

/-- FSUB (41 R217, R223). -/
def execFsub (wd wa wb : Idx) (s : State) : Host.Outcome State Fault Refusal :=
  command (.fsub wd wa wb) [s.checkConfigured] [wa, wb] [s.checkCanonical wa, s.checkCanonical wb]
    (fun s => s.writeW wd (Machine.fsub s.cfg (s.readW wa) (s.readW wb))) s

/-- FMUL: REDC(W[wa] · W[wb]) (41 R218). -/
def execFmul (wd wa wb : Idx) (s : State) : Host.Outcome State Fault Refusal :=
  command (.fmul wd wa wb) [s.checkConfigured] [wa, wb] [s.checkCanonical wa, s.checkCanonical wb]
    (fun s => s.writeW wd (Machine.fmul s.cfg (s.readW wa) (s.readW wb))) s

/-- FNEG: (q − W[wa]) mod q (41 R219). -/
def execFneg (wd wa : Idx) (s : State) : Host.Outcome State Fault Refusal :=
  command (.fneg wd wa) [s.checkConfigured] [wa] [s.checkCanonical wa]
    (fun s => s.writeW wd (Machine.fneg s.cfg (s.readW wa))) s

/-- FEQ: VEQ <- (dec(W[wa]) = dec(W[wb])) (41 R220). -/
def execFeq (wa wb : Idx) (s : State) : Host.Outcome State Fault Refusal :=
  command (.feq wa wb) [s.checkConfigured] [wa, wb] [s.checkCanonical wa, s.checkCanonical wb]
    (fun s => s.setVEQ (decide (Machine.fdec s.cfg (s.readW wa) = Machine.fdec s.cfg (s.readW wb)))) s

/-- FZERO (41 R221). -/
def execFzero (wd : Idx) (s : State) : Host.Outcome State Fault Refusal :=
  command (.fzero wd) [s.checkConfigured] [] [] (fun s => s.writeW wd 0) s

/-- FONE: R1 = R mod q, the representative of 1 (41 R222). -/
def execFone (wd : Idx) (s : State) : Host.Outcome State Fault Refusal :=
  command (.fone wd) [s.checkConfigured] [] [] (fun s => s.writeW wd s.cfg.r1) s

end Sys2Proof.Machine
end

