-- ==== Sys2Proof/Machine/Ntt.lean ====
section
/-! DEFINITION. The meanings of the staging, raw-transform and context commands (spec 42 R271, R272, R275 to R279). -/
namespace Sys2Proof.Machine

/-- SCLR: SLEN <- 0; the entries are unchanged (42 R275). -/
def execSclr (s : State) : Host.Outcome State Fault Refusal :=
  command .sclr [] [] [] (fun s => { s with slen := 0 }) s

/-- SPUSH: append W[wa]; STAGING_OVERFLOW if SLEN = NMAX (42 R276). -/
def execSpush (wa : Idx) (s : State) : Host.Outcome State Fault Refusal :=
  command (.spush wa) [⟨decide (s.slen = s.params.nmax), .stagingOverflow⟩] [wa] [] (fun s => s.pushStage (s.readW wa)) s

/-- SGET: W[wd] <- STAGE[idx]; INDEX_RANGE if idx ≥ SLEN (42 R277). -/
def execSget (wd : Idx) (idx : Imm12) (s : State) : Host.Outcome State Fault Refusal :=
  command (.sget wd idx) [⟨decide (s.slen ≤ idx.toNat), .indexRange⟩] [] []
    (fun s => s.writeW wd (s.stage.getD idx.toNat 0)) s

/-- SNTT: the forward transform of the staging buffer (42 R278). -/
def execSntt (ca : Idx) (s : State) : Host.Outcome State Fault Refusal :=
  command (.sntt ca) [s.checkHostCtx ca, s.checkStageLength ca .lengthMismatch, s.checkStageCanonical ca] [] []
    (fun s => s.putStage (s.fwd ca (s.staged (s.degree ca)))) s

/-- SINTT: the inverse transform of the staging buffer (42 R279). -/
def execSintt (ca : Idx) (s : State) : Host.Outcome State Fault Refusal :=
  command (.sintt ca) [s.checkHostCtx ca, s.checkStageLength ca .lengthMismatch, s.checkStageCanonical ca] [] []
    (fun s => s.putStage (s.inv ca (s.staged (s.degree ca)))) s

/-- CTXNEW: construct a context of log-degree logn (42 R271). -/
def execCtxnew (cd : Idx) (logn : Imm12) (s : State) : Host.Outcome State Fault Refusal :=
  command (.ctxnew cd logn)
    [s.checkConfigured,
     ⟨(s.cx.get cd).valid, .resourceBusy⟩,
     ⟨decide (s.params.lognmax < logn.toNat), .constructionError⟩,
     ⟨decide (s.cfg.s.toNat < logn.toNat + 1), .constructionError⟩,
     ⟨decide (s.nextCid = BitVec.allOnes 64), .constructionError⟩] [] []
    (fun s => s.newCtx cd logn.toNat) s

/-- CTXREL: release the host's hold; INVALID_HANDLE if it has none (42 R272). -/
def execCtxrel (cd : Idx) (s : State) : Host.Outcome State Fault Refusal :=
  command (.ctxrel cd) [s.checkHostCtx cd] [] [] (fun s => s.dropHold cd) s

end Sys2Proof.Machine
end

