-- ==== Sys2Proof/Machine/RingElement.lean ====
section
/-! DEFINITION. The meanings of the ring-element commands (spec 43 R324 to R339), over the result binding of 43 R322 and
the non-destructive views of 43 R321. -/
namespace Sys2Proof.Machine

/-- The checks of a construction from staging (43 R323, R324). -/
def State.checksFromStage (s : State) (ca : Idx) : List Check :=
  [s.checkHostCtx ca, s.checkStageLength ca .constructionError, s.checkStageCanonical ca]

/-- The checks of RADD, RSUB and RMUL (43 R323, R332). -/
def State.checksPair (s : State) (ra rb : Idx) : List Check := [s.checkBound ra, s.checkBound rb, s.checkSameCid ra rb]

/-- RFROMC: construct from coefficients (43 R324). -/
def execRfromc (rd ca : Idx) (s : State) : Host.Outcome State Fault Refusal :=
  command (.rfromc rd ca) (s.checksFromStage ca) [] []
    (fun s => s.bindRing rd ca .coefficient (s.staged (s.degree ca))) s

/-- RFROMN: construct from NTT values (43 R325). -/
def execRfromn (rd ca : Idx) (s : State) : Host.Outcome State Fault Refusal :=
  command (.rfromn rd ca) (s.checksFromStage ca) [] []
    (fun s => s.bindRing rd ca .ntt (s.staged (s.degree ca))) s

/-- RZERO: the zero polynomial, in Coefficient state (43 R326). -/
def execRzero (rd ca : Idx) (s : State) : Host.Outcome State Fault Refusal :=
  command (.rzero rd ca) [s.checkHostCtx ca] [] []
    (fun s => s.bindRing rd ca .coefficient (List.replicate (s.degree ca) 0)) s

/-- RONE: the constant polynomial 1, [R1, 0, …, 0] in Coefficient state (43 R327). -/
def execRone (rd ca : Idx) (s : State) : Host.Outcome State Fault Refusal :=
  command (.rone rd ca) [s.checkHostCtx ca] [] []
    (fun s => s.bindRing rd ca .coefficient (s.cfg.r1 :: List.replicate (s.degree ca - 1) 0)) s

/-- RCOPY: clone (43 R328). -/
def execRcopy (rd ra : Idx) (s : State) : Host.Outcome State Fault Refusal :=
  command (.rcopy rd ra) [s.checkBound ra] [] []
    (fun s => s.bindRing rd (s.re.get ra).ctx (s.re.get ra).st (s.ringData ra)) s

/-- RFREE: destroy an element (43 R329). -/
def execRfree (rd : Idx) (s : State) : Host.Outcome State Fault Refusal :=
  command (.rfree rd) [s.checkBound rd] [] [] (fun s => s.unbindRing rd) s

/-- RTONTT: the transition to Ntt; no change if already there (43 R330). -/
def execRtontt (rd : Idx) (s : State) : Host.Outcome State Fault Refusal :=
  command (.rtontt rd) [s.checkBound rd] [] [] (fun s => s.putData rd .ntt (s.nttView rd)) s

/-- RTOCOEF: the transition to Coefficient; no change if already there (43 R331). -/
def execRtocoef (rd : Idx) (s : State) : Host.Outcome State Fault Refusal :=
  command (.rtocoef rd) [s.checkBound rd] [] [] (fun s => s.putData rd .coefficient (s.coefView rd)) s

/-- RADD: the elementwise sum in the common state (43 R332). -/
def execRadd (rd ra rb : Idx) (s : State) : Host.Outcome State Fault Refusal :=
  command (.radd rd ra rb) (s.checksPair ra rb) [] []
    (fun s => s.bindRing rd (s.re.get ra).ctx (s.commonRep ra rb)
      (List.zipWith (Machine.fadd s.cfg) (s.addend ra rb ra) (s.addend ra rb rb))) s

/-- RSUB: the elementwise difference ra − rb in the common state (43 R333). -/
def execRsub (rd ra rb : Idx) (s : State) : Host.Outcome State Fault Refusal :=
  command (.rsub rd ra rb) (s.checksPair ra rb) [] []
    (fun s => s.bindRing rd (s.re.get ra).ctx (s.commonRep ra rb)
      (List.zipWith (Machine.fsub s.cfg) (s.addend ra rb ra) (s.addend ra rb rb))) s

/-- RMUL: the pointwise product of the transforms, in Ntt state (43 R334). -/
def execRmul (rd ra rb : Idx) (s : State) : Host.Outcome State Fault Refusal :=
  command (.rmul rd ra rb) (s.checksPair ra rb) [] []
    (fun s => s.bindRing rd (s.re.get ra).ctx .ntt
      (List.zipWith (Machine.fmul s.cfg) (s.nttView ra) (s.nttView rb))) s

/-- RNEG: elementwise negation, the state preserved (43 R335). -/
def execRneg (rd ra : Idx) (s : State) : Host.Outcome State Fault Refusal :=
  command (.rneg rd ra) [s.checkBound ra] [] []
    (fun s => s.bindRing rd (s.re.get ra).ctx (s.re.get ra).st ((s.ringData ra).map (Machine.fneg s.cfg))) s

/-- RSCALE: elementwise product with the scalar W[wb], the state preserved (43 R336). -/
def execRscale (rd ra wb : Idx) (s : State) : Host.Outcome State Fault Refusal :=
  command (.rscale rd ra wb) [s.checkBound ra] [wb] [s.checkCanonical wb]
    (fun s => s.bindRing rd (s.re.get ra).ctx (s.re.get ra).st
      ((s.ringData ra).map (fun x => Machine.fmul s.cfg x (s.readW wb)))) s

/-- REQ: VEQ <- the coefficient views agree, and 0 across context identities (43 R337). -/
def execReq (ra rb : Idx) (s : State) : Host.Outcome State Fault Refusal :=
  command (.req ra rb) [s.checkBound ra, s.checkBound rb] [] []
    (fun s => s.setVEQ (decide ((s.re.get ra).cid = (s.re.get rb).cid) && decide (s.coefView ra = s.coefView rb))) s

/-- RGETC: the coefficient-only accessor (43 R338). -/
def execRgetc (wd ra : Idx) (idx : Imm12) (s : State) : Host.Outcome State Fault Refusal :=
  command (.rgetc wd ra idx)
    [s.checkBound ra, s.checkRep ra .coefficient, ⟨decide (s.ringDegree ra ≤ idx.toNat), .indexRange⟩] [] []
    (fun s => s.writeW wd ((s.re.get ra).data.getD idx.toNat 0)) s

/-- RGETN: the NTT-only accessor (43 R339). -/
def execRgetn (wd ra : Idx) (idx : Imm12) (s : State) : Host.Outcome State Fault Refusal :=
  command (.rgetn wd ra idx)
    [s.checkBound ra, s.checkRep ra .ntt, ⟨decide (s.ringDegree ra ≤ idx.toNat), .indexRange⟩] [] []
    (fun s => s.writeW wd ((s.re.get ra).data.getD idx.toNat 0)) s

end Sys2Proof.Machine
end

