-- ==== Sys2Proof/Machine/System.lean ====
section
/-! DEFINITION. The meaning of NOP (spec 44 R401). -/
namespace Sys2Proof.Machine

/-- NOP: no state change but the counter (44 R401). -/
def execNop (s : State) : Host.Outcome State Fault Refusal := command .nop [] [] [] (fun s => s) s

end Sys2Proof.Machine
end

