-- ==== Sys2Proof/Machine/Dispatch.lean ====
section
/-! DEFINITION. The dispatch: one arm per command of the opcode map (spec 30 R126). -/
namespace Sys2Proof.Machine

def exec (i : Instr) (s : State) : Host.Outcome State Fault Refusal :=
  match i with
  | .nop => Sys2Proof.Machine.execNop s
  | .cfgw sel wa => Sys2Proof.Machine.execCfgw sel wa s
  | .cfgr wd sel => Sys2Proof.Machine.execCfgr wd sel s
  | .cfgcommit => Sys2Proof.Machine.execCfgcommit s
  | .cfginv => Sys2Proof.Machine.execCfginv s
  | .wadd wd wa wb => Sys2Proof.Machine.execWadd wd wa wb s
  | .wsub wd wa wb => Sys2Proof.Machine.execWsub wd wa wb s
  | .wcmp wa wb => Sys2Proof.Machine.execWcmp wa wb s
  | .wsel wd wa wb => Sys2Proof.Machine.execWsel wd wa wb s
  | .wmul wlo wa wb whi => Sys2Proof.Machine.execWmul wlo wa wb whi s
  | .wli wd imm => Sys2Proof.Machine.execWli wd imm s
  | .wmov wd wa => Sys2Proof.Machine.execWmov wd wa s
  | .fenc wd wa => Sys2Proof.Machine.execFenc wd wa s
  | .fdec wd wa => Sys2Proof.Machine.execFdec wd wa s
  | .fadd wd wa wb => Sys2Proof.Machine.execFadd wd wa wb s
  | .fsub wd wa wb => Sys2Proof.Machine.execFsub wd wa wb s
  | .fmul wd wa wb => Sys2Proof.Machine.execFmul wd wa wb s
  | .fneg wd wa => Sys2Proof.Machine.execFneg wd wa s
  | .feq wa wb => Sys2Proof.Machine.execFeq wa wb s
  | .fzero wd => Sys2Proof.Machine.execFzero wd s
  | .fone wd => Sys2Proof.Machine.execFone wd s
  | .sclr => Sys2Proof.Machine.execSclr s
  | .spush wa => Sys2Proof.Machine.execSpush wa s
  | .sget wd idx => Sys2Proof.Machine.execSget wd idx s
  | .sntt ca => Sys2Proof.Machine.execSntt ca s
  | .sintt ca => Sys2Proof.Machine.execSintt ca s
  | .ctxnew cd logn => Sys2Proof.Machine.execCtxnew cd logn s
  | .ctxrel cd => Sys2Proof.Machine.execCtxrel cd s
  | .rfromc rd ca => Sys2Proof.Machine.execRfromc rd ca s
  | .rfromn rd ca => Sys2Proof.Machine.execRfromn rd ca s
  | .rzero rd ca => Sys2Proof.Machine.execRzero rd ca s
  | .rone rd ca => Sys2Proof.Machine.execRone rd ca s
  | .rcopy rd ra => Sys2Proof.Machine.execRcopy rd ra s
  | .rfree rd => Sys2Proof.Machine.execRfree rd s
  | .rtontt rd => Sys2Proof.Machine.execRtontt rd s
  | .rtocoef rd => Sys2Proof.Machine.execRtocoef rd s
  | .radd rd ra rb => Sys2Proof.Machine.execRadd rd ra rb s
  | .rsub rd ra rb => Sys2Proof.Machine.execRsub rd ra rb s
  | .rmul rd ra rb => Sys2Proof.Machine.execRmul rd ra rb s
  | .rneg rd ra => Sys2Proof.Machine.execRneg rd ra s
  | .rscale rd ra wb => Sys2Proof.Machine.execRscale rd ra wb s
  | .req ra rb => Sys2Proof.Machine.execReq ra rb s
  | .rgetc wd ra idx => Sys2Proof.Machine.execRgetc wd ra idx s
  | .rgetn wd ra idx => Sys2Proof.Machine.execRgetn wd ra idx s

end Sys2Proof.Machine
end

