-- ==== Sys2Proof/Machine/Engine.lean ====
section
/-! DEFINITION. The command engine (spec 44 R400) and the service of one event of the host side: what one step of LMC is.
Step.lean only calls `serve`. -/
namespace Sys2Proof.Machine

/-- A CMD value that decodes to nothing: ILLEGAL_COMMAND, with the whole 64-bit value recorded (60 R411, R412). -/
def illegalCommand (v : BitVec 64) (s : State) : Host.Outcome State Fault Refusal :=
  .next (s.recordFault .illegalCommand v)

/-- `execute_command(v)`: dropped while FAULT = 1, else decoded and executed (44 R400, 60 R415). -/
def executeCommand (v : BitVec 64) (s : State) : Host.Outcome State Fault Refusal :=
  if s.status.fault then .next { s with status := { s.status with drop := true } }
  else match decode s.params v with
    | .error _ => illegalCommand v s
    | .ok i => exec i s

/-- A host write of `width` bytes at `addr`: to CMD it runs the engine before it completes (20 R92, R96). -/
def busWrite (addr width : Nat) (v : Limb) (s : State) : Host.Outcome State Fault Refusal :=
  if inAperture s.params addr = false then .next (s.answer none)
  else if s.rstn = false then .next s.ignoreInReset
  else if accessOk (addr - s.params.base) width = false then .next (s.busError.answer (some ⟨true, none⟩))
  else match regAt s.params (addr - s.params.base) with
    | .cmd => executeCommand v (s.answer (some ⟨false, none⟩))
    | reg => .next ((s.writeReg v reg).answer (some ⟨false, none⟩))

/-- One event of the host side. -/
def handle (e : HostEvent) (s : State) : Host.Outcome State Fault Refusal :=
  match e with
  | .read addr width => .next (busRead addr width s)
  | .write addr width v => busWrite addr width v s
  | .rstn level => .next (s.driveReset level)

/-- The next event of the host side takes full effect (20 R94). With none left the engine is idle, with all state retained
(44 R400, 60 R427; log 6). -/
def serve (s : State) : Host.Outcome State Fault Refusal :=
  match s.host with
  | [] => .next s
  | e :: rest => handle e { s with host := rest }

/-- The host's next access is a CMD write of `v` (30 R120). -/
def State.placeCommand (s : State) (v : BitVec 64) : State :=
  { s with host := .write (s.params.base + 0x028) 8 v :: s.host }

end Sys2Proof.Machine
end

