-- ==== Sys2Proof/Machine/Step.lean ====
section
/-! DEFINITION. One step of the machine: the next event of the host side (spec 20 R94), and the placing of a command word
where the next step takes it from. -/
namespace Sys2Proof.Machine

/-- One step: the next access of the host, or the next level of rst_n, takes its full effect; with none left the machine
idles. -/
def step (s : State) : Host.Outcome State Fault Refusal := Sys2Proof.Machine.serve s

/-- `s` with a CMD write of the instruction whose bits are `w` as the host's next access. A command is one 32-bit word, the
rest of the 64-bit CMD value is 0 (30 R120); bits of `w` at and above `nbits` are dropped. -/
def State.withFetchWord (s : State) (nbits w : Nat) : State := s.placeCommand (BitVec.ofNat 64 (w % 2 ^ nbits))

end Sys2Proof.Machine
end

