-- ==== Sys2Proof/Safety.lean ====
section
/-! DEFINITION. What a safe state and a clean run of LMC are (spec 10 R56, 70 R471), and the terms in which claims are stated:
faulting, the frames of commands that write W registers or bind a ring slot, and the spec's own arithmetic (00 R14, R16; 40 R161,
R162). -/
namespace Sys2Proof.Machine

/-! ## The invariant -/

/-- The number of bound ring slots that reference context slot `c`: the set of 10 R56 item 1. -/
def State.refs (s : State) (c : Idx) : Nat :=
  ((List.range 16).filter fun r =>
    (s.re.get (BitVec.ofNat 4 r)).bound && decide ((s.re.get (BitVec.ofNat 4 r)).ctx = c)).length

/-- The context's data are those that 42 R261 to R263 give for its log-degree under the configuration `cfg`. -/
def Ctx.BuiltFrom (cfg : FieldCfg) (x : Ctx) : Prop :=
  x.psi = BitVec.ofNat 1024 (psiOf cfg x.logn.toNat) ∧ x.zeta = zetaTable cfg x.logn.toNat ∧
  x.zetainv = zetainvTable cfg x.logn.toNat ∧ x.ninv = ninvOf cfg x.logn.toNat

/-- The bookkeeping of a freed slot (42 R273). -/
def Ctx.IsFree (x : Ctx) : Prop := x.valid = false ∧ x.hostref = false ∧ x.refcnt = 0 ∧ x.cid = 0 ∧ x.logn = 0

/-- The bookkeeping of an unbound slot (43 R329). -/
def Ring.IsUnbound (x : Ring) : Prop := x.bound = false ∧ x.ctx = 0 ∧ x.cid = 0 ∧ x.st = .coefficient

/-- What every command and every access keeps: the six items of 10 R56, and what they rest on. -/
structure State.Inv (s : State) : Prop where
  /-- 00 R9: the parameters are in their legal ranges. -/
  legal : s.params.legal = true
  /-- R56 item 1. -/
  refcounts : ∀ c : Idx, (s.cx.get c).refcnt.toNat = s.refs c
  /-- R56 item 2. -/
  bound_ctx : ∀ r : Idx, (s.re.get r).bound = true →
    (s.cx.get (s.re.get r).ctx).valid = true ∧ (s.re.get r).cid = (s.cx.get (s.re.get r).ctx).cid
  /-- R56 item 3. -/
  held : ∀ c : Idx, (s.cx.get c).valid = true → (s.cx.get c).hostref = true ∨ 1 ≤ (s.cx.get c).refcnt.toNat
  /-- R56 item 4. -/
  configured : ∀ c : Idx, (s.cx.get c).valid = true → s.status.cfgv = true
  /-- R56 item 5. -/
  data_canonical : ∀ r : Idx, (s.re.get r).bound = true → ∀ x ∈ s.ringData r, x.toNat < s.cfg.q.toNat
  /-- R56 item 6, first half. -/
  cids_distinct : ∀ c c' : Idx, (s.cx.get c).valid = true → (s.cx.get c').valid = true →
    (s.cx.get c).cid = (s.cx.get c').cid → c = c'
  /-- R56 item 6, second half; and CID 0 names no context (10 R52). -/
  cids_given : ∀ c : Idx, (s.cx.get c).valid = true →
    0 < (s.cx.get c).cid.toNat ∧ (s.cx.get c).cid.toNat < s.nextCid.toNat
  /-- 10 R52: the counter starts at 1 and only grows. -/
  nextCid_pos : 0 < s.nextCid.toNat
  /-- 41 R209, R207: a committed configuration is a legal one. -/
  committed : s.status.cfgv = true → cfgOk s.cfg = true
  /-- 42 R264: the data of a valid context are those its construction gave it. -/
  built : ∀ c : Idx, (s.cx.get c).valid = true → (s.cx.get c).BuiltFrom s.cfg
  /-- 42 R260, R271: the log-degree is supported, and the root data has a root for it. -/
  degrees : ∀ c : Idx, (s.cx.get c).valid = true →
    s.logDegree c ≤ s.params.lognmax ∧ s.logDegree c + 1 ≤ s.cfg.s.toNat
  /-- 10 R51: a slot that is not valid is cleared. -/
  free_ctx : ∀ c : Idx, (s.cx.get c).valid = false → (s.cx.get c).IsFree
  /-- 43 R329: a slot that is not bound is cleared. -/
  free_ring : ∀ r : Idx, (s.re.get r).bound = false → (s.re.get r).IsUnbound
  /-- 10 R51: only slots below NCTX exist. -/
  ctx_exists : ∀ c : Idx, (s.cx.get c).valid = true → c.toNat < s.params.nctx
  /-- 10 R53: only slots below NRING exist. -/
  ring_exists : ∀ r : Idx, (s.re.get r).bound = true → r.toNat < s.params.nring
  /-- 10 R53: DATA has NMAX entries. -/
  data_length : ∀ r : Idx, (s.re.get r).data.length = s.params.nmax
  /-- 10 R54: STAGE has NMAX entries. -/
  stage_length : s.stage.length = s.params.nmax
  /-- 10 R46. -/
  slen_le : s.slen ≤ s.params.nmax
  /-- 10 R39: "It is 0x00 while FAULT = 0", and a fault has a code (60 R411). -/
  err_iff : s.status.err = .none ↔ s.status.fault = false

/-! ## Runs -/

/-- The state is clean: no command fault stands, and no read of an unwritten W limb has been recorded (70 R465, R471). -/
def State.clean (s : State) : Bool := !s.status.fault && !s.programFault

/-- `k` steps from `s` that end in `t`, every state on the way clean: the run whose results a claim may use (70 R471). -/
def CleanRun : Nat → State → State → Prop
  | 0, s, t => s.clean = true ∧ t = s
  | k + 1, s, t => s.clean = true ∧ ∃ u, step s = .next u ∧ CleanRun k u t

/-! ## Faults and frames -/

/-- One of the W registers `rs` has a limb that nothing has written since reset (10 R32). -/
def State.readsUnwritten (s : State) (rs : List Idx) : Bool := rs.any fun i => !s.isWritten i

/-- Command `i` faults with `code` in `s`: the fault record is written and nothing else changes (60 R412), but for the
model's own record of the W registers `rs` it had read (93 I1; log 15). -/
def Faults (i : Instr) (s : State) (code : ErrCode) (rs : List Idx) : Prop :=
  exec i s = .next { s with
    status := { s.status with fault := true, err := code }
    faultcmd := i.cmdValue
    faultseq := s.cmdcount
    programFault := s.programFault || s.readsUnwritten rs }

/-- `t` is `s` after a command that read the W registers `rs`, wrote all limbs of the W registers `ds` and no other, left the
flags at `fl`, and counted; nothing else differs. -/
structure WritesW (s t : State) (ds rs : List Idx) (fl : Flags) : Prop where
  dests : ∀ d ∈ ds, t.isWritten d = true
  others : ∀ i, i ∉ ds → t.w.get i = s.w.get i ∧ t.written.get i = s.written.get i
  frame : t = { s with
    w := t.w
    written := t.written
    flags := fl
    cmdcount := s.cmdcount + 1
    programFault := s.programFault || s.readsUnwritten rs }

/-- `y` is context slot `x` after one release (42 R274). -/
def Released (x y : Ctx) : Prop :=
  if x.refcnt = 1 ∧ x.hostref = false then y.IsFree else y = { x with refcnt := x.refcnt - 1 }

/-- `t` is `s` after a command that bound ring slot `rd` to context slot `c`, in state `st` with the elements `d`, having read the
W registers `rs` (43 R322): the other ring slots, and every context slot but the new one and the one let go, are unchanged; so is
everything else. -/
structure Binds (s t : State) (rd c : Idx) (st : Rep) (d : List Word) (rs : List Idx) : Prop where
  slot : t.re.get rd =
    { bound := true, ctx := c, cid := (s.cx.get c).cid, st := st, data := d ++ (s.re.get rd).data.drop d.length }
  slots : ∀ r, r ≠ rd → t.re.get r = s.re.get r
  same : (s.re.get rd).bound = true → (s.re.get rd).ctx = c → t.cx = s.cx
  acquired : ¬((s.re.get rd).bound = true ∧ (s.re.get rd).ctx = c) →
    t.cx.get c = { s.cx.get c with refcnt := (s.cx.get c).refcnt + 1 }
  released : (s.re.get rd).bound = true → (s.re.get rd).ctx ≠ c →
    Released (s.cx.get (s.re.get rd).ctx) (t.cx.get (s.re.get rd).ctx)
  others : ∀ c', c' ≠ c → ¬((s.re.get rd).bound = true ∧ (s.re.get rd).ctx = c') → t.cx.get c' = s.cx.get c'
  frame : t = { s with
    re := t.re
    cx := t.cx
    draws := t.draws
    cmdcount := s.cmdcount + 1
    programFault := s.programFault || s.readsUnwritten rs }

/-- Every piece of state holds the value of 10 R57; what that rule leaves unspecified is unconstrained, but for the W limbs, of
which none has been written. -/
structure AtReset (t : State) : Prop where
  written : ∀ i : Idx, t.written.get i = 0
  flags : t.flags = { cf := false, lt := false, eq := false, gt := false, veq := false }
  cmdcount : t.cmdcount = 0
  status : t.status = { fault := false, drop := false, buserr := false, cfgv := false, err := .none }
  irqen : t.irqen = false
  faultcmd : t.faultcmd = 0
  faultseq : t.faultseq = 0
  cfg : t.cfg = { q := 0, r1 := 0, r2 := 0, qprime := 0, root := 0, s := 0 }
  contexts : ∀ c : Idx, (t.cx.get c).IsFree
  nextCid : t.nextCid = 1
  rings : ∀ r : Idx, (t.re.get r).IsUnbound
  slen : t.slen = 0
  irq : t.irq = false

/-- The condition of a ring slot: `none` is Unbound (43 R320). -/
def Ring.condition (x : Ring) : Option Rep := if x.bound then some x.st else none

/-- 43 R340: the ring slot that a successful command writes, and that slot's condition afterwards. -/
def State.ringOutcome (s : State) : Instr → Option (Idx × Option Rep)
  | .rfromc rd _ => some (rd, some .coefficient)
  | .rfromn rd _ => some (rd, some .ntt)
  | .rzero rd _ => some (rd, some .coefficient)
  | .rone rd _ => some (rd, some .coefficient)
  | .rcopy rd ra => some (rd, some (s.re.get ra).st)
  | .rfree rd => some (rd, none)
  | .rtontt rd => some (rd, some .ntt)
  | .rtocoef rd => some (rd, some .coefficient)
  | .radd rd ra rb => some (rd, some (if (s.re.get ra).st = (s.re.get rb).st then (s.re.get ra).st else .coefficient))
  | .rsub rd ra rb => some (rd, some (if (s.re.get ra).st = (s.re.get rb).st then (s.re.get ra).st else .coefficient))
  | .rmul rd _ _ => some (rd, some .ntt)
  | .rneg rd ra => some (rd, some (s.re.get ra).st)
  | .rscale rd ra _ => some (rd, some (s.re.get ra).st)
  | .req _ _ | .rgetc _ _ _ | .rgetn _ _ _ => none
  | .nop | .cfgw _ _ | .cfgr _ _ | .cfgcommit | .cfginv => none
  | .wadd _ _ _ | .wsub _ _ _ | .wcmp _ _ | .wsel _ _ _ | .wmul _ _ _ _ | .wli _ _ | .wmov _ _ => none
  | .fenc _ _ | .fdec _ _ | .fadd _ _ _ | .fsub _ _ _ | .fmul _ _ _ | .fneg _ _ | .feq _ _ | .fzero _ | .fone _ => none
  | .sclr | .spush _ | .sget _ _ | .sntt _ | .sintt _ | .ctxnew _ _ | .ctxrel _ => none

/-! ## The spec's arithmetic -/

/-- limb k as an unsigned integer. -/
def limbNat (v : Word) (k : Nat) : Nat := (limb v k).toNat

/-- c_k of the limbwise addition (40 R161). -/
def carryAt (a b : Word) : Nat → Nat
  | 0 => 0
  | k + 1 => (limbNat a k + limbNat b k + carryAt a b k) / 2 ^ 64

/-- limb k of the sum (40 R161). -/
def sumLimb (a b : Word) (k : Nat) : Limb := BitVec.ofNat 64 ((limbNat a k + limbNat b k + carryAt a b k) % 2 ^ 64)

/-- t_k of the limbwise subtraction, given β_k (40 R162). -/
def diffAt (a b : Word) (k : Nat) (β : Nat) : Int := (limbNat a k : Int) - (limbNat b k : Int) - (β : Int)

/-- β_k of the limbwise subtraction (40 R162). -/
def borrowAt (a b : Word) : Nat → Nat
  | 0 => 0
  | k + 1 => if diffAt a b k (borrowAt a b k) < 0 then 1 else 0

/-- limb k of the difference (40 R162). -/
def diffLimb (a b : Word) (k : Nat) : Limb := BitVec.ofInt 64 (diffAt a b k (borrowAt a b k) % 2 ^ 64)

/-- R⁻¹ mod q for odd q: the power 1024 of (q + 1)/2, which is the inverse of 2. -/
def radixInv (q : Nat) : Nat := ((q + 1) / 2) ^ 1024 % q

/-- dec(a) = (a · R⁻¹) mod q (00 R14). -/
def decNat (q a : Nat) : Nat := a * radixInv q % q

/-- ζ_i = ψ^(2·brv_b(i) + 1) mod q (42 R268). -/
def evalPoint (q ψ b i : Nat) : Nat := ψ ^ (2 * brv b i + 1) % q

/-- The polynomial with coefficients `a` evaluated at `x`, modulo `q`: Σ_j a[j] · x^j mod q (42 R268). -/
def evalAt (q x : Nat) (a : List Nat) : Nat := (∑ j ∈ Finset.range a.length, a.getD j 0 * x ^ j) % q

/-- The stored representatives of a sequence. -/
def reprs (a : List Word) : List Nat := a.map BitVec.toNat

/-- The values of a sequence of representatives (00 R14). -/
def values (q : Nat) (a : List Word) : List Nat := a.map fun x => decNat q x.toNat

/-- c_k of the negacyclic product a ⋆ b of two sequences of length `n` (00 R16). -/
def negacyclicAt (q n : Nat) (a b : List Nat) (k : Nat) : Int :=
  (∑ i ∈ Finset.range n, ∑ j ∈ Finset.range n,
    if i + j = k then ((a.getD i 0 * b.getD j 0 : Nat) : Int)
    else if i + j = k + n then -((a.getD i 0 * b.getD j 0 : Nat) : Int) else 0) % (q : Int)

end Sys2Proof.Machine
end

