-- ==== Sys2Proof/Certificates/Slice0/Obligations.lean ====
section
/-! DEFINITION. The statements for the provers: encoding, the command engine and the MMIO registers, reset, the rules of the whole
machine, the arithmetic, and every instruction's effect, faults and frame. -/

section Slice0
open Sys2Proof Sys2Proof.Machine

/-! ## Encoding -/

/-- 30 R129, R121, R122, R126: decoding the CMD value of a well-formed instruction gives that instruction, with every operand at
every value the parameters admit. -/
def Obligations.DecodeOfEncode : Prop :=
  ∀ (p : Params) (i : Instr), i.wf p = true → decode p i.cmdValue = .ok i

/-- 30 R123: an accepted CMD value has one meaning, a well-formed one, and is the only CMD value with that meaning; a command
with a must-be-zero bit set faults ILLEGAL_COMMAND. -/
def Obligations.AcceptedWordsAreUnique : Prop :=
  (∀ (p : Params) (v : BitVec 64) (i : Instr), decode p v = .ok i → i.wf p = true ∧ v = i.cmdValue) ∧
  (∀ (s : State) (f : Fields) (r : Row), s.status.fault = false → rowOf f.opc = some r → r.fmt.unusedZero f = false →
    let v : BitVec 64 := (0 : BitVec 32) ++ pack f.opc f.d f.a f.b f.imm
    executeCommand v s = .next { s with
      status := { s.status with fault := true, err := .illegalCommand }, faultcmd := v, faultseq := s.cmdcount })

/-- 30 R127: every operation code outside the opcode map faults ILLEGAL_COMMAND when executed. -/
def Obligations.ReservedOpcodesFault : Prop :=
  ∀ (s : State) (v : BitVec 64), s.status.fault = false →
    let op := (v.extractLsb' 24 8).toNat
    (0x05 ≤ op ∧ op ≤ 0x0F ∨ 0x17 ≤ op ∧ op ≤ 0x1F ∨ 0x29 ≤ op ∧ op ≤ 0x2F ∨ 0x35 ≤ op ∧ op ≤ 0x37 ∨
      0x3A ≤ op ∧ op ≤ 0x3F ∨ 0x50 ≤ op ∧ op ≤ 0xFF) →
    executeCommand v s = .next { s with
      status := { s.status with fault := true, err := .illegalCommand }, faultcmd := v, faultseq := s.cmdcount }

/-- 30 R120, R124, R128, R133: a nonzero upper half, an operand index at or above its file's count, a WMUL with D = E and a
configuration selector above 5 each fault ILLEGAL_COMMAND. -/
def Obligations.IllegalCommandForms : Prop :=
  ∀ (s : State) (v : BitVec 64), s.status.fault = false →
    (v.extractLsb' 32 32 ≠ 0 ∨ (∃ i : Instr, i.wf s.params = false ∧ v = i.cmdValue) ∨
      (((v.extractLsb' 24 8).toNat = 0x01 ∨ (v.extractLsb' 24 8).toNat = 0x02) ∧ 5 < (v.extractLsb' 0 12).toNat)) →
    executeCommand v s = .next { s with
      status := { s.status with fault := true, err := .illegalCommand }, faultcmd := v, faultseq := s.cmdcount }

/-- The words that 30 R130 and R131 spell out, under the default parameters. -/
def Obligations.SampleWordsDecode : Prop :=
  decode Params.default 0x10312000 = .ok (.wadd 3 1 2) ∧
  decode Params.default 0x14412500 = .ok (.wmul 4 1 2 5) ∧
  decode Params.default 0x4E100007 = .ok (.rgetc 1 0 7) ∧
  decode Params.default 0x38000003 = .ok (.ctxnew 0 3) ∧
  decode Params.default 0x01010000 = .ok (.cfgw .q 1) ∧
  decode Params.default 0x02200003 = .ok (.cfgr 2 .qprime) ∧
  decode Params.default 0x00000000 = .ok .nop

/-! ## The command engine -/

/-- 44 R400, 20 R92: a CMD write whose value decodes runs that instruction before anything else happens. The step adds only the
taking of the access from the host's list and the bus answer (the model's own fields, log 5, 7). -/
def Obligations.StepRunsDecodedCommand : Prop :=
  ∀ (s : State) (v : BitVec 64) (rest : List HostEvent) (i : Instr),
    s.rstn = true → s.status.fault = false → s.host = .write (s.params.base + 0x028) 8 v :: rest →
    decode s.params v = .ok i → i.wf s.params = true →
    step s = exec i { s with host := rest, reply := some { error := false, data := none } }

/-- 44 R400, 60 R412, R415: a CMD write while FAULT = 1 only sets DROP; one that decodes to nothing records ILLEGAL_COMMAND with
the whole 64-bit value. -/
def Obligations.StepDropsOrRecordsCmdWrites : Prop :=
  ∀ (s : State) (v : BitVec 64) (rest : List HostEvent),
    s.rstn = true → s.host = .write (s.params.base + 0x028) 8 v :: rest →
    (s.status.fault = true →
      step s = .next { s with
        host := rest, reply := some { error := false, data := none }, status := { s.status with drop := true } }) ∧
    (s.status.fault = false → (∃ e, decode s.params v = .error e) →
      step s = .next { s with
        host := rest, reply := some { error := false, data := none }
        status := { s.status with fault := true, err := .illegalCommand }, faultcmd := v, faultseq := s.cmdcount })

/-- 60 R413: every command either faults with none of its effects, or completes; it counts exactly when it completes, and a
completing command touches neither the fault record nor the bus. It never stops the machine. -/
def Obligations.CommandCompletesOrFaultsWhole : Prop :=
  ∀ (i : Instr) (s : State),
    (∃ code rs, code ≠ .none ∧ Faults i s code rs) ∨
    (∃ t, exec i s = .next t ∧ t.cmdcount = s.cmdcount + 1 ∧ t.status = { s.status with cfgv := t.status.cfgv } ∧
      t.faultcmd = s.faultcmd ∧ t.faultseq = s.faultseq ∧ t.irqen = s.irqen ∧ t.params = s.params ∧ t.rstn = s.rstn ∧
      t.host = s.host ∧ t.reply = s.reply)

/-- 60 R427, 20 R81: with no access the engine idles with all state retained; an access outside the aperture does not reach LMC.
That such an access leaves the answer empty is the model's choice (log 6, 19). -/
def Obligations.IdleAndForeignAccessesChangeNothing : Prop :=
  (∀ s : State, s.host = [] → step s = .next s) ∧
  (∀ (s : State) (addr width : Nat) (v : Limb) (rest : List HostEvent),
    (addr < s.params.base ∨ s.params.base + 0x2000 ≤ addr) →
    (s.host = .read addr width :: rest ∨ s.host = .write addr width v :: rest) →
    step s = .next { s with host := rest, reply := none })

/-! ## MMIO -/

/-- 20 R90, R95: an aligned 64-bit read returns the register's value and changes nothing. (The model's own record of a read of
an unwritten W limb is the one exception, log 1.) -/
def Obligations.ReadsReturnTheRegister : Prop :=
  ∀ (s : State) (off : Nat) (rest : List HostEvent),
    s.rstn = true → off < 0x2000 → off % 8 = 0 → s.host = .read (s.params.base + off) 8 :: rest →
    ∃ b : Bool, (b = true → ∃ i k, regAt s.params off = .wlimb i k ∧ (s.written.get i).getLsbD k = false) ∧
      step s = .next { s with
        host := rest
        reply := some { error := false, data := some (s.readReg (regAt s.params off)) }
        programFault := s.programFault || b }

/-- 10 R33 to R49, 20 R82: what each register of the aperture but the W limbs (those are WWindow's) reads as, bit by bit, in
every state with the invariant; STATUS.ERR by the code bytes of 60 R411. -/
def Obligations.RegisterValues : Prop :=
  ∀ s : State, s.Inv →
    let rd := fun off => s.readReg (regAt s.params off)
    rd 0x000 = 0x4C4D430000070001 ∧
    ((rd 0x008).extractLsb' 0 8).toNat = s.params.nw ∧ ((rd 0x008).extractLsb' 8 8).toNat = s.params.nring ∧
    ((rd 0x008).extractLsb' 16 8).toNat = s.params.nctx ∧ ((rd 0x008).extractLsb' 24 8).toNat = s.params.lognmax ∧
    (rd 0x008).extractLsb' 32 32 = 0 ∧
    (∀ k < 64, (rd 0x010).getLsbD k = (decide (k = 0) && s.irqen)) ∧
    (∀ k < 64, (rd 0x018).getLsbD k =
      if k = 0 then s.status.fault else if k = 1 then s.status.drop else if k = 2 then s.status.buserr
      else if k = 3 then s.status.cfgv else if 8 ≤ k ∧ k < 16 then s.status.err.code.getLsbD (k - 8) else false) ∧
    (ErrCode.none.code = 0x00 ∧ ErrCode.illegalCommand.code = 0x01 ∧ ErrCode.configurationMismatch.code = 0x02 ∧
      ErrCode.invalidState.code = 0x03 ∧ ErrCode.constructionError.code = 0x04 ∧ ErrCode.notConfigured.code = 0x05 ∧
      ErrCode.invalidHandle.code = 0x06 ∧ ErrCode.nonCanonical.code = 0x07 ∧ ErrCode.indexRange.code = 0x08 ∧
      ErrCode.lengthMismatch.code = 0x09 ∧ ErrCode.stagingOverflow.code = 0x0A ∧ ErrCode.configInvalid.code = 0x0B ∧
      ErrCode.resourceBusy.code = 0x0C) ∧
    (∀ k < 64, (rd 0x020).getLsbD k =
      if k = 0 then s.flags.cf else if k = 1 then s.flags.lt else if k = 2 then s.flags.eq
      else if k = 3 then s.flags.gt else if k = 4 then s.flags.veq else false) ∧
    rd 0x028 = 0 ∧ rd 0x030 = s.cmdcount ∧ rd 0x038 = s.faultcmd ∧ rd 0x040 = s.faultseq ∧
    (rd 0x048).toNat = s.slen ∧ rd 0x050 = s.nextCid ∧
    (∀ c : Idx, c.toNat < s.params.nctx →
      (∀ k < 64, (rd (0x100 + 16 * c.toNat)).getLsbD k =
        if k = 0 then (s.cx.get c).valid else if k = 1 then (s.cx.get c).hostref
        else if 8 ≤ k ∧ k < 16 then (s.cx.get c).logn.getLsbD (k - 8)
        else if 16 ≤ k ∧ k < 32 then (s.cx.get c).refcnt.getLsbD (k - 16) else false) ∧
      rd (0x108 + 16 * c.toNat) = (s.cx.get c).cid) ∧
    (∀ c : Idx, (s.params.nctx ≤ c.toNat ∨ (s.cx.get c).valid = false) →
      rd (0x100 + 16 * c.toNat) = 0 ∧ rd (0x108 + 16 * c.toNat) = 0) ∧
    (∀ r : Idx, r.toNat < s.params.nring →
      (∀ k < 64, (rd (0x200 + 16 * r.toNat)).getLsbD k =
        if k = 0 then (s.re.get r).bound else if k = 1 then decide ((s.re.get r).st = .ntt)
        else if 8 ≤ k ∧ k < 12 then (s.re.get r).ctx.getLsbD (k - 8) else false) ∧
      rd (0x208 + 16 * r.toNat) = (s.re.get r).cid) ∧
    (∀ r : Idx, (s.params.nring ≤ r.toNat ∨ (s.re.get r).bound = false) →
      rd (0x200 + 16 * r.toNat) = 0 ∧ rd (0x208 + 16 * r.toNat) = 0)

/-- 20 R83: the W window. A read gives limb k of W[i] (of an unwritten limb a free value, and the model's own record of the
read, log 1), a write replaces it and no other limb, and the offsets of i ≥ NW and those from 0x1800 on are reserved. -/
def Obligations.WWindow : Prop :=
  (∀ (s : State) (i : Idx) (k : Nat) (v : Limb) (rest : List HostEvent), s.rstn = true → i.toNat < s.params.nw → k < 16 →
    s.host = .write (s.params.base + 0x1000 + 0x80 * i.toNat + 8 * k) 8 v :: rest →
    ∃ t, step s = .next t ∧
      t.readLimb i k = v ∧ t.written.get i = s.written.get i ||| (1#16 <<< k) ∧
      (∀ j < 16, j ≠ k → t.readLimb i j = s.readLimb i j) ∧
      (∀ i', i' ≠ i → t.w.get i' = s.w.get i' ∧ t.written.get i' = s.written.get i') ∧
      t = { s with w := t.w, written := t.written, host := rest, reply := some { error := false, data := none } }) ∧
  (∀ (s : State) (i : Idx) (k : Nat) (rest : List HostEvent), s.rstn = true → i.toNat < s.params.nw → k < 16 →
    s.host = .read (s.params.base + 0x1000 + 0x80 * i.toNat + 8 * k) 8 :: rest →
    ((s.written.get i).getLsbD k = true → s.readLimb i k = (s.w.get i).extractLsb' (64 * k) 64) ∧
    step s = .next { s with
      host := rest
      reply := some { error := false, data := some (s.readLimb i k) }
      programFault := s.programFault || !(s.written.get i).getLsbD k }) ∧
  (∀ (p : Params) (off : Nat), p.nw ≤ 16 → 0x1000 + 0x80 * p.nw ≤ off → off < 0x2000 → regAt p off = .reserved)

/-- 20 R84, in the sentence it marks as derived from itself and R83: byte m of the 128 bytes of W[i] in the aperture is bits
[8m+7 : 8m] of W[i]. -/
def Obligations.WByteOrder : Prop :=
  ∀ (s : State) (i : Idx) (m : Nat), i.toNat < s.params.nw → m < 128 → s.isWritten i = true →
    s.apertureByte (0x1000 + 0x80 * i.toNat + m) = (s.w.get i).extractLsb' (8 * m) 8

/-- 20 R88, 60 R420: a misaligned or narrow access answers with an error, reads 0, sets BUSERR, and does nothing else; so no
fault is recorded and IRQ does not move. -/
def Obligations.BusErrors : Prop :=
  ∀ (s : State) (off width : Nat) (v : Limb) (rest : List HostEvent),
    s.rstn = true → off < 0x2000 → ¬(width = 8 ∧ off % 8 = 0) →
    (s.host = .read (s.params.base + off) width :: rest →
      step s = .next { s with
        host := rest, reply := some { error := true, data := some 0 }, status := { s.status with buserr := true } }) ∧
    (s.host = .write (s.params.base + off) width v :: rest →
      step s = .next { s with
        host := rest, reply := some { error := true, data := none }, status := { s.status with buserr := true } })

/-- 20 R89: reserved offsets read 0, and writes to them, to read-only registers and to reserved or read-only bits are ignored.
-/
def Obligations.ReservedAndReadOnlyOffsets : Prop :=
  ∀ (s : State) (off : Nat) (v : Limb) (rest : List HostEvent), s.rstn = true → off < 0x2000 → off % 8 = 0 →
    (0x058 ≤ off ∧ off < 0x100 ∨ 0x300 ≤ off ∧ off < 0x1000 ∨ 0x1000 + 0x80 * s.params.nw ≤ off →
      (s.host = .read (s.params.base + off) 8 :: rest →
        step s = .next { s with host := rest, reply := some { error := false, data := some 0 } }) ∧
      (s.host = .write (s.params.base + off) 8 v :: rest →
        step s = .next { s with host := rest, reply := some { error := false, data := none } })) ∧
    (off = 0x000 ∨ off = 0x008 ∨ 0x030 ≤ off ∧ off ≤ 0x050 ∨ 0x100 ≤ off ∧ off < 0x300 →
      s.host = .write (s.params.base + off) 8 v :: rest →
      step s = .next { s with host := rest, reply := some { error := false, data := none } }) ∧
    s.writeReg v .ctrl = s.writeReg (v &&& 0x3) .ctrl ∧ s.writeReg v .status = s.writeReg (v &&& 0x7) .status ∧
    s.writeReg v .flags = s.writeReg (v &&& 0x1F) .flags

/-- 20 R96; 10 R33, R39, R40; 60 R416: a write to STATUS clears the bits written as 1, and ERR with FAULT, and leaves FAULTCMD
and FAULTSEQ; a write to FLAGS stores the five flags; a write to CTRL without SRST stores IRQEN; 10 R55: IRQ = FAULT and IRQEN.
-/
def Obligations.ControlRegisterWrites : Prop :=
  ∀ (s : State) (v : Limb) (rest : List HostEvent), s.rstn = true →
    (s.host = .write (s.params.base + 0x018) 8 v :: rest →
      step s = .next { s with
        host := rest, reply := some { error := false, data := none }
        status :=
          { fault := s.status.fault && !v.getLsbD 0
            drop := s.status.drop && !v.getLsbD 1
            buserr := s.status.buserr && !v.getLsbD 2
            cfgv := s.status.cfgv
            err := if v.getLsbD 0 then .none else s.status.err } }) ∧
    (s.host = .write (s.params.base + 0x020) 8 v :: rest →
      step s = .next { s with
        host := rest, reply := some { error := false, data := none }
        flags :=
          { cf := v.getLsbD 0, lt := v.getLsbD 1, eq := v.getLsbD 2, gt := v.getLsbD 3, veq := v.getLsbD 4 } }) ∧
    (s.host = .write (s.params.base + 0x010) 8 v :: rest → v.getLsbD 1 = false →
      step s = .next { s with host := rest, reply := some { error := false, data := none }, irqen := v.getLsbD 0 }) ∧
    (s.irq = true ↔ s.status.fault = true ∧ s.irqen = true)

/-! ## Reset -/

/-- 10 R57: the reset state holds the value the spec gives every piece of state; no W limb is written. -/
def Obligations.ResetValues : Prop :=
  AtReset State.reset ∧ State.reset.readReg (regAt State.reset.params 0x000) = 0x4C4D430000070001 ∧
  State.reset.readReg (regAt State.reset.params 0x008) = 0x08040810

/-- 70 R460, R461: the soft reset, and the release of rst_n, put every piece of state at its reset value; while rst_n = 0
accesses change nothing of LMC's and IRQ is 0. That driving rst_n to 0 changes only its level, so that the state is kept until the
release, is the model's choice, on which R460 is silent (log 8); how the bus answers meanwhile is left open (log 8). -/
def Obligations.Resets : Prop :=
  (∀ (s : State) (v : Limb) (rest : List HostEvent), s.rstn = true → v.getLsbD 1 = true →
    s.host = .write (s.params.base + 0x010) 8 v :: rest →
    ∃ t, step s = .next t ∧ AtReset t ∧ t.params = s.params ∧ t.rstn = true ∧ t.host = rest) ∧
  (∀ (s : State) (rest : List HostEvent), s.rstn = false → s.host = .rstn true :: rest →
    ∃ t, step s = .next t ∧ AtReset t ∧ t.params = s.params ∧ t.rstn = true ∧ t.host = rest) ∧
  (∀ (s : State) (rest : List HostEvent), s.host = .rstn false :: rest →
    step s = .next { s with rstn := false, host := rest }) ∧
  (∀ (s : State) (addr width : Nat) (v : Limb) (rest : List HostEvent), s.rstn = false →
    s.host = .read addr width :: rest ∨ s.host = .write addr width v :: rest →
    ∃ r d, step s = .next { s with host := rest, reply := r, draws := d }) ∧
  (∀ s : State, s.rstn = false → s.irq = false)

/-! ## The whole machine -/

/-- 10 R57: the reset state has the invariant of 10 R56 (which that rule marks as derived). -/
def Obligations.ResetHasInvariant : Prop := State.reset.Inv

/-- 10 R56, which marks itself as derived ("Every command and every MMIO access keeps these invariants"): so does every other
step. -/
def Obligations.StepKeepsInvariant : Prop := ∀ s t : State, s.Inv → step s = .next t → t.Inv

/-- 10 R35 to R37: no command writes CF but WADD and WSUB, none writes LT, EQ or GT but WCMP, none writes VEQ but FEQ and REQ;
no command but WSEL reads a flag, and WSEL reads CF alone. -/
def Obligations.FlagWritersAndReaders : Prop :=
  (∀ (i : Instr) (s t : State), exec i s = .next t →
    ((∀ d a b, i ≠ .wadd d a b ∧ i ≠ .wsub d a b) → t.flags.cf = s.flags.cf) ∧
    ((∀ a b, i ≠ .wcmp a b) → t.flags.lt = s.flags.lt ∧ t.flags.eq = s.flags.eq ∧ t.flags.gt = s.flags.gt) ∧
    ((∀ a b, i ≠ .feq a b ∧ i ≠ .req a b) → t.flags.veq = s.flags.veq)) ∧
  (∀ (i : Instr) (s t t' : State) (f : Flags), exec i s = .next t → exec i { s with flags := f } = .next t' →
    (∀ d a b, i = .wsel d a b → f.cf = s.flags.cf) →
    { t' with flags := t.flags } = t ∧
    (t'.flags.cf = t.flags.cf ∨ t'.flags.cf = f.cf ∧ t.flags.cf = s.flags.cf) ∧
    (t'.flags.lt = t.flags.lt ∨ t'.flags.lt = f.lt ∧ t.flags.lt = s.flags.lt) ∧
    (t'.flags.eq = t.flags.eq ∨ t'.flags.eq = f.eq ∧ t.flags.eq = s.flags.eq) ∧
    (t'.flags.gt = t.flags.gt ∨ t'.flags.gt = f.gt ∧ t.flags.gt = s.flags.gt) ∧
    (t'.flags.veq = t.flags.veq ∨ t'.flags.veq = f.veq ∧ t.flags.veq = s.flags.veq))

/-- 43 R340, which marks itself as derived from R324 to R339: a successful command changes no ring slot but its destination,
which ends in the tabled condition; a faulting one changes none; and the transitions and RFREE fault on an unbound slot. -/
def Obligations.RingSlotsChangeOnlyAsTabled : Prop :=
  (∀ (i : Instr) (s t : State), exec i s = .next t →
    (t.cmdcount = s.cmdcount → t.re = s.re) ∧
    (t.cmdcount = s.cmdcount + 1 →
      match s.ringOutcome i with
      | none => t.re = s.re
      | some (rd, cond) => (t.re.get rd).condition = cond ∧ ∀ r, r ≠ rd → t.re.get r = s.re.get r)) ∧
  (∀ (s : State) (rd : Idx), (s.re.get rd).bound = false →
    Faults (.rfree rd) s .invalidHandle [] ∧ Faults (.rtontt rd) s .invalidHandle [] ∧
    Faults (.rtocoef rd) s .invalidHandle [])

/-- 42 R264: over any step a context slot keeps its log-degree, identity, root and tables, unless it is freed (or reset), or was
not valid and is constructed. -/
def Obligations.ContextDataIsImmutable : Prop :=
  ∀ (s t : State) (c : Idx), s.Inv → step s = .next t →
    (t.cx.get c = { s.cx.get c with hostref := (t.cx.get c).hostref, refcnt := (t.cx.get c).refcnt }) ∨
    (t.cx.get c).IsFree ∨
    ((s.cx.get c).valid = false ∧ (t.cx.get c).valid = true ∧ (t.cx.get c).BuiltFrom s.cfg ∧
      (t.cx.get c).cid = s.nextCid)

/-- 10 R52, in the sentence it marks as derived ("a CID is never reused between two resets"): over any step that is no reset
NEXT_CID stays or grows by 1, and a context that is valid afterwards either kept its identity or took the one NEXT_CID held; a
reset leaves no context valid. -/
def Obligations.CidsAreNeverReused : Prop :=
  ∀ s t : State, s.Inv → step s = .next t →
    AtReset t ∨
    ((t.nextCid = s.nextCid ∨ t.nextCid.toNat = s.nextCid.toNat + 1) ∧
      ∀ c : Idx, (t.cx.get c).valid = true →
        ((s.cx.get c).valid = true ∧ (t.cx.get c).cid = (s.cx.get c).cid) ∨
        ((s.cx.get c).valid = false ∧ (t.cx.get c).cid = s.nextCid ∧ t.nextCid.toNat = s.nextCid.toNat + 1))

/-- 41 R207, R210: while the configuration is committed no step but a reset changes a CFG register, and none but a reset
uncommits it while a context is valid. -/
def Obligations.CommittedConfigurationIsLocked : Prop :=
  ∀ s t : State, step s = .next t → s.status.cfgv = true →
    AtReset t ∨
    (t.cfg = s.cfg ∧ (t.status.cfgv = true ∨ ∀ c : Idx, (s.cx.get c).valid = false))

/-- 60 R415, R416 and R417 (the last marks itself as derived); 10 R44, R45: while FAULT = 1 no step but a reset changes the
fault record or the counter, or any context, ring slot, staging or configuration; ERR goes only with FAULT. So faults never
nest. -/
def Obligations.FaultRecordStands : Prop :=
  ∀ s t : State, step s = .next t → s.status.fault = true →
    AtReset t ∨
    (t.faultcmd = s.faultcmd ∧ t.faultseq = s.faultseq ∧ t.cmdcount = s.cmdcount ∧
      (t.status.fault = true → t.status.err = s.status.err) ∧ (t.status.fault = false → t.status.err = .none) ∧
      t.cx = s.cx ∧ t.re = s.re ∧ t.stage = s.stage ∧ t.slen = s.slen ∧ t.cfg = s.cfg ∧ t.nextCid = s.nextCid)

/-! ## Arithmetic -/

/-- 40 R161, R162: the adder and the subtractor are the limbwise carry and borrow chains, and equal the sum and the difference
modulo 2^1024 with the carry and the borrow of the whole (the equality those rules mark as derived by induction over k). -/
def Obligations.LimbChains : Prop :=
  ∀ a b : Word,
    (∀ k < 16, limb (carryingAdd a b).1 k = sumLimb a b k) ∧
    (carryingAdd a b).2 = decide (carryAt a b 16 = 1) ∧
    (carryingAdd a b).1.toNat = (a.toNat + b.toNat) % 2 ^ 1024 ∧
    (carryingAdd a b).2 = decide (2 ^ 1024 ≤ a.toNat + b.toNat) ∧
    (∀ k < 16, limb (borrowingSub a b).1 k = diffLimb a b k) ∧
    (borrowingSub a b).2 = decide (borrowAt a b 16 = 1) ∧
    ((borrowingSub a b).1.toNat : Int) = ((a.toNat : Int) - b.toNat) % 2 ^ 1024 ∧
    (borrowingSub a b).2 = decide (a.toNat < b.toNat)

/-- 41 R213, which marks itself as derived from R212: the five properties of REDC under a valid configuration. -/
def Obligations.RedcProperties : Prop :=
  ∀ c : FieldCfg, cfgOk c = true →
    (∀ T : Nat, T < 2 ^ 2048 →
      (T + T % radix * c.qprime.toNat % radix * c.q.toNat) / radix % c.q.toNat = T * radixInv c.q.toNat % c.q.toNat) ∧
    (∀ T : Nat, T < c.q.toNat * radix →
      (T + T % radix * c.qprime.toNat % radix * c.q.toNat) / radix < 2 * c.q.toNat ∧
      (redc c T).toNat = T * radixInv c.q.toNat % c.q.toNat ∧ canonical c (redc c T) = true) ∧
    (∀ a b : Word, canonical c a = true → canonical c b = true → a.toNat * b.toNat < c.q.toNat * radix ∧
      (redc c (a.toNat * b.toNat)).toNat = a.toNat * b.toNat * radixInv c.q.toNat % c.q.toNat) ∧
    (∀ x : Word, (redc c (x.toNat * c.r2.toNat)).toNat = x.toNat * radix % c.q.toNat ∧
      (redc c (x.toNat * c.r2.toNat)).toNat = encNat c.q.toNat (x.toNat % c.q.toNat)) ∧
    (∀ a : Word, canonical c a = true → (redc c a.toNat).toNat = decNat c.q.toNat a.toNat)

/-- 41 R224, which marks itself as derived, and the last sentence of 00 R14, derived too: on canonical operands the field
operations stay canonical, decoding turns them into the operations of Zq, R1 and 0 are the identities, and encoding and decoding
are inverse to each other. -/
def Obligations.FieldLaws : Prop :=
  ∀ c : FieldCfg, cfgOk c = true →
    let q := c.q.toNat
    let dec := fun x : Word => decNat q x.toNat
    (∀ a b : Word, canonical c a = true → canonical c b = true →
      (canonical c (fadd c a b) = true ∧ canonical c (fsub c a b) = true ∧ canonical c (fmul c a b) = true ∧
        canonical c (fneg c a) = true) ∧
      dec (fadd c a b) = (dec a + dec b) % q ∧ (dec (fsub c a b) : Int) = ((dec a : Int) - dec b) % q ∧
      dec (fmul c a b) = dec a * dec b % q ∧ (dec (fneg c a) : Int) = (-(dec a : Int)) % q ∧
      fmul c a c.r1 = a ∧ fadd c a 0 = a) ∧
    (∀ x : Nat, x < q → encNat q x < q ∧ decNat q (encNat q x) = x) ∧
    (∀ a : Nat, a < q → decNat q a < q ∧ encNat q (decNat q a) = a)

/-- 41 R206: `cfg_ok`, which CFGCOMMIT evaluates, is the conjunction of the legal values of the six registers. -/
def Obligations.CfgOkIsTheConjunction : Prop :=
  ∀ c : FieldCfg, cfgOk c = true ↔
    c.q.toNat % 2 = 1 ∧ 3 ≤ c.q.toNat ∧
    c.r1.toNat = 2 ^ 1024 % c.q.toNat ∧ c.r2.toNat = 2 ^ 2048 % c.q.toNat ∧
    (c.q.toNat * c.qprime.toNat + 1) % 2 ^ 1024 = 0 ∧
    (1 ≤ c.s.toNat ∧ c.s.toNat ≤ 1023) ∧ (c.q.toNat - 1) % 2 ^ c.s.toNat = 0 ∧
    c.root.toNat < c.q.toNat ∧ c.root.toNat ^ 2 ^ (c.s.toNat - 1) % c.q.toNat = c.q.toNat - 1

/-- 42 R269: with the tables of a valid context each transform undoes the other, on every sequence of n canonical
representatives. -/
def Obligations.TransformsInvertEachOther : Prop :=
  ∀ (s : State) (c : Idx) (a : List Word), s.Inv → (s.cx.get c).valid = true → a.length = s.degree c →
    (∀ x ∈ a, canonical s.cfg x = true) →
    s.inv c (s.fwd c a) = a ∧ s.fwd c (s.inv c a) = a

/-- 42 R268, which marks itself as derived from R261, R262 and R266: output i of the forward transform is the polynomial's value
at ζ_i = ψ^(2·brv(i)+1), on representatives and on values. -/
def Obligations.ForwardTransformEvaluates : Prop :=
  ∀ (s : State) (c : Idx) (a : List Word) (i : Nat), s.Inv → (s.cx.get c).valid = true → a.length = s.degree c →
    (∀ x ∈ a, canonical s.cfg x = true) → i < s.degree c →
    let q := s.cfg.q.toNat
    let ζ := evalPoint q (s.cx.get c).psi.toNat (s.logDegree c) i
    ((s.fwd c a).getD i 0).toNat = evalAt q ζ (reprs a) ∧
    decNat q ((s.fwd c a).getD i 0).toNat = evalAt q ζ (values q a)

/-- 42 R270, which marks its reason as derived from R268 and R269: the inverse transform of the elementwise product of two
transforms is, on values, the negacyclic product. -/
def Obligations.ProductLaw : Prop :=
  ∀ (s : State) (c : Idx) (a b : List Word), s.Inv → (s.cx.get c).valid = true →
    a.length = s.degree c → b.length = s.degree c →
    (∀ x ∈ a, canonical s.cfg x = true) → (∀ x ∈ b, canonical s.cfg x = true) →
    let q := s.cfg.q.toNat
    let d := s.inv c (List.zipWith (fmul s.cfg) (s.fwd c a) (s.fwd c b))
    d.length = s.degree c ∧
    ∀ k < s.degree c,
      (decNat q (d.getD k 0).toNat : Int) = negacyclicAt q (s.degree c) (values q a) (values q b) k

/-! ## The instructions: system and configuration -/

/-- 44 R401: NOP changes nothing but the counter, and 0 is the only CMD value that is a NOP. -/
def Obligations.NopEffect : Prop :=
  (∀ s : State, exec .nop s = .next { s with cmdcount := s.cmdcount + 1 }) ∧
  (∀ (p : Params) (v : BitVec 64), decode p v = .ok .nop ↔ v = 0)

/-- 41 R207, R208: CFGW writes the selected configuration register, and faults RESOURCE_BUSY while CFGV = 1; CFGR reads it at
any time. The selector values, and the register each selects, are those of 30 R133. -/
def Obligations.CfgwCfgrEffect : Prop :=
  ∀ (s : State) (sel : CfgSel) (x : Idx),
    fieldsOf (encode (.cfgw sel x)) = { opc := 0x01, d := 0, a := x, b := 0, imm := sel.toImm } ∧
    fieldsOf (encode (.cfgr x sel)) = { opc := 0x02, d := x, a := 0, b := 0, imm := sel.toImm } ∧
    (CfgSel.q.toImm = 0 ∧ CfgSel.r1.toImm = 1 ∧ CfgSel.r2.toImm = 2 ∧ CfgSel.qprime.toImm = 3 ∧ CfgSel.root.toImm = 4 ∧
      CfgSel.s.toImm = 5) ∧
    (s.cfg.get .q = s.cfg.q ∧ s.cfg.get .r1 = s.cfg.r1 ∧ s.cfg.get .r2 = s.cfg.r2 ∧ s.cfg.get .qprime = s.cfg.qprime ∧
      s.cfg.get .root = s.cfg.root ∧ s.cfg.get .s = s.cfg.s) ∧
    (s.status.cfgv = true → Faults (.cfgw sel x) s .resourceBusy []) ∧
    (s.status.cfgv = false → ∃ t, exec (.cfgw sel x) s = .next t ∧
      t.cfg.get sel = s.readW x ∧ (∀ sel', sel' ≠ sel → t.cfg.get sel' = s.cfg.get sel') ∧
      t = { s with
        cfg := t.cfg, cmdcount := s.cmdcount + 1, programFault := s.programFault || s.readsUnwritten [x] }) ∧
    ∃ t, exec (.cfgr x sel) s = .next t ∧ WritesW s t [x] [] s.flags ∧ t.readW x = s.cfg.get sel

/-- 41 R209, R210: CFGCOMMIT commits a legal configuration, does nothing to a committed one and faults CONFIG_INVALID on an
illegal one; CFGINV uncommits, and faults RESOURCE_BUSY while a context is valid. -/
def Obligations.CfgcommitCfginvEffect : Prop :=
  ∀ s : State,
    encode .cfgcommit = 0x03000000 ∧ encode .cfginv = 0x04000000 ∧
    (s.status.cfgv = true → exec .cfgcommit s = .next { s with cmdcount := s.cmdcount + 1 }) ∧
    (s.status.cfgv = false → cfgOk s.cfg = true →
      exec .cfgcommit s = .next { s with status := { s.status with cfgv := true }, cmdcount := s.cmdcount + 1 }) ∧
    (s.status.cfgv = false → cfgOk s.cfg = false → Faults .cfgcommit s .configInvalid []) ∧
    ((∃ c : Idx, (s.cx.get c).valid = true) → Faults .cfginv s .resourceBusy []) ∧
    ((∀ c : Idx, (s.cx.get c).valid = false) →
      exec .cfginv s = .next { s with status := { s.status with cfgv := false }, cmdcount := s.cmdcount + 1 })

/-! ## The instructions: BigInt -/

/-- 40 R163, R164: WADD and WSUB write the limbs of carrying_add and borrowing_sub (40 R161, R162), and CF the carry and the
borrow out of limb 15. -/
def Obligations.WaddWsubEffect : Prop :=
  ∀ (s : State) (wd wa wb : Idx),
    let a := s.readW wa
    let b := s.readW wb
    fieldsOf (encode (.wadd wd wa wb)) = { opc := 0x10, d := wd, a := wa, b := wb, imm := 0 } ∧
    fieldsOf (encode (.wsub wd wa wb)) = { opc := 0x11, d := wd, a := wa, b := wb, imm := 0 } ∧
    (∃ t, exec (.wadd wd wa wb) s = .next t ∧
      WritesW s t [wd] [wa, wb] { s.flags with cf := decide (carryAt a b 16 = 1) } ∧
      ∀ k < 16, limb (t.readW wd) k = sumLimb a b k) ∧
    (∃ t, exec (.wsub wd wa wb) s = .next t ∧
      WritesW s t [wd] [wa, wb] { s.flags with cf := decide (borrowAt a b 16 = 1) } ∧
      ∀ k < 16, limb (t.readW wd) k = diffLimb a b k)

/-- 40 R165: WCMP writes LT, EQ and GT of the unsigned compare, exactly one of them 1, and nothing else. -/
def Obligations.WcmpEffect : Prop :=
  ∀ (s : State) (wa wb : Idx),
    fieldsOf (encode (.wcmp wa wb)) = { opc := 0x12, d := 0, a := wa, b := wb, imm := 0 } ∧
    ∃ t, exec (.wcmp wa wb) s = .next t ∧
      (t.flags.lt = true ↔ (s.readW wa).toNat < (s.readW wb).toNat) ∧
      (t.flags.eq = true ↔ (s.readW wa).toNat = (s.readW wb).toNat) ∧
      (t.flags.gt = true ↔ (s.readW wb).toNat < (s.readW wa).toNat) ∧
      t.flags.lt.toNat + t.flags.eq.toNat + t.flags.gt.toNat = 1 ∧
      t = { s with
        flags := { s.flags with lt := t.flags.lt, eq := t.flags.eq, gt := t.flags.gt }
        cmdcount := s.cmdcount + 1
        programFault := s.programFault || s.readsUnwritten [wa, wb] }

/-- 40 R166: WSEL copies W[wb] if CF = 1 and W[wa] otherwise; it writes no flag. -/
def Obligations.WselEffect : Prop :=
  ∀ (s : State) (wd wa wb : Idx),
    fieldsOf (encode (.wsel wd wa wb)) = { opc := 0x13, d := wd, a := wa, b := wb, imm := 0 } ∧
    ∃ t, exec (.wsel wd wa wb) s = .next t ∧ WritesW s t [wd] [wa, wb] s.flags ∧
      t.readW wd = if s.flags.cf then s.readW wb else s.readW wa

/-- 40 R167: WMUL writes the two halves of the exact product; equal destinations are refused by the decoder. -/
def Obligations.WmulEffect : Prop :=
  ∀ (s : State) (wlo wa wb whi : Idx),
    fieldsOf (encode (.wmul wlo wa wb whi)) = { opc := 0x14, d := wlo, a := wa, b := wb, imm := whi ++ 0#8 } ∧
    (wlo ≠ whi → ∃ t, exec (.wmul wlo wa wb whi) s = .next t ∧ WritesW s t [wlo, whi] [wa, wb] s.flags ∧
      (t.readW wlo).toNat + 2 ^ 1024 * (t.readW whi).toNat = (s.readW wa).toNat * (s.readW wb).toNat) ∧
    (∀ p : Params, ∃ e, decode p (Instr.wmul wlo wa wb wlo).cmdValue = .error e)

/-- 40 R168, R169: WLI writes the zero-extended immediate, WMOV copies. -/
def Obligations.WliWmovEffect : Prop :=
  ∀ (s : State) (wd wa : Idx) (imm : Imm12),
    fieldsOf (encode (.wli wd imm)) = { opc := 0x15, d := wd, a := 0, b := 0, imm := imm } ∧
    fieldsOf (encode (.wmov wd wa)) = { opc := 0x16, d := wd, a := wa, b := 0, imm := 0 } ∧
    (∃ t, exec (.wli wd imm) s = .next t ∧ WritesW s t [wd] [] s.flags ∧ (t.readW wd).toNat = imm.toNat) ∧
    (∃ t, exec (.wmov wd wa) s = .next t ∧ WritesW s t [wd] [wa] s.flags ∧ t.readW wd = s.readW wa)

/-! ## The instructions: field -/

/-- 41 R214, R215: FENC writes the representative of W[wa] mod q, FDEC the value of a canonical W[wa]; their faults. -/
def Obligations.FencFdecEffect : Prop :=
  ∀ (s : State) (wd wa : Idx),
    let q := s.cfg.q.toNat
    fieldsOf (encode (.fenc wd wa)) = { opc := 0x20, d := wd, a := wa, b := 0, imm := 0 } ∧
    fieldsOf (encode (.fdec wd wa)) = { opc := 0x21, d := wd, a := wa, b := 0, imm := 0 } ∧
    (s.status.cfgv = false → Faults (.fenc wd wa) s .notConfigured [] ∧ Faults (.fdec wd wa) s .notConfigured []) ∧
    (s.status.cfgv = true → q ≤ (s.readW wa).toNat → Faults (.fdec wd wa) s .nonCanonical [wa]) ∧
    (s.status.cfgv = true → cfgOk s.cfg = true →
      ∃ t, exec (.fenc wd wa) s = .next t ∧ WritesW s t [wd] [wa] s.flags ∧
        (t.readW wd).toNat = (s.readW wa).toNat * 2 ^ 1024 % q ∧
        (t.readW wd).toNat = encNat q ((s.readW wa).toNat % q)) ∧
    (s.status.cfgv = true → cfgOk s.cfg = true → (s.readW wa).toNat < q →
      ∃ t, exec (.fdec wd wa) s = .next t ∧ WritesW s t [wd] [wa] s.flags ∧
        (t.readW wd).toNat = decNat q (s.readW wa).toNat)

/-- 41 R216, R217, R219: FADD, FSUB and FNEG write the sum, the difference and the negation modulo q of canonical operands, and
no flag; their faults, wa before wb. -/
def Obligations.FaddFsubFnegEffect : Prop :=
  ∀ (s : State) (wd wa wb : Idx),
    let q := s.cfg.q.toNat
    let a := (s.readW wa).toNat
    let b := (s.readW wb).toNat
    fieldsOf (encode (.fadd wd wa wb)) = { opc := 0x22, d := wd, a := wa, b := wb, imm := 0 } ∧
    fieldsOf (encode (.fsub wd wa wb)) = { opc := 0x23, d := wd, a := wa, b := wb, imm := 0 } ∧
    fieldsOf (encode (.fneg wd wa)) = { opc := 0x25, d := wd, a := wa, b := 0, imm := 0 } ∧
    (s.status.cfgv = false → Faults (.fadd wd wa wb) s .notConfigured [] ∧ Faults (.fsub wd wa wb) s .notConfigured [] ∧
      Faults (.fneg wd wa) s .notConfigured []) ∧
    (s.status.cfgv = true → q ≤ a ∨ q ≤ b →
      Faults (.fadd wd wa wb) s .nonCanonical [wa, wb] ∧ Faults (.fsub wd wa wb) s .nonCanonical [wa, wb]) ∧
    (s.status.cfgv = true → q ≤ a → Faults (.fneg wd wa) s .nonCanonical [wa]) ∧
    (s.status.cfgv = true → a < q → b < q →
      ∃ t, exec (.fadd wd wa wb) s = .next t ∧ WritesW s t [wd] [wa, wb] s.flags ∧ (t.readW wd).toNat = (a + b) % q) ∧
    (s.status.cfgv = true → a < q → b < q →
      ∃ t, exec (.fsub wd wa wb) s = .next t ∧ WritesW s t [wd] [wa, wb] s.flags ∧
        ((t.readW wd).toNat : Int) = ((a : Int) - b) % q) ∧
    (s.status.cfgv = true → a < q →
      ∃ t, exec (.fneg wd wa) s = .next t ∧ WritesW s t [wd] [wa] s.flags ∧ (t.readW wd).toNat = (q - a) % q)

/-- 41 R218: FMUL writes the Montgomery product (a · b · R⁻¹) mod q of canonical operands, and no flag; its faults. -/
def Obligations.FmulEffect : Prop :=
  ∀ (s : State) (wd wa wb : Idx),
    let q := s.cfg.q.toNat
    let a := (s.readW wa).toNat
    let b := (s.readW wb).toNat
    fieldsOf (encode (.fmul wd wa wb)) = { opc := 0x24, d := wd, a := wa, b := wb, imm := 0 } ∧
    (s.status.cfgv = false → Faults (.fmul wd wa wb) s .notConfigured []) ∧
    (s.status.cfgv = true → q ≤ a ∨ q ≤ b → Faults (.fmul wd wa wb) s .nonCanonical [wa, wb]) ∧
    (s.status.cfgv = true → cfgOk s.cfg = true → a < q → b < q →
      ∃ t, exec (.fmul wd wa wb) s = .next t ∧ WritesW s t [wd] [wa, wb] s.flags ∧
        (t.readW wd).toNat = a * b * radixInv q % q)

/-- 41 R220: FEQ sets VEQ to whether the values of two canonical operands agree, and writes no other flag; its faults. -/
def Obligations.FeqEffect : Prop :=
  ∀ (s : State) (wa wb : Idx),
    let q := s.cfg.q.toNat
    let a := (s.readW wa).toNat
    let b := (s.readW wb).toNat
    fieldsOf (encode (.feq wa wb)) = { opc := 0x26, d := 0, a := wa, b := wb, imm := 0 } ∧
    (s.status.cfgv = false → Faults (.feq wa wb) s .notConfigured []) ∧
    (s.status.cfgv = true → q ≤ a ∨ q ≤ b → Faults (.feq wa wb) s .nonCanonical [wa, wb]) ∧
    (s.status.cfgv = true → cfgOk s.cfg = true → a < q → b < q →
      exec (.feq wa wb) s = .next { s with
        flags := { s.flags with veq := decide (decNat q a = decNat q b) }
        cmdcount := s.cmdcount + 1
        programFault := s.programFault || s.readsUnwritten [wa, wb] })

/-- 41 R221, R222: FZERO writes 0 and FONE writes R1 = R mod q, the representative of 1; both fault NOT_CONFIGURED. -/
def Obligations.FzeroFoneEffect : Prop :=
  ∀ (s : State) (wd : Idx),
    fieldsOf (encode (.fzero wd)) = { opc := 0x27, d := wd, a := 0, b := 0, imm := 0 } ∧
    fieldsOf (encode (.fone wd)) = { opc := 0x28, d := wd, a := 0, b := 0, imm := 0 } ∧
    (s.status.cfgv = false → Faults (.fzero wd) s .notConfigured [] ∧ Faults (.fone wd) s .notConfigured []) ∧
    (s.status.cfgv = true →
      (∃ t, exec (.fzero wd) s = .next t ∧ WritesW s t [wd] [] s.flags ∧ t.readW wd = 0) ∧
      (∃ t, exec (.fone wd) s = .next t ∧ WritesW s t [wd] [] s.flags ∧ t.readW wd = s.cfg.r1 ∧
        (cfgOk s.cfg = true → (t.readW wd).toNat = 2 ^ 1024 % s.cfg.q.toNat)))

/-! ## The instructions: staging, transforms, contexts -/

/-- 42 R275 to R277: SCLR empties the staging buffer, SPUSH appends to it or faults STAGING_OVERFLOW, SGET reads an entry below
SLEN or faults INDEX_RANGE. -/
def Obligations.SclrSpushSgetEffect : Prop :=
  ∀ (s : State) (x : Idx) (idx : Imm12),
    encode .sclr = 0x30000000 ∧
    fieldsOf (encode (.spush x)) = { opc := 0x31, d := 0, a := x, b := 0, imm := 0 } ∧
    fieldsOf (encode (.sget x idx)) = { opc := 0x32, d := x, a := 0, b := 0, imm := idx } ∧
    exec .sclr s = .next { s with slen := 0, cmdcount := s.cmdcount + 1 } ∧
    (s.slen = s.params.nmax → Faults (.spush x) s .stagingOverflow []) ∧
    (s.slen < s.params.nmax → s.stage.length = s.params.nmax → ∃ t, exec (.spush x) s = .next t ∧
      t.slen = s.slen + 1 ∧ t.stage.getD s.slen 0 = s.readW x ∧ t.stage.length = s.stage.length ∧
      (∀ j, j ≠ s.slen → t.stage.getD j 0 = s.stage.getD j 0) ∧
      t = { s with
        stage := t.stage, slen := t.slen, cmdcount := s.cmdcount + 1
        programFault := s.programFault || s.readsUnwritten [x] }) ∧
    (s.slen ≤ idx.toNat → Faults (.sget x idx) s .indexRange []) ∧
    (idx.toNat < s.slen → ∃ t, exec (.sget x idx) s = .next t ∧ WritesW s t [x] [] s.flags ∧
      t.readW x = s.stage.getD idx.toNat 0)

/-- 42 R278, R279: SNTT and SINTT transform the n staged entries in place; their faults in order. -/
def Obligations.SnttSinttEffect : Prop :=
  ∀ (s : State) (c : Idx), s.Inv →
    let n := s.degree c
    let held := (s.cx.get c).valid = true ∧ (s.cx.get c).hostref = true
    let allCanonical := ∀ x ∈ s.stage.take n, x.toNat < s.cfg.q.toNat
    fieldsOf (encode (.sntt c)) = { opc := 0x33, d := 0, a := c, b := 0, imm := 0 } ∧
    fieldsOf (encode (.sintt c)) = { opc := 0x34, d := 0, a := c, b := 0, imm := 0 } ∧
    (¬held → Faults (.sntt c) s .invalidHandle [] ∧ Faults (.sintt c) s .invalidHandle []) ∧
    (held → s.slen ≠ n → Faults (.sntt c) s .lengthMismatch [] ∧ Faults (.sintt c) s .lengthMismatch []) ∧
    (held → s.slen = n → ¬allCanonical → Faults (.sntt c) s .nonCanonical [] ∧ Faults (.sintt c) s .nonCanonical []) ∧
    (held → s.slen = n → allCanonical →
      (∃ t, exec (.sntt c) s = .next t ∧ t.stage.take n = s.fwd c (s.stage.take n) ∧
        t.stage.drop n = s.stage.drop n ∧ t = { s with stage := t.stage, cmdcount := s.cmdcount + 1 }) ∧
      (∃ t, exec (.sintt c) s = .next t ∧ t.stage.take n = s.inv c (s.stage.take n) ∧
        t.stage.drop n = s.stage.drop n ∧ t = { s with stage := t.stage, cmdcount := s.cmdcount + 1 }))

/-- 42 R271, with the data of R261 to R263: CTXNEW fills the slot with a fresh identity and the context data, and NEXT_CID grows
by 1; its faults in order. -/
def Obligations.CtxnewEffect : Prop :=
  ∀ (s : State) (c : Idx) (logn : Imm12), s.params.legal = true →
    let q := s.cfg.q.toNat
    let b := logn.toNat
    let n := 2 ^ b
    let ψ := s.cfg.root.toNat ^ 2 ^ (s.cfg.s.toNat - 1 - b) % q
    fieldsOf (encode (.ctxnew c logn)) = { opc := 0x38, d := c, a := 0, b := 0, imm := logn } ∧
    (s.status.cfgv = false → Faults (.ctxnew c logn) s .notConfigured []) ∧
    (s.status.cfgv = true → (s.cx.get c).valid = true → Faults (.ctxnew c logn) s .resourceBusy []) ∧
    (s.status.cfgv = true → (s.cx.get c).valid = false →
      s.params.lognmax < b ∨ s.cfg.s.toNat < b + 1 ∨ s.nextCid.toNat = 2 ^ 64 - 1 →
      Faults (.ctxnew c logn) s .constructionError []) ∧
    (s.status.cfgv = true → cfgOk s.cfg = true → (s.cx.get c).valid = false → b ≤ s.params.lognmax →
      b + 1 ≤ s.cfg.s.toNat → s.nextCid.toNat ≠ 2 ^ 64 - 1 →
      ∃ t x, exec (.ctxnew c logn) s = .next t ∧
        t = { s with cx := t.cx, nextCid := s.nextCid + 1, cmdcount := s.cmdcount + 1 } ∧
        (∀ c', c' ≠ c → t.cx.get c' = s.cx.get c') ∧ t.cx.get c = x ∧
        x.valid = true ∧ x.hostref = true ∧ x.refcnt = 0 ∧ x.cid = s.nextCid ∧ x.logn.toNat = b ∧ x.psi.toNat = ψ ∧
        x.zeta.length = n ∧ x.zetainv.length = n ∧
        (∀ k < n, (x.zeta.getD k 0).toNat = encNat q (ψ ^ brv b k % q) ∧
          (x.zetainv.getD k 0).toNat = encNat q (ψ ^ ((2 * n - brv b k) % (2 * n)) % q)) ∧
        x.ninv.toNat < q ∧ x.ninv.toNat * n % q = encNat q 1)

/-- 42 R272, R273: CTXREL gives up the host's hold; the slot is freed if no ring slot references it, and stays valid otherwise;
it faults INVALID_HANDLE if the host does not hold the slot. -/
def Obligations.CtxrelEffect : Prop :=
  ∀ (s : State) (c : Idx),
    fieldsOf (encode (.ctxrel c)) = { opc := 0x39, d := c, a := 0, b := 0, imm := 0 } ∧
    ((s.cx.get c).valid = false ∨ (s.cx.get c).hostref = false → Faults (.ctxrel c) s .invalidHandle []) ∧
    ((s.cx.get c).valid = true → (s.cx.get c).hostref = true →
      ∃ t, exec (.ctxrel c) s = .next t ∧
        ((s.cx.get c).refcnt ≠ 0 → t.cx.get c = { s.cx.get c with hostref := false }) ∧
        ((s.cx.get c).refcnt = 0 → (t.cx.get c).IsFree) ∧
        (∀ c', c' ≠ c → t.cx.get c' = s.cx.get c') ∧
        t = { s with cx := t.cx, draws := t.draws, cmdcount := s.cmdcount + 1 })

/-! ## The instructions: ring elements -/

/-- 43 R324, R325: RFROMC and RFROMN bind rd to the staged sequence, in Coefficient and Ntt state; their faults in order. -/
def Obligations.RfromcRfromnEffect : Prop :=
  ∀ (s : State) (rd c : Idx), s.Inv →
    let n := s.degree c
    let held := (s.cx.get c).valid = true ∧ (s.cx.get c).hostref = true
    let allCanonical := ∀ x ∈ s.stage.take n, x.toNat < s.cfg.q.toNat
    fieldsOf (encode (.rfromc rd c)) = { opc := 0x40, d := rd, a := c, b := 0, imm := 0 } ∧
    fieldsOf (encode (.rfromn rd c)) = { opc := 0x41, d := rd, a := c, b := 0, imm := 0 } ∧
    (¬held → Faults (.rfromc rd c) s .invalidHandle [] ∧ Faults (.rfromn rd c) s .invalidHandle []) ∧
    (held → s.slen ≠ n → Faults (.rfromc rd c) s .constructionError [] ∧ Faults (.rfromn rd c) s .constructionError []) ∧
    (held → s.slen = n → ¬allCanonical →
      Faults (.rfromc rd c) s .nonCanonical [] ∧ Faults (.rfromn rd c) s .nonCanonical []) ∧
    (held → s.slen = n → allCanonical → (s.stage.take n).length = n ∧
      (∃ t, exec (.rfromc rd c) s = .next t ∧ Binds s t rd c .coefficient (s.stage.take n) []) ∧
      (∃ t, exec (.rfromn rd c) s = .next t ∧ Binds s t rd c .ntt (s.stage.take n) []))

/-- 43 R326, R327: RZERO and RONE bind rd to the constant polynomials 0 and 1, in Coefficient state; both fault INVALID_HANDLE.
-/
def Obligations.RzeroRoneEffect : Prop :=
  ∀ (s : State) (rd c : Idx), s.Inv →
    let n := s.degree c
    let held := (s.cx.get c).valid = true ∧ (s.cx.get c).hostref = true
    fieldsOf (encode (.rzero rd c)) = { opc := 0x42, d := rd, a := c, b := 0, imm := 0 } ∧
    fieldsOf (encode (.rone rd c)) = { opc := 0x43, d := rd, a := c, b := 0, imm := 0 } ∧
    (¬held → Faults (.rzero rd c) s .invalidHandle [] ∧ Faults (.rone rd c) s .invalidHandle []) ∧
    (held →
      (∃ t, exec (.rzero rd c) s = .next t ∧ Binds s t rd c .coefficient (List.replicate n 0) []) ∧
      (∃ t d, exec (.rone rd c) s = .next t ∧ Binds s t rd c .coefficient d [] ∧ d.length = n ∧
        d.getD 0 0 = s.cfg.r1 ∧ ∀ j, j ≠ 0 → d.getD j 0 = 0))

/-- 43 R328: RCOPY binds rd to a copy of ra, in ra's state and context; it faults INVALID_HANDLE on an unbound ra. -/
def Obligations.RcopyEffect : Prop :=
  ∀ (s : State) (rd ra : Idx), s.Inv →
    fieldsOf (encode (.rcopy rd ra)) = { opc := 0x44, d := rd, a := ra, b := 0, imm := 0 } ∧
    ((s.re.get ra).bound = false → Faults (.rcopy rd ra) s .invalidHandle []) ∧
    ((s.re.get ra).bound = true → ∃ t, exec (.rcopy rd ra) s = .next t ∧
      Binds s t rd (s.re.get ra).ctx (s.re.get ra).st (s.ringData ra) [])

/-- 43 R329: RFREE unbinds rd and releases its context, which is freed if this was the last reference and the host does not hold
it; it faults INVALID_HANDLE on an unbound slot. -/
def Obligations.RfreeEffect : Prop :=
  ∀ (s : State) (rd : Idx),
    fieldsOf (encode (.rfree rd)) = { opc := 0x45, d := rd, a := 0, b := 0, imm := 0 } ∧
    ((s.re.get rd).bound = false → Faults (.rfree rd) s .invalidHandle []) ∧
    ((s.re.get rd).bound = true → ∃ t, exec (.rfree rd) s = .next t ∧
      (t.re.get rd).IsUnbound ∧ (∀ r, r ≠ rd → t.re.get r = s.re.get r) ∧
      Released (s.cx.get (s.re.get rd).ctx) (t.cx.get (s.re.get rd).ctx) ∧
      (∀ c, c ≠ (s.re.get rd).ctx → t.cx.get c = s.cx.get c) ∧
      t = { s with re := t.re, cx := t.cx, draws := t.draws, cmdcount := s.cmdcount + 1 })

/-- 43 R330, R331: RTONTT and RTOCOEF transform the n elements in place and set the tag; they change nothing in the state they
lead to, and fault INVALID_HANDLE on an unbound slot. -/
def Obligations.RtonttRtocoefEffect : Prop :=
  ∀ (s : State) (rd : Idx), s.Inv →
    let n := s.ringDegree rd
    let c := (s.re.get rd).ctx
    let data := (s.re.get rd).data
    fieldsOf (encode (.rtontt rd)) = { opc := 0x46, d := rd, a := 0, b := 0, imm := 0 } ∧
    fieldsOf (encode (.rtocoef rd)) = { opc := 0x47, d := rd, a := 0, b := 0, imm := 0 } ∧
    ((s.re.get rd).bound = false → Faults (.rtontt rd) s .invalidHandle [] ∧ Faults (.rtocoef rd) s .invalidHandle []) ∧
    ((s.re.get rd).bound = true → (s.re.get rd).st = .coefficient →
      (∃ t, exec (.rtontt rd) s = .next t ∧
        t.re.get rd = { s.re.get rd with st := .ntt, data := s.fwd c (data.take n) ++ data.drop n } ∧
        (∀ r, r ≠ rd → t.re.get r = s.re.get r) ∧ t = { s with re := t.re, cmdcount := s.cmdcount + 1 }) ∧
      exec (.rtocoef rd) s = .next { s with cmdcount := s.cmdcount + 1 }) ∧
    ((s.re.get rd).bound = true → (s.re.get rd).st = .ntt →
      (∃ t, exec (.rtocoef rd) s = .next t ∧
        t.re.get rd = { s.re.get rd with st := .coefficient, data := s.inv c (data.take n) ++ data.drop n } ∧
        (∀ r, r ≠ rd → t.re.get r = s.re.get r) ∧ t = { s with re := t.re, cmdcount := s.cmdcount + 1 }) ∧
      exec (.rtontt rd) s = .next { s with cmdcount := s.cmdcount + 1 })

/-- 43 R332, R333: RADD and RSUB bind rd to the elementwise sum and difference modulo q, in the operands' common state or else
on their coefficient views; their faults in order. -/
def Obligations.RaddRsubEffect : Prop :=
  ∀ (s : State) (rd ra rb : Idx), s.Inv →
    let q := s.cfg.q.toNat
    let A := s.re.get ra
    let B := s.re.get rb
    let x := if A.st = B.st then s.ringData ra else s.coefView ra
    let y := if A.st = B.st then s.ringData rb else s.coefView rb
    let st := if A.st = B.st then A.st else .coefficient
    fieldsOf (encode (.radd rd ra rb)) = { opc := 0x48, d := rd, a := ra, b := rb, imm := 0 } ∧
    fieldsOf (encode (.rsub rd ra rb)) = { opc := 0x49, d := rd, a := ra, b := rb, imm := 0 } ∧
    (A.bound = false ∨ B.bound = false →
      Faults (.radd rd ra rb) s .invalidHandle [] ∧ Faults (.rsub rd ra rb) s .invalidHandle []) ∧
    (A.bound = true → B.bound = true → A.cid ≠ B.cid →
      Faults (.radd rd ra rb) s .configurationMismatch [] ∧ Faults (.rsub rd ra rb) s .configurationMismatch []) ∧
    (A.bound = true → B.bound = true → A.cid = B.cid →
      (∃ t d, exec (.radd rd ra rb) s = .next t ∧ Binds s t rd A.ctx st d [] ∧ d.length = s.ringDegree ra ∧
        ∀ j < s.ringDegree ra, (d.getD j 0).toNat = ((x.getD j 0).toNat + (y.getD j 0).toNat) % q) ∧
      (∃ t d, exec (.rsub rd ra rb) s = .next t ∧ Binds s t rd A.ctx st d [] ∧ d.length = s.ringDegree ra ∧
        ∀ j < s.ringDegree ra, ((d.getD j 0).toNat : Int) = (((x.getD j 0).toNat : Int) - (y.getD j 0).toNat) % q))

/-- 43 R334: RMUL binds rd to the pointwise Montgomery product of the two transforms, in Ntt state; its faults in order. -/
def Obligations.RmulEffect : Prop :=
  ∀ (s : State) (rd ra rb : Idx), s.Inv →
    let q := s.cfg.q.toNat
    let A := s.re.get ra
    let B := s.re.get rb
    fieldsOf (encode (.rmul rd ra rb)) = { opc := 0x4A, d := rd, a := ra, b := rb, imm := 0 } ∧
    (A.bound = false ∨ B.bound = false → Faults (.rmul rd ra rb) s .invalidHandle []) ∧
    (A.bound = true → B.bound = true → A.cid ≠ B.cid → Faults (.rmul rd ra rb) s .configurationMismatch []) ∧
    (A.bound = true → B.bound = true → A.cid = B.cid →
      ∃ t d, exec (.rmul rd ra rb) s = .next t ∧ Binds s t rd A.ctx .ntt d [] ∧ d.length = s.ringDegree ra ∧
        ∀ j < s.ringDegree ra, (d.getD j 0).toNat =
          ((s.nttView ra).getD j 0).toNat * ((s.nttView rb).getD j 0).toNat * radixInv q % q)

/-- 43 R335, R336: RNEG and RSCALE bind rd to the elementwise negation of ra and to its Montgomery product with a canonical
scalar, in ra's state; their faults in order. -/
def Obligations.RnegRscaleEffect : Prop :=
  ∀ (s : State) (rd ra wb : Idx), s.Inv →
    let q := s.cfg.q.toNat
    let A := s.re.get ra
    let x := s.ringData ra
    fieldsOf (encode (.rneg rd ra)) = { opc := 0x4B, d := rd, a := ra, b := 0, imm := 0 } ∧
    fieldsOf (encode (.rscale rd ra wb)) = { opc := 0x4C, d := rd, a := ra, b := wb, imm := 0 } ∧
    (A.bound = false → Faults (.rneg rd ra) s .invalidHandle [] ∧ Faults (.rscale rd ra wb) s .invalidHandle []) ∧
    (A.bound = true → q ≤ (s.readW wb).toNat → Faults (.rscale rd ra wb) s .nonCanonical [wb]) ∧
    (A.bound = true →
      ∃ t d, exec (.rneg rd ra) s = .next t ∧ Binds s t rd A.ctx A.st d [] ∧ d.length = s.ringDegree ra ∧
        ∀ j < s.ringDegree ra, (d.getD j 0).toNat = (q - (x.getD j 0).toNat) % q) ∧
    (A.bound = true → (s.readW wb).toNat < q →
      ∃ t d, exec (.rscale rd ra wb) s = .next t ∧ Binds s t rd A.ctx A.st d [wb] ∧ d.length = s.ringDegree ra ∧
        ∀ j < s.ringDegree ra, (d.getD j 0).toNat = (x.getD j 0).toNat * (s.readW wb).toNat * radixInv q % q)

/-- 43 R337: REQ sets VEQ to whether the coefficient views agree, and to 0 for different context identities, and changes no
slot; it faults INVALID_HANDLE only. -/
def Obligations.ReqEffect : Prop :=
  ∀ (s : State) (ra rb : Idx),
    let A := s.re.get ra
    let B := s.re.get rb
    fieldsOf (encode (.req ra rb)) = { opc := 0x4D, d := 0, a := ra, b := rb, imm := 0 } ∧
    (A.bound = false ∨ B.bound = false → Faults (.req ra rb) s .invalidHandle []) ∧
    (A.bound = true → B.bound = true → A.cid ≠ B.cid →
      exec (.req ra rb) s = .next { s with flags := { s.flags with veq := false }, cmdcount := s.cmdcount + 1 }) ∧
    (A.bound = true → B.bound = true → A.cid = B.cid →
      exec (.req ra rb) s = .next { s with
        flags := { s.flags with veq := decide (s.coefView ra = s.coefView rb) }, cmdcount := s.cmdcount + 1 })

/-- 43 R338, R339: RGETC and RGETN write element idx of ra, which must be in Coefficient and in Ntt state; their faults in
order. -/
def Obligations.RgetcRgetnEffect : Prop :=
  ∀ (s : State) (wd ra : Idx) (idx : Imm12),
    let A := s.re.get ra
    fieldsOf (encode (.rgetc wd ra idx)) = { opc := 0x4E, d := wd, a := ra, b := 0, imm := idx } ∧
    fieldsOf (encode (.rgetn wd ra idx)) = { opc := 0x4F, d := wd, a := ra, b := 0, imm := idx } ∧
    (A.bound = false →
      Faults (.rgetc wd ra idx) s .invalidHandle [] ∧ Faults (.rgetn wd ra idx) s .invalidHandle []) ∧
    (A.bound = true →
      (A.st = .ntt → Faults (.rgetc wd ra idx) s .invalidState []) ∧
      (A.st = .coefficient → Faults (.rgetn wd ra idx) s .invalidState []) ∧
      (A.st = .coefficient → s.ringDegree ra ≤ idx.toNat → Faults (.rgetc wd ra idx) s .indexRange []) ∧
      (A.st = .ntt → s.ringDegree ra ≤ idx.toNat → Faults (.rgetn wd ra idx) s .indexRange []) ∧
      (A.st = .coefficient → idx.toNat < s.ringDegree ra →
        ∃ t, exec (.rgetc wd ra idx) s = .next t ∧ WritesW s t [wd] [] s.flags ∧ t.readW wd = A.data.getD idx.toNat 0) ∧
      (A.st = .ntt → idx.toNat < s.ringDegree ra →
        ∃ t, exec (.rgetn wd ra idx) s = .next t ∧ WritesW s t [wd] [] s.flags ∧ t.readW wd = A.data.getD idx.toNat 0))

end Slice0
end

