-- ==== Sys2Proof/Laws/Arith.lean ====
section
/-! SUPPORT. What the arithmetic functions compute: limbs, select, squarings, the Montgomery reduction, and the
canonical results of the field datapath (spec 41 R213, R223, R224). -/
namespace Sys2Proof.Machine

/-! ## The radix -/

theorem radix_pos : 0 < radix := Nat.two_pow_pos 1024

theorem word_lt_radix (v : Word) : v.toNat < radix := v.isLt

/-! ## Squarings -/

/-- `k` squarings give the power 2^k. -/
theorem squareTimes_eq (m x k : Nat) : squareTimes m x k = x ^ 2 ^ k % m := by
  induction k with
  | zero => simp [squareTimes]
  | succ k ih => rw [squareTimes, ih, ← Nat.pow_mod, ← pow_mul, ← pow_succ]

/-! ## Bit reversal -/

theorem brv_lt (b k : Nat) : brv b k < 2 ^ b := by
  induction b generalizing k with
  | zero => simp [brv]
  | succ b ih =>
    have h := ih (k / 2)
    have h2 : k % 2 = 0 ∨ k % 2 = 1 := by omega
    rw [brv, pow_succ]
    rcases h2 with h2 | h2 <;> rw [h2] <;> omega

/-! ## What a valid configuration says -/

theorem cfgOk_odd {c : FieldCfg} (h : cfgOk c = true) : c.q.toNat % 2 = 1 := by
  simp only [cfgOk, Bool.and_eq_true, decide_eq_true_eq] at h; exact h.1.1.1.1.1.1.1

theorem cfgOk_three_le {c : FieldCfg} (h : cfgOk c = true) : 3 ≤ c.q.toNat := by
  simp only [cfgOk, Bool.and_eq_true, decide_eq_true_eq] at h; exact h.1.1.1.1.1.1.2

theorem cfgOk_r1 {c : FieldCfg} (h : cfgOk c = true) : c.r1.toNat = radix % c.q.toNat := by
  simp only [cfgOk, Bool.and_eq_true, decide_eq_true_eq] at h; exact h.1.1.1.1.1.2.1

theorem cfgOk_r2 {c : FieldCfg} (h : cfgOk c = true) : c.r2.toNat = 2 ^ 2048 % c.q.toNat := by
  simp only [cfgOk, Bool.and_eq_true, decide_eq_true_eq] at h; exact h.1.1.1.1.1.2.2

theorem cfgOk_qprime {c : FieldCfg} (h : cfgOk c = true) : (c.q.toNat * c.qprime.toNat + 1) % radix = 0 := by
  simp only [cfgOk, Bool.and_eq_true, decide_eq_true_eq] at h; exact h.1.1.1.1.2

theorem cfgOk_s_range {c : FieldCfg} (h : cfgOk c = true) : 1 ≤ c.s.toNat ∧ c.s.toNat ≤ 1023 := by
  simp only [cfgOk, Bool.and_eq_true, decide_eq_true_eq] at h; exact h.1.1.1.2

theorem cfgOk_s_dvd {c : FieldCfg} (h : cfgOk c = true) : 2 ^ c.s.toNat ∣ c.q.toNat - 1 := by
  simp only [cfgOk, Bool.and_eq_true, decide_eq_true_eq] at h; exact Nat.dvd_of_mod_eq_zero h.1.1.2

theorem cfgOk_root_lt {c : FieldCfg} (h : cfgOk c = true) : c.root.toNat < c.q.toNat := by
  simp only [cfgOk, Bool.and_eq_true, decide_eq_true_eq] at h; exact h.1.2

/-- The root check in the form of 41 R205: ROOT^(2^(S−1)) mod q = q − 1. -/
theorem cfgOk_root {c : FieldCfg} (h : cfgOk c = true) :
    c.root.toNat ^ 2 ^ (c.s.toNat - 1) % c.q.toNat = c.q.toNat - 1 := by
  simp only [cfgOk, Bool.and_eq_true, decide_eq_true_eq] at h
  rw [← squareTimes_eq]; exact h.2

theorem cfgOk_q_pos {c : FieldCfg} (h : cfgOk c = true) : 0 < c.q.toNat := by
  have := cfgOk_three_le h; omega

/-- The radix is coprime to an odd modulus. -/
theorem cfgOk_coprime {c : FieldCfg} (h : cfgOk c = true) : Nat.Coprime radix c.q.toNat := by
  have h2 : Nat.Coprime 2 c.q.toNat := by
    rw [Nat.coprime_two_left, Nat.odd_iff]; exact cfgOk_odd h
  exact h2.pow_left 1024

/-! ## Montgomery reduction -/

/-- The multiple of q that REDC adds makes the sum divisible by the radix. -/
theorem redc_dvd {r q q' : Nat} (t : Nat) (h : (q * q' + 1) % r = 0) : r ∣ t + t % r * q' % r * q := by
  have h1 : t + t % r * q' % r * q ≡ t + t * q' * q [MOD r] := by
    apply Nat.ModEq.add_left
    apply Nat.ModEq.mul_right
    exact (Nat.mod_modEq _ _).trans ((Nat.mod_modEq _ _).mul_right _)
  have h2 : t + t * q' * q = t * (q * q' + 1) := by ring
  rw [h2] at h1
  exact (Nat.modEq_zero_iff_dvd).1 (h1.trans ((Nat.modEq_zero_iff_dvd).2
    (Dvd.dvd.mul_left (Nat.dvd_of_mod_eq_zero h) t)))

/-- The value of REDC, before it is packed: the corrected quotient is below the radix, so nothing is cut off. -/
theorem redc_toNat (c : FieldCfg) (t : Nat) (ht : t < radix * radix) :
    (redc c t).toNat =
      let u := (t + t % radix * c.qprime.toNat % radix * c.q.toNat) / radix
      if c.q.toNat ≤ u then u - c.q.toNat else u := by
  have hq : c.q.toNat < radix := word_lt_radix c.q
  have hm : t % radix * c.qprime.toNat % radix < radix := Nat.mod_lt _ radix_pos
  generalize hmm : t % radix * c.qprime.toNat % radix = m at hm
  have hu : (t + m * c.q.toNat) / radix < radix + c.q.toNat := by
    rw [Nat.div_lt_iff_lt_mul radix_pos]; nlinarith
  simp only [redc, hmm, BitVec.toNat_ofNat]
  apply Nat.mod_eq_of_lt
  show _ < radix
  split <;> omega

/-- REDC(t) · R ≡ t (mod q): 41 R213 item 1. -/
theorem redc_mul_radix {c : FieldCfg} (h : cfgOk c = true) {t : Nat} (ht : t < radix * radix) :
    (redc c t).toNat * radix % c.q.toNat = t % c.q.toNat := by
  rw [redc_toNat c t ht]
  have hd := redc_dvd t (cfgOk_qprime h)
  generalize t % radix * c.qprime.toNat % radix = m at hd
  have he : (t + m * c.q.toNat) / radix * radix = t + m * c.q.toNat := Nat.div_mul_cancel hd
  generalize (t + m * c.q.toNat) / radix = u at he
  show (if c.q.toNat ≤ u then u - c.q.toNat else u) * radix % c.q.toNat = t % c.q.toNat
  split
  · rename_i hle
    have : (u - c.q.toNat) * radix + c.q.toNat * radix = t + m * c.q.toNat := by
      rw [← Nat.add_mul, Nat.sub_add_cancel hle, he]
    calc (u - c.q.toNat) * radix % c.q.toNat
        = ((u - c.q.toNat) * radix + c.q.toNat * radix) % c.q.toNat := by rw [Nat.add_mul_mod_self_left]
      _ = t % c.q.toNat := by rw [this, Nat.add_mul_mod_self_right]
  · rw [he, Nat.add_mul_mod_self_right]

/-- REDC of a value below q · R is canonical: 41 R213 item 2. -/
theorem redc_lt {c : FieldCfg} {t : Nat} (ht : t < c.q.toNat * radix) : (redc c t).toNat < c.q.toNat := by
  have hq : c.q.toNat < radix := word_lt_radix c.q
  have ht2 : t < radix * radix := lt_of_lt_of_le ht (Nat.mul_le_mul_right _ hq.le)
  rw [redc_toNat c t ht2]
  have hm : t % radix * c.qprime.toNat % radix < radix := Nat.mod_lt _ radix_pos
  generalize t % radix * c.qprime.toNat % radix = m at hm
  have hu : (t + m * c.q.toNat) / radix < 2 * c.q.toNat := by
    rw [Nat.div_lt_iff_lt_mul radix_pos]
    calc t + m * c.q.toNat < c.q.toNat * radix + radix * c.q.toNat :=
          Nat.add_lt_add_of_lt_of_le ht (Nat.mul_le_mul_right _ hm.le)
      _ = 2 * c.q.toNat * radix := by ring
  generalize (t + m * c.q.toNat) / radix = u at hu
  show (if c.q.toNat ≤ u then u - c.q.toNat else u) < c.q.toNat
  split <;> omega

/-! ## Field operations -/

theorem canonical_iff (c : FieldCfg) (v : Word) : canonical c v = true ↔ v.toNat < c.q.toNat := by
  simp [canonical]

theorem fmul_lt {c : FieldCfg} {a : Word} (ha : a.toNat < c.q.toNat) (b : Word) :
    (fmul c a b).toNat < c.q.toNat := by
  apply redc_lt
  exact Nat.mul_lt_mul_of_lt_of_le ha (word_lt_radix b).le radix_pos

theorem fmul_lt_right {c : FieldCfg} (a : Word) {b : Word} (hb : b.toNat < c.q.toNat) :
    (fmul c a b).toNat < c.q.toNat := by
  apply redc_lt
  rw [wideProduct, Nat.mul_comm]
  exact Nat.mul_lt_mul_of_lt_of_le hb (word_lt_radix a).le radix_pos

/-- FMUL(a, b) · R ≡ a · b (mod q). -/
theorem fmul_mul_radix {c : FieldCfg} (h : cfgOk c = true) (a b : Word) :
    (fmul c a b).toNat * radix % c.q.toNat = a.toNat * b.toNat % c.q.toNat :=
  redc_mul_radix h (Nat.mul_lt_mul'' (word_lt_radix a) (word_lt_radix b))

/-- The corrected sum, when the 1024-bit sum carries out or reaches q. -/
theorem sum_corrected {r q a b : Nat} (hq : q < r) (ha : a < q) (hb : b < q) (h : q ≤ a + b) :
    (r - q + (a + b) % r) % r = (a + b) % q := by
  have e2 : (a + b) % q = a + b - q := by rw [Nat.mod_eq_sub_mod h, Nat.mod_eq_of_lt (by omega)]
  rw [e2]
  by_cases hc : r ≤ a + b
  · rw [Nat.mod_eq_sub_mod hc, Nat.mod_eq_of_lt (a := a + b - r) (by omega), Nat.mod_eq_of_lt (by omega)]; omega
  · rw [Nat.mod_eq_of_lt (a := a + b) (by omega), show r - q + (a + b) = (a + b - q) + r by omega,
      Nat.add_mod_right, Nat.mod_eq_of_lt (by omega)]

/-- The datapath of FADD on canonical operands gives (a + b) mod q (41 R223). -/
theorem fadd_toNat {c : FieldCfg} {a b : Word} (ha : a.toNat < c.q.toNat) (hb : b.toNat < c.q.toNat) :
    (fadd c a b).toNat = (a.toNat + b.toNat) % c.q.toNat := by
  have hq : c.q.toNat < radix := word_lt_radix c.q
  have hsum : (a + b).toNat = (a.toNat + b.toNat) % radix := BitVec.toNat_add a b
  have hsub : (a + b - c.q).toNat = (radix - c.q.toNat + (a + b).toNat) % radix := BitVec.toNat_sub _ _
  rw [hsum] at hsub
  simp only [fadd, carryingAdd, borrowingSub]
  by_cases hc : radix ≤ a.toNat + b.toNat
  · simp only [decide_eq_true hc, Bool.true_or, if_true]
    rw [hsub, sum_corrected hq ha hb (hq.le.trans hc)]
  · rw [Nat.mod_eq_of_lt (Nat.lt_of_not_le hc)] at hsum
    simp only [decide_eq_false hc, Bool.false_or, hsum]
    by_cases hlt : a.toNat + b.toNat < c.q.toNat
    · simp [hlt, hsum, Nat.mod_eq_of_lt hlt]
    · simp only [hlt, decide_false, Bool.not_false, if_true]
      rw [hsub, sum_corrected hq ha hb (Nat.le_of_not_lt hlt)]

/-- The datapath of FSUB on canonical operands gives (a − b) mod q (41 R223). -/
theorem fsub_toNat {c : FieldCfg} {a b : Word} (ha : a.toNat < c.q.toNat) (hb : b.toNat < c.q.toNat) :
    (fsub c a b).toNat = (a.toNat + (c.q.toNat - b.toNat)) % c.q.toNat := by
  have hq : c.q.toNat < radix := word_lt_radix c.q
  have hsub : (a - b).toNat = (radix - b.toNat + a.toNat) % radix := BitVec.toNat_sub a b
  have hadd : (a - b + c.q).toNat = ((a - b).toNat + c.q.toNat) % radix := BitVec.toNat_add _ _
  simp only [fsub, carryingAdd, borrowingSub]
  obtain ⟨r, hr⟩ : ∃ r, r = radix := ⟨_, rfl⟩
  simp only [← hr] at hq hsub hadd
  clear hr
  by_cases hlt : a.toNat < b.toNat
  · simp only [hlt, decide_true, if_true]
    have e1 : (r - b.toNat + a.toNat) % r = r - b.toNat + a.toNat := Nat.mod_eq_of_lt (by omega)
    rw [hadd, hsub, e1, show r - b.toNat + a.toNat + c.q.toNat = (a.toNat + (c.q.toNat - b.toNat)) + r by omega,
      Nat.add_mod_right, Nat.mod_eq_of_lt (by omega), Nat.mod_eq_of_lt (by omega)]
  · simp only [hlt, decide_false, Bool.false_eq_true, if_false]
    rw [hsub, show r - b.toNat + a.toNat = (a.toNat - b.toNat) + r by omega, Nat.add_mod_right,
      Nat.mod_eq_of_lt (by omega),
      show a.toNat + (c.q.toNat - b.toNat) = (a.toNat - b.toNat) + c.q.toNat by omega, Nat.add_mod_right,
      Nat.mod_eq_of_lt (by omega)]

theorem fadd_lt {c : FieldCfg} {a b : Word} (ha : a.toNat < c.q.toNat) (hb : b.toNat < c.q.toNat) :
    (fadd c a b).toNat < c.q.toNat := by
  rw [fadd_toNat ha hb]; exact Nat.mod_lt _ (by omega)

theorem fsub_lt {c : FieldCfg} {a b : Word} (ha : a.toNat < c.q.toNat) (hb : b.toNat < c.q.toNat) :
    (fsub c a b).toNat < c.q.toNat := by
  rw [fsub_toNat ha hb]; exact Nat.mod_lt _ (by omega)

/-- FNEG maps 0 to 0 and a ≠ 0 to q − a (41 R219). -/
theorem fneg_toNat {c : FieldCfg} {a : Word} (ha : a.toNat < c.q.toNat) :
    (fneg c a).toNat = (c.q.toNat - a.toNat) % c.q.toNat := by
  have hle : a ≤ c.q := by rw [BitVec.le_def]; omega
  simp [fneg, BitVec.toNat_sub_of_le hle]

theorem fneg_lt {c : FieldCfg} {a : Word} (ha : a.toNat < c.q.toNat) : (fneg c a).toNat < c.q.toNat := by
  rw [fneg_toNat ha]; exact Nat.mod_lt _ (by omega)

/-- FENC gives a canonical representative, whatever its operand (41 R214). -/
theorem fenc_lt {c : FieldCfg} (h : cfgOk c = true) (x : Word) : (fenc c x).toNat < c.q.toNat := by
  apply fmul_lt_right
  rw [cfgOk_r2 h]; exact Nat.mod_lt _ (cfgOk_q_pos h)

theorem fdec_lt {c : FieldCfg} (h : cfgOk c = true) (a : Word) : (fdec c a).toNat < c.q.toNat := by
  apply redc_lt
  calc a.toNat < 1 * radix := by simpa using word_lt_radix a
    _ ≤ c.q.toNat * radix := Nat.mul_le_mul_right _ (cfgOk_q_pos h)

/-- FDEC(a) · R ≡ a (mod q). -/
theorem fdec_mul_radix {c : FieldCfg} (h : cfgOk c = true) (a : Word) :
    (fdec c a).toNat * radix % c.q.toNat = a.toNat % c.q.toNat := by
  apply redc_mul_radix h
  calc a.toNat < 1 * radix := by simpa using word_lt_radix a
    _ ≤ radix * radix := Nat.mul_le_mul_right _ radix_pos

/-! ## Limbs -/

theorem putLimb_getLsbD (v : Word) (k : Nat) (x : Limb) (i : Nat) (hi : i < 1024) :
    (putLimb v k x).getLsbD i = if 64 * k ≤ i ∧ i < 64 * k + 64 then x.getLsbD (i - 64 * k) else v.getLsbD i := by
  simp only [putLimb, BitVec.getLsbD_or, BitVec.getLsbD_and, BitVec.getLsbD_not, BitVec.getLsbD_shiftLeft,
    BitVec.getLsbD_setWidth, BitVec.getLsbD_allOnes]
  by_cases h1 : i < 64 * k
  · have : ¬(64 * k ≤ i) := by omega
    simp [h1, this, hi]
  · by_cases h2 : i < 64 * k + 64
    · have h3 : i - 64 * k < 64 := by omega
      have h4 : 64 * k ≤ i := by omega
      have h5 : i - 64 * k < 1024 := by omega
      simp [h1, h2, h3, h4, h5, hi]
    · have h3 : ¬ (i - 64 * k < 64) := by omega
      have h6 : x.getLsbD (i - 64 * k) = false := BitVec.getLsbD_of_ge _ _ (by omega)
      simp [h1, h2, h3, h6, hi]

/-- The limb just written is read back. -/
theorem limb_putLimb_same (v : Word) {k : Nat} (hk : k < 16) (x : Limb) : limb (putLimb v k x) k = x := by
  apply BitVec.eq_of_getLsbD_eq
  intro i hi
  have h : i < 64 := hi
  rw [limb, BitVec.getLsbD_extractLsb', putLimb_getLsbD _ _ _ _ (by omega)]
  simp [h]

/-- A limb write leaves the other limbs. -/
theorem limb_putLimb_ne (v : Word) {k j : Nat} (hj : j < 16) (hne : j ≠ k) (x : Limb) :
    limb (putLimb v k x) j = limb v j := by
  apply BitVec.eq_of_getLsbD_eq
  intro i hi
  have h : i < 64 := hi
  rw [limb, limb, BitVec.getLsbD_extractLsb', BitVec.getLsbD_extractLsb', putLimb_getLsbD _ _ _ _ (by omega)]
  have : ¬(64 * k ≤ 64 * j + i ∧ 64 * j + i < 64 * k + 64) := by omega
  simp [this]

theorem ofLimbs_getLsbD (f : Nat → Limb) (n : Nat) (hn : n ≤ 16) (i : Nat) :
    (ofLimbs f n).getLsbD i = if i < 64 * n then (f (i / 64)).getLsbD (i % 64) else false := by
  induction n with
  | zero => simp [ofLimbs]
  | succ n ih =>
    rw [ofLimbs, BitVec.getLsbD_or, ih (by omega), BitVec.getLsbD_shiftLeft, BitVec.getLsbD_setWidth]
    by_cases h1 : i < 64 * n
    · have : i < 64 * (n + 1) := by omega
      simp [h1, this]
    · by_cases h2 : i < 64 * (n + 1)
      · have h3 : i / 64 = n := by omega
        have h4 : i % 64 = i - 64 * n := by omega
        have h5 : i < 1024 := by omega
        have h6 : i - 64 * n < 1024 := by omega
        simp [h1, h2, h3, h4, h5, h6]
      · have h3 : (f n).getLsbD (i - 64 * n) = false := BitVec.getLsbD_of_ge _ _ (by omega)
        simp [h1, h2, h3]

theorem limb_ofLimbs (f : Nat → Limb) {n k : Nat} (hn : n ≤ 16) (hk : k < n) : limb (ofLimbs f n) k = f k := by
  apply BitVec.eq_of_getLsbD_eq
  intro i hi
  have h : i < 64 := hi
  have h2 : 64 * k + i < 64 * n := by omega
  have h3 : (64 * k + i) / 64 = k := by omega
  have h4 : (64 * k + i) % 64 = i := by omega
  rw [limb, BitVec.getLsbD_extractLsb', ofLimbs_getLsbD f n hn]
  simp [h, h2, h3, h4]

/-- A wide word is made of its limbs (00 R12). -/
theorem ofLimbs_limb (v : Word) : ofLimbs (limb v) 16 = v := by
  apply BitVec.eq_of_getLsbD_eq
  intro i hi
  rw [ofLimbs_getLsbD _ _ (by omega), limb, BitVec.getLsbD_extractLsb']
  have h1 : i < 64 * 16 := hi
  have h2 : i % 64 < 64 := Nat.mod_lt _ (by omega)
  have h3 : 64 * (i / 64) + i % 64 = i := by omega
  simp [h1, h2, h3]

/-! ## Select -/

/-- The masked select is a choice of one of the two operands (40 R166). -/
theorem selectWord_eq (choice : Bool) (a b : Word) : selectWord choice a b = if choice then b else a := by
  have h : (0 : Word) - (BitVec.ofBool choice).setWidth 1024 = if choice then BitVec.allOnes 1024 else 0 := by
    cases choice <;> decide +kernel
  rw [selectWord, h]
  apply BitVec.eq_of_getLsbD_eq
  intro i hi
  cases choice <;>
    simp only [if_true, if_false, Bool.false_eq_true, BitVec.getLsbD_or, BitVec.getLsbD_and, BitVec.getLsbD_not,
      BitVec.getLsbD_allOnes, BitVec.ofNat_eq_ofNat, BitVec.getLsbD_zero, hi, decide_true, Bool.not_false, Bool.not_true,
      Bool.and_true, Bool.and_false, Bool.or_false, Bool.false_or]

end Sys2Proof.Machine
end

