-- ==== Sys2Proof/Laws/Bank.lean ====
section
/-! SUPPORT. Reading a register bank after a write. -/
namespace Sys2Proof

@[simp] theorem Bank.get_put_same {α : Type} (b : Bank α) (i : Idx) (x : α) : (b.put i x).get i = x := by
  simp [Bank.get, Bank.put]

theorem Bank.get_put_ne {α : Type} (b : Bank α) {i j : Idx} (x : α) (h : j ≠ i) : (b.put i x).get j = b.get j := by
  have hn : i.toNat ≠ j.toNat := fun e => h (BitVec.eq_of_toNat_eq e.symm)
  simp [Bank.get, Bank.put, hn]

theorem Bank.get_put {α : Type} (b : Bank α) (i j : Idx) (x : α) :
    (b.put i x).get j = if j = i then x else b.get j := by
  by_cases h : j = i
  · subst h; simp
  · simp [h, Bank.get_put_ne]

@[simp] theorem Bank.get_tabulate {α : Type} (f : Nat → α) (i : Idx) : (Bank.tabulate f).get i = f i.toNat := by
  simp [Bank.get, Bank.tabulate]

@[simp] theorem Bank.put_put {α : Type} (b : Bank α) (i : Idx) (x y : α) : (b.put i x).put i y = b.put i y := by
  simp [Bank.put]

@[simp] theorem Bank.put_get {α : Type} (b : Bank α) (i : Idx) : b.put i (b.get i) = b := by
  simp [Bank.get, Bank.put]

/-- Two banks that agree at every index are equal. -/
theorem Bank.ext {α : Type} {a b : Bank α} (h : ∀ i : Idx, a.get i = b.get i) : a = b := by
  apply Vector.ext
  intro i hi
  have := h (BitVec.ofNat 4 i)
  have e : (BitVec.ofNat 4 i).toNat = i := by simp; omega
  simpa [Bank.get, e] using this

end Sys2Proof
end

