-- ==== Sys2Proof/Laws/Encoding.lean ====
section
/-! SUPPORT. The fields of a packed command word (spec 30 R121), and the CMD value of an instruction (30 R120). -/
namespace Sys2Proof

/-- Packing loses no field (30 R121). -/
@[simp] theorem fieldsOf_pack (opc : BitVec 8) (d a b : Idx) (imm : Imm12) :
    fieldsOf (pack opc d a b imm) = { opc := opc, d := d, a := a, b := b, imm := imm } := by
  have h : ∀ (n k : Nat) (x : BitVec k) (y : BitVec n), BitVec.extractLsb' n k (x ++ y) = x := by
    intro n k x y
    apply BitVec.eq_of_getLsbD_eq
    intro i hi
    rw [BitVec.getLsbD_extractLsb', BitVec.getLsbD_append]
    simp [hi]
  have l : ∀ (m n k s : Nat) (x : BitVec m) (y : BitVec n), s + k ≤ n →
      BitVec.extractLsb' s k (x ++ y) = BitVec.extractLsb' s k y := by
    intro m n k s x y hs
    apply BitVec.eq_of_getLsbD_eq
    intro i hi
    rw [BitVec.getLsbD_extractLsb', BitVec.getLsbD_append, BitVec.getLsbD_extractLsb']
    simp [show s + i < n by omega]
  have u : ∀ (m n k s : Nat) (x : BitVec m) (y : BitVec n), n ≤ s →
      BitVec.extractLsb' s k (x ++ y) = BitVec.extractLsb' (s - n) k x := by
    intro m n k s x y hs
    apply BitVec.eq_of_getLsbD_eq
    intro i hi
    rw [BitVec.getLsbD_extractLsb', BitVec.getLsbD_append, BitVec.getLsbD_extractLsb']
    simp [show ¬(s + i < n) by omega, show s + i - n = s - n + i by omega]
  have f : ∀ (k : Nat) (x : BitVec k), BitVec.extractLsb' 0 k x = x := by
    intro k x
    apply BitVec.eq_of_getLsbD_eq
    intro i hi
    rw [BitVec.getLsbD_extractLsb']; simp [hi]
  unfold fieldsOf pack
  rw [u _ 12 8 24 _ imm (by omega), u _ 4 8 _ _ b (by omega), u _ 4 8 _ _ a (by omega), u _ 4 8 _ _ d (by omega), f,
    u _ 12 4 20 _ imm (by omega), u _ 4 4 _ _ b (by omega), u _ 4 4 _ _ a (by omega), l _ 4 4 _ _ d (by omega), f,
    u _ 12 4 16 _ imm (by omega), u _ 4 4 _ _ b (by omega), l _ 4 4 _ _ a (by omega), f,
    u _ 12 4 12 _ imm (by omega), l _ 4 4 _ _ b (by omega), f,
    l _ 12 12 0 _ imm (by omega), f]

/-- The lower half of a CMD value made of a word is the word. -/
@[simp] theorem Instr.cmdValue_low (i : Instr) : i.cmdValue.extractLsb' 0 32 = encode i := by
  apply BitVec.eq_of_getLsbD_eq
  intro k hk
  rw [Instr.cmdValue, BitVec.getLsbD_extractLsb', BitVec.getLsbD_append]
  simp [hk]

/-- The upper half of the CMD value of an instruction is 0 (30 R120). -/
@[simp] theorem Instr.cmdValue_high (i : Instr) : i.cmdValue.extractLsb' 32 32 = 0 := by
  apply BitVec.eq_of_getLsbD_eq
  intro k hk
  rw [Instr.cmdValue, BitVec.getLsbD_extractLsb', BitVec.getLsbD_append]
  simp

@[simp] theorem CfgSel.ofImm_toImm (sel : CfgSel) : CfgSel.ofImm sel.toImm = some sel := by cases sel <;> rfl

/-- The field E of a WMUL word (30 R121). -/
@[simp] theorem wmul_e (x : Idx) : (x ++ 0#8).extractLsb' 8 4 = x := by revert x; decide

@[simp] theorem wmul_low (x : Idx) : (x ++ 0#8).extractLsb' 0 8 = 0 := by revert x; decide

/-- The decoder reads the row of the operation code, and that row's checks decide (30 R129). -/
theorem decode_cmdValue (p : Params) (i : Instr) {r : Row} (hr : rowOf (fieldsOf (encode i)).opc = some r) :
    decode p i.cmdValue = r.decode p (fieldsOf (encode i)) := by
  simp [decode, hr]

end Sys2Proof
end

