-- ==== Sys2Proof/Laws/State.lean ====
section
/-! SUPPORT. One lemma per field of State and per update, and the derived readers under the updates that leave what they read
alone. All hold by rfl. -/
namespace Sys2Proof.Machine

/-! ### writeW -/

@[simp] theorem State.writeW_params (s : State) (i : Idx) (v : Word) : (s.writeW i v).params = s.params := rfl
@[simp] theorem State.writeW_rstn (s : State) (i : Idx) (v : Word) : (s.writeW i v).rstn = s.rstn := rfl
@[simp] theorem State.writeW_w (s : State) (i : Idx) (v : Word) : (s.writeW i v).w = s.w.put i v := rfl
@[simp] theorem State.writeW_written (s : State) (i : Idx) (v : Word) : (s.writeW i v).written = s.written.put i (BitVec.allOnes 16) := rfl
@[simp] theorem State.writeW_flags (s : State) (i : Idx) (v : Word) : (s.writeW i v).flags = s.flags := rfl
@[simp] theorem State.writeW_cmdcount (s : State) (i : Idx) (v : Word) : (s.writeW i v).cmdcount = s.cmdcount := rfl
@[simp] theorem State.writeW_status (s : State) (i : Idx) (v : Word) : (s.writeW i v).status = s.status := rfl
@[simp] theorem State.writeW_irqen (s : State) (i : Idx) (v : Word) : (s.writeW i v).irqen = s.irqen := rfl
@[simp] theorem State.writeW_faultcmd (s : State) (i : Idx) (v : Word) : (s.writeW i v).faultcmd = s.faultcmd := rfl
@[simp] theorem State.writeW_faultseq (s : State) (i : Idx) (v : Word) : (s.writeW i v).faultseq = s.faultseq := rfl
@[simp] theorem State.writeW_cfg (s : State) (i : Idx) (v : Word) : (s.writeW i v).cfg = s.cfg := rfl
@[simp] theorem State.writeW_cx (s : State) (i : Idx) (v : Word) : (s.writeW i v).cx = s.cx := rfl
@[simp] theorem State.writeW_nextCid (s : State) (i : Idx) (v : Word) : (s.writeW i v).nextCid = s.nextCid := rfl
@[simp] theorem State.writeW_re (s : State) (i : Idx) (v : Word) : (s.writeW i v).re = s.re := rfl
@[simp] theorem State.writeW_stage (s : State) (i : Idx) (v : Word) : (s.writeW i v).stage = s.stage := rfl
@[simp] theorem State.writeW_slen (s : State) (i : Idx) (v : Word) : (s.writeW i v).slen = s.slen := rfl
@[simp] theorem State.writeW_host (s : State) (i : Idx) (v : Word) : (s.writeW i v).host = s.host := rfl
@[simp] theorem State.writeW_reply (s : State) (i : Idx) (v : Word) : (s.writeW i v).reply = s.reply := rfl
@[simp] theorem State.writeW_programFault (s : State) (i : Idx) (v : Word) : (s.writeW i v).programFault = s.programFault := rfl
@[simp] theorem State.writeW_draws (s : State) (i : Idx) (v : Word) : (s.writeW i v).draws = s.draws := rfl
@[simp] theorem State.writeW_wDraw (s : State) (i : Idx) (v : Word) : (s.writeW i v).wDraw = s.wDraw := rfl

/-! ### writeLimb -/

@[simp] theorem State.writeLimb_params (s : State) (i : Idx) (k : Nat) (x : Limb) : (s.writeLimb i k x).params = s.params := rfl
@[simp] theorem State.writeLimb_rstn (s : State) (i : Idx) (k : Nat) (x : Limb) : (s.writeLimb i k x).rstn = s.rstn := rfl
@[simp] theorem State.writeLimb_w (s : State) (i : Idx) (k : Nat) (x : Limb) : (s.writeLimb i k x).w = s.w.put i (putLimb (s.w.get i) k x) := rfl
@[simp] theorem State.writeLimb_written (s : State) (i : Idx) (k : Nat) (x : Limb) : (s.writeLimb i k x).written = s.written.put i (s.written.get i ||| (1#16 <<< k)) := rfl
@[simp] theorem State.writeLimb_flags (s : State) (i : Idx) (k : Nat) (x : Limb) : (s.writeLimb i k x).flags = s.flags := rfl
@[simp] theorem State.writeLimb_cmdcount (s : State) (i : Idx) (k : Nat) (x : Limb) : (s.writeLimb i k x).cmdcount = s.cmdcount := rfl
@[simp] theorem State.writeLimb_status (s : State) (i : Idx) (k : Nat) (x : Limb) : (s.writeLimb i k x).status = s.status := rfl
@[simp] theorem State.writeLimb_irqen (s : State) (i : Idx) (k : Nat) (x : Limb) : (s.writeLimb i k x).irqen = s.irqen := rfl
@[simp] theorem State.writeLimb_faultcmd (s : State) (i : Idx) (k : Nat) (x : Limb) : (s.writeLimb i k x).faultcmd = s.faultcmd := rfl
@[simp] theorem State.writeLimb_faultseq (s : State) (i : Idx) (k : Nat) (x : Limb) : (s.writeLimb i k x).faultseq = s.faultseq := rfl
@[simp] theorem State.writeLimb_cfg (s : State) (i : Idx) (k : Nat) (x : Limb) : (s.writeLimb i k x).cfg = s.cfg := rfl
@[simp] theorem State.writeLimb_cx (s : State) (i : Idx) (k : Nat) (x : Limb) : (s.writeLimb i k x).cx = s.cx := rfl
@[simp] theorem State.writeLimb_nextCid (s : State) (i : Idx) (k : Nat) (x : Limb) : (s.writeLimb i k x).nextCid = s.nextCid := rfl
@[simp] theorem State.writeLimb_re (s : State) (i : Idx) (k : Nat) (x : Limb) : (s.writeLimb i k x).re = s.re := rfl
@[simp] theorem State.writeLimb_stage (s : State) (i : Idx) (k : Nat) (x : Limb) : (s.writeLimb i k x).stage = s.stage := rfl
@[simp] theorem State.writeLimb_slen (s : State) (i : Idx) (k : Nat) (x : Limb) : (s.writeLimb i k x).slen = s.slen := rfl
@[simp] theorem State.writeLimb_host (s : State) (i : Idx) (k : Nat) (x : Limb) : (s.writeLimb i k x).host = s.host := rfl
@[simp] theorem State.writeLimb_reply (s : State) (i : Idx) (k : Nat) (x : Limb) : (s.writeLimb i k x).reply = s.reply := rfl
@[simp] theorem State.writeLimb_programFault (s : State) (i : Idx) (k : Nat) (x : Limb) : (s.writeLimb i k x).programFault = s.programFault := rfl
@[simp] theorem State.writeLimb_draws (s : State) (i : Idx) (k : Nat) (x : Limb) : (s.writeLimb i k x).draws = s.draws := rfl
@[simp] theorem State.writeLimb_wDraw (s : State) (i : Idx) (k : Nat) (x : Limb) : (s.writeLimb i k x).wDraw = s.wDraw := rfl

/-! ### noteReads -/

@[simp] theorem State.noteReads_params (s : State) (is : List Idx) : (s.noteReads is).params = s.params := rfl
@[simp] theorem State.noteReads_rstn (s : State) (is : List Idx) : (s.noteReads is).rstn = s.rstn := rfl
@[simp] theorem State.noteReads_w (s : State) (is : List Idx) : (s.noteReads is).w = s.w := rfl
@[simp] theorem State.noteReads_written (s : State) (is : List Idx) : (s.noteReads is).written = s.written := rfl
@[simp] theorem State.noteReads_flags (s : State) (is : List Idx) : (s.noteReads is).flags = s.flags := rfl
@[simp] theorem State.noteReads_cmdcount (s : State) (is : List Idx) : (s.noteReads is).cmdcount = s.cmdcount := rfl
@[simp] theorem State.noteReads_status (s : State) (is : List Idx) : (s.noteReads is).status = s.status := rfl
@[simp] theorem State.noteReads_irqen (s : State) (is : List Idx) : (s.noteReads is).irqen = s.irqen := rfl
@[simp] theorem State.noteReads_faultcmd (s : State) (is : List Idx) : (s.noteReads is).faultcmd = s.faultcmd := rfl
@[simp] theorem State.noteReads_faultseq (s : State) (is : List Idx) : (s.noteReads is).faultseq = s.faultseq := rfl
@[simp] theorem State.noteReads_cfg (s : State) (is : List Idx) : (s.noteReads is).cfg = s.cfg := rfl
@[simp] theorem State.noteReads_cx (s : State) (is : List Idx) : (s.noteReads is).cx = s.cx := rfl
@[simp] theorem State.noteReads_nextCid (s : State) (is : List Idx) : (s.noteReads is).nextCid = s.nextCid := rfl
@[simp] theorem State.noteReads_re (s : State) (is : List Idx) : (s.noteReads is).re = s.re := rfl
@[simp] theorem State.noteReads_stage (s : State) (is : List Idx) : (s.noteReads is).stage = s.stage := rfl
@[simp] theorem State.noteReads_slen (s : State) (is : List Idx) : (s.noteReads is).slen = s.slen := rfl
@[simp] theorem State.noteReads_host (s : State) (is : List Idx) : (s.noteReads is).host = s.host := rfl
@[simp] theorem State.noteReads_reply (s : State) (is : List Idx) : (s.noteReads is).reply = s.reply := rfl
@[simp] theorem State.noteReads_programFault (s : State) (is : List Idx) : (s.noteReads is).programFault = (s.programFault || is.any (fun i => !s.isWritten i)) := rfl
@[simp] theorem State.noteReads_draws (s : State) (is : List Idx) : (s.noteReads is).draws = s.draws := rfl
@[simp] theorem State.noteReads_wDraw (s : State) (is : List Idx) : (s.noteReads is).wDraw = s.wDraw := rfl

/-! ### noteLimbRead -/

@[simp] theorem State.noteLimbRead_params (s : State) (i : Idx) (k : Nat) : (s.noteLimbRead i k).params = s.params := rfl
@[simp] theorem State.noteLimbRead_rstn (s : State) (i : Idx) (k : Nat) : (s.noteLimbRead i k).rstn = s.rstn := rfl
@[simp] theorem State.noteLimbRead_w (s : State) (i : Idx) (k : Nat) : (s.noteLimbRead i k).w = s.w := rfl
@[simp] theorem State.noteLimbRead_written (s : State) (i : Idx) (k : Nat) : (s.noteLimbRead i k).written = s.written := rfl
@[simp] theorem State.noteLimbRead_flags (s : State) (i : Idx) (k : Nat) : (s.noteLimbRead i k).flags = s.flags := rfl
@[simp] theorem State.noteLimbRead_cmdcount (s : State) (i : Idx) (k : Nat) : (s.noteLimbRead i k).cmdcount = s.cmdcount := rfl
@[simp] theorem State.noteLimbRead_status (s : State) (i : Idx) (k : Nat) : (s.noteLimbRead i k).status = s.status := rfl
@[simp] theorem State.noteLimbRead_irqen (s : State) (i : Idx) (k : Nat) : (s.noteLimbRead i k).irqen = s.irqen := rfl
@[simp] theorem State.noteLimbRead_faultcmd (s : State) (i : Idx) (k : Nat) : (s.noteLimbRead i k).faultcmd = s.faultcmd := rfl
@[simp] theorem State.noteLimbRead_faultseq (s : State) (i : Idx) (k : Nat) : (s.noteLimbRead i k).faultseq = s.faultseq := rfl
@[simp] theorem State.noteLimbRead_cfg (s : State) (i : Idx) (k : Nat) : (s.noteLimbRead i k).cfg = s.cfg := rfl
@[simp] theorem State.noteLimbRead_cx (s : State) (i : Idx) (k : Nat) : (s.noteLimbRead i k).cx = s.cx := rfl
@[simp] theorem State.noteLimbRead_nextCid (s : State) (i : Idx) (k : Nat) : (s.noteLimbRead i k).nextCid = s.nextCid := rfl
@[simp] theorem State.noteLimbRead_re (s : State) (i : Idx) (k : Nat) : (s.noteLimbRead i k).re = s.re := rfl
@[simp] theorem State.noteLimbRead_stage (s : State) (i : Idx) (k : Nat) : (s.noteLimbRead i k).stage = s.stage := rfl
@[simp] theorem State.noteLimbRead_slen (s : State) (i : Idx) (k : Nat) : (s.noteLimbRead i k).slen = s.slen := rfl
@[simp] theorem State.noteLimbRead_host (s : State) (i : Idx) (k : Nat) : (s.noteLimbRead i k).host = s.host := rfl
@[simp] theorem State.noteLimbRead_reply (s : State) (i : Idx) (k : Nat) : (s.noteLimbRead i k).reply = s.reply := rfl
@[simp] theorem State.noteLimbRead_programFault (s : State) (i : Idx) (k : Nat) : (s.noteLimbRead i k).programFault = (s.programFault || !(s.written.get i).getLsbD k) := rfl
@[simp] theorem State.noteLimbRead_draws (s : State) (i : Idx) (k : Nat) : (s.noteLimbRead i k).draws = s.draws := rfl
@[simp] theorem State.noteLimbRead_wDraw (s : State) (i : Idx) (k : Nat) : (s.noteLimbRead i k).wDraw = s.wDraw := rfl

/-! ### recordFault -/

@[simp] theorem State.recordFault_params (s : State) (code : ErrCode) (v : BitVec 64) : (s.recordFault code v).params = s.params := rfl
@[simp] theorem State.recordFault_rstn (s : State) (code : ErrCode) (v : BitVec 64) : (s.recordFault code v).rstn = s.rstn := rfl
@[simp] theorem State.recordFault_w (s : State) (code : ErrCode) (v : BitVec 64) : (s.recordFault code v).w = s.w := rfl
@[simp] theorem State.recordFault_written (s : State) (code : ErrCode) (v : BitVec 64) : (s.recordFault code v).written = s.written := rfl
@[simp] theorem State.recordFault_flags (s : State) (code : ErrCode) (v : BitVec 64) : (s.recordFault code v).flags = s.flags := rfl
@[simp] theorem State.recordFault_cmdcount (s : State) (code : ErrCode) (v : BitVec 64) : (s.recordFault code v).cmdcount = s.cmdcount := rfl
@[simp] theorem State.recordFault_status (s : State) (code : ErrCode) (v : BitVec 64) : (s.recordFault code v).status = { s.status with fault := true, err := code } := rfl
@[simp] theorem State.recordFault_irqen (s : State) (code : ErrCode) (v : BitVec 64) : (s.recordFault code v).irqen = s.irqen := rfl
@[simp] theorem State.recordFault_faultcmd (s : State) (code : ErrCode) (v : BitVec 64) : (s.recordFault code v).faultcmd = v := rfl
@[simp] theorem State.recordFault_faultseq (s : State) (code : ErrCode) (v : BitVec 64) : (s.recordFault code v).faultseq = s.cmdcount := rfl
@[simp] theorem State.recordFault_cfg (s : State) (code : ErrCode) (v : BitVec 64) : (s.recordFault code v).cfg = s.cfg := rfl
@[simp] theorem State.recordFault_cx (s : State) (code : ErrCode) (v : BitVec 64) : (s.recordFault code v).cx = s.cx := rfl
@[simp] theorem State.recordFault_nextCid (s : State) (code : ErrCode) (v : BitVec 64) : (s.recordFault code v).nextCid = s.nextCid := rfl
@[simp] theorem State.recordFault_re (s : State) (code : ErrCode) (v : BitVec 64) : (s.recordFault code v).re = s.re := rfl
@[simp] theorem State.recordFault_stage (s : State) (code : ErrCode) (v : BitVec 64) : (s.recordFault code v).stage = s.stage := rfl
@[simp] theorem State.recordFault_slen (s : State) (code : ErrCode) (v : BitVec 64) : (s.recordFault code v).slen = s.slen := rfl
@[simp] theorem State.recordFault_host (s : State) (code : ErrCode) (v : BitVec 64) : (s.recordFault code v).host = s.host := rfl
@[simp] theorem State.recordFault_reply (s : State) (code : ErrCode) (v : BitVec 64) : (s.recordFault code v).reply = s.reply := rfl
@[simp] theorem State.recordFault_programFault (s : State) (code : ErrCode) (v : BitVec 64) : (s.recordFault code v).programFault = s.programFault := rfl
@[simp] theorem State.recordFault_draws (s : State) (code : ErrCode) (v : BitVec 64) : (s.recordFault code v).draws = s.draws := rfl
@[simp] theorem State.recordFault_wDraw (s : State) (code : ErrCode) (v : BitVec 64) : (s.recordFault code v).wDraw = s.wDraw := rfl

/-! ### clearFault -/

@[simp] theorem State.clearFault_params (s : State) : (s.clearFault).params = s.params := rfl
@[simp] theorem State.clearFault_rstn (s : State) : (s.clearFault).rstn = s.rstn := rfl
@[simp] theorem State.clearFault_w (s : State) : (s.clearFault).w = s.w := rfl
@[simp] theorem State.clearFault_written (s : State) : (s.clearFault).written = s.written := rfl
@[simp] theorem State.clearFault_flags (s : State) : (s.clearFault).flags = s.flags := rfl
@[simp] theorem State.clearFault_cmdcount (s : State) : (s.clearFault).cmdcount = s.cmdcount := rfl
@[simp] theorem State.clearFault_status (s : State) : (s.clearFault).status = { s.status with fault := false, err := .none } := rfl
@[simp] theorem State.clearFault_irqen (s : State) : (s.clearFault).irqen = s.irqen := rfl
@[simp] theorem State.clearFault_faultcmd (s : State) : (s.clearFault).faultcmd = s.faultcmd := rfl
@[simp] theorem State.clearFault_faultseq (s : State) : (s.clearFault).faultseq = s.faultseq := rfl
@[simp] theorem State.clearFault_cfg (s : State) : (s.clearFault).cfg = s.cfg := rfl
@[simp] theorem State.clearFault_cx (s : State) : (s.clearFault).cx = s.cx := rfl
@[simp] theorem State.clearFault_nextCid (s : State) : (s.clearFault).nextCid = s.nextCid := rfl
@[simp] theorem State.clearFault_re (s : State) : (s.clearFault).re = s.re := rfl
@[simp] theorem State.clearFault_stage (s : State) : (s.clearFault).stage = s.stage := rfl
@[simp] theorem State.clearFault_slen (s : State) : (s.clearFault).slen = s.slen := rfl
@[simp] theorem State.clearFault_host (s : State) : (s.clearFault).host = s.host := rfl
@[simp] theorem State.clearFault_reply (s : State) : (s.clearFault).reply = s.reply := rfl
@[simp] theorem State.clearFault_programFault (s : State) : (s.clearFault).programFault = s.programFault := rfl
@[simp] theorem State.clearFault_draws (s : State) : (s.clearFault).draws = s.draws := rfl
@[simp] theorem State.clearFault_wDraw (s : State) : (s.clearFault).wDraw = s.wDraw := rfl

/-! ### complete -/

@[simp] theorem State.complete_params (s : State) : (s.complete).params = s.params := rfl
@[simp] theorem State.complete_rstn (s : State) : (s.complete).rstn = s.rstn := rfl
@[simp] theorem State.complete_w (s : State) : (s.complete).w = s.w := rfl
@[simp] theorem State.complete_written (s : State) : (s.complete).written = s.written := rfl
@[simp] theorem State.complete_flags (s : State) : (s.complete).flags = s.flags := rfl
@[simp] theorem State.complete_cmdcount (s : State) : (s.complete).cmdcount = s.cmdcount + 1 := rfl
@[simp] theorem State.complete_status (s : State) : (s.complete).status = s.status := rfl
@[simp] theorem State.complete_irqen (s : State) : (s.complete).irqen = s.irqen := rfl
@[simp] theorem State.complete_faultcmd (s : State) : (s.complete).faultcmd = s.faultcmd := rfl
@[simp] theorem State.complete_faultseq (s : State) : (s.complete).faultseq = s.faultseq := rfl
@[simp] theorem State.complete_cfg (s : State) : (s.complete).cfg = s.cfg := rfl
@[simp] theorem State.complete_cx (s : State) : (s.complete).cx = s.cx := rfl
@[simp] theorem State.complete_nextCid (s : State) : (s.complete).nextCid = s.nextCid := rfl
@[simp] theorem State.complete_re (s : State) : (s.complete).re = s.re := rfl
@[simp] theorem State.complete_stage (s : State) : (s.complete).stage = s.stage := rfl
@[simp] theorem State.complete_slen (s : State) : (s.complete).slen = s.slen := rfl
@[simp] theorem State.complete_host (s : State) : (s.complete).host = s.host := rfl
@[simp] theorem State.complete_reply (s : State) : (s.complete).reply = s.reply := rfl
@[simp] theorem State.complete_programFault (s : State) : (s.complete).programFault = s.programFault := rfl
@[simp] theorem State.complete_draws (s : State) : (s.complete).draws = s.draws := rfl
@[simp] theorem State.complete_wDraw (s : State) : (s.complete).wDraw = s.wDraw := rfl

/-! ### setCF -/

@[simp] theorem State.setCF_params (s : State) (b : Bool) : (s.setCF b).params = s.params := rfl
@[simp] theorem State.setCF_rstn (s : State) (b : Bool) : (s.setCF b).rstn = s.rstn := rfl
@[simp] theorem State.setCF_w (s : State) (b : Bool) : (s.setCF b).w = s.w := rfl
@[simp] theorem State.setCF_written (s : State) (b : Bool) : (s.setCF b).written = s.written := rfl
@[simp] theorem State.setCF_flags (s : State) (b : Bool) : (s.setCF b).flags = { s.flags with cf := b } := rfl
@[simp] theorem State.setCF_cmdcount (s : State) (b : Bool) : (s.setCF b).cmdcount = s.cmdcount := rfl
@[simp] theorem State.setCF_status (s : State) (b : Bool) : (s.setCF b).status = s.status := rfl
@[simp] theorem State.setCF_irqen (s : State) (b : Bool) : (s.setCF b).irqen = s.irqen := rfl
@[simp] theorem State.setCF_faultcmd (s : State) (b : Bool) : (s.setCF b).faultcmd = s.faultcmd := rfl
@[simp] theorem State.setCF_faultseq (s : State) (b : Bool) : (s.setCF b).faultseq = s.faultseq := rfl
@[simp] theorem State.setCF_cfg (s : State) (b : Bool) : (s.setCF b).cfg = s.cfg := rfl
@[simp] theorem State.setCF_cx (s : State) (b : Bool) : (s.setCF b).cx = s.cx := rfl
@[simp] theorem State.setCF_nextCid (s : State) (b : Bool) : (s.setCF b).nextCid = s.nextCid := rfl
@[simp] theorem State.setCF_re (s : State) (b : Bool) : (s.setCF b).re = s.re := rfl
@[simp] theorem State.setCF_stage (s : State) (b : Bool) : (s.setCF b).stage = s.stage := rfl
@[simp] theorem State.setCF_slen (s : State) (b : Bool) : (s.setCF b).slen = s.slen := rfl
@[simp] theorem State.setCF_host (s : State) (b : Bool) : (s.setCF b).host = s.host := rfl
@[simp] theorem State.setCF_reply (s : State) (b : Bool) : (s.setCF b).reply = s.reply := rfl
@[simp] theorem State.setCF_programFault (s : State) (b : Bool) : (s.setCF b).programFault = s.programFault := rfl
@[simp] theorem State.setCF_draws (s : State) (b : Bool) : (s.setCF b).draws = s.draws := rfl
@[simp] theorem State.setCF_wDraw (s : State) (b : Bool) : (s.setCF b).wDraw = s.wDraw := rfl

/-! ### setCompare -/

@[simp] theorem State.setCompare_params (s : State) (a b : Word) : (s.setCompare a b).params = s.params := rfl
@[simp] theorem State.setCompare_rstn (s : State) (a b : Word) : (s.setCompare a b).rstn = s.rstn := rfl
@[simp] theorem State.setCompare_w (s : State) (a b : Word) : (s.setCompare a b).w = s.w := rfl
@[simp] theorem State.setCompare_written (s : State) (a b : Word) : (s.setCompare a b).written = s.written := rfl
@[simp] theorem State.setCompare_flags (s : State) (a b : Word) : (s.setCompare a b).flags = { s.flags with lt := decide (a.toNat < b.toNat), eq := decide (a = b), gt := decide (b.toNat < a.toNat) } := rfl
@[simp] theorem State.setCompare_cmdcount (s : State) (a b : Word) : (s.setCompare a b).cmdcount = s.cmdcount := rfl
@[simp] theorem State.setCompare_status (s : State) (a b : Word) : (s.setCompare a b).status = s.status := rfl
@[simp] theorem State.setCompare_irqen (s : State) (a b : Word) : (s.setCompare a b).irqen = s.irqen := rfl
@[simp] theorem State.setCompare_faultcmd (s : State) (a b : Word) : (s.setCompare a b).faultcmd = s.faultcmd := rfl
@[simp] theorem State.setCompare_faultseq (s : State) (a b : Word) : (s.setCompare a b).faultseq = s.faultseq := rfl
@[simp] theorem State.setCompare_cfg (s : State) (a b : Word) : (s.setCompare a b).cfg = s.cfg := rfl
@[simp] theorem State.setCompare_cx (s : State) (a b : Word) : (s.setCompare a b).cx = s.cx := rfl
@[simp] theorem State.setCompare_nextCid (s : State) (a b : Word) : (s.setCompare a b).nextCid = s.nextCid := rfl
@[simp] theorem State.setCompare_re (s : State) (a b : Word) : (s.setCompare a b).re = s.re := rfl
@[simp] theorem State.setCompare_stage (s : State) (a b : Word) : (s.setCompare a b).stage = s.stage := rfl
@[simp] theorem State.setCompare_slen (s : State) (a b : Word) : (s.setCompare a b).slen = s.slen := rfl
@[simp] theorem State.setCompare_host (s : State) (a b : Word) : (s.setCompare a b).host = s.host := rfl
@[simp] theorem State.setCompare_reply (s : State) (a b : Word) : (s.setCompare a b).reply = s.reply := rfl
@[simp] theorem State.setCompare_programFault (s : State) (a b : Word) : (s.setCompare a b).programFault = s.programFault := rfl
@[simp] theorem State.setCompare_draws (s : State) (a b : Word) : (s.setCompare a b).draws = s.draws := rfl
@[simp] theorem State.setCompare_wDraw (s : State) (a b : Word) : (s.setCompare a b).wDraw = s.wDraw := rfl

/-! ### setVEQ -/

@[simp] theorem State.setVEQ_params (s : State) (b : Bool) : (s.setVEQ b).params = s.params := rfl
@[simp] theorem State.setVEQ_rstn (s : State) (b : Bool) : (s.setVEQ b).rstn = s.rstn := rfl
@[simp] theorem State.setVEQ_w (s : State) (b : Bool) : (s.setVEQ b).w = s.w := rfl
@[simp] theorem State.setVEQ_written (s : State) (b : Bool) : (s.setVEQ b).written = s.written := rfl
@[simp] theorem State.setVEQ_flags (s : State) (b : Bool) : (s.setVEQ b).flags = { s.flags with veq := b } := rfl
@[simp] theorem State.setVEQ_cmdcount (s : State) (b : Bool) : (s.setVEQ b).cmdcount = s.cmdcount := rfl
@[simp] theorem State.setVEQ_status (s : State) (b : Bool) : (s.setVEQ b).status = s.status := rfl
@[simp] theorem State.setVEQ_irqen (s : State) (b : Bool) : (s.setVEQ b).irqen = s.irqen := rfl
@[simp] theorem State.setVEQ_faultcmd (s : State) (b : Bool) : (s.setVEQ b).faultcmd = s.faultcmd := rfl
@[simp] theorem State.setVEQ_faultseq (s : State) (b : Bool) : (s.setVEQ b).faultseq = s.faultseq := rfl
@[simp] theorem State.setVEQ_cfg (s : State) (b : Bool) : (s.setVEQ b).cfg = s.cfg := rfl
@[simp] theorem State.setVEQ_cx (s : State) (b : Bool) : (s.setVEQ b).cx = s.cx := rfl
@[simp] theorem State.setVEQ_nextCid (s : State) (b : Bool) : (s.setVEQ b).nextCid = s.nextCid := rfl
@[simp] theorem State.setVEQ_re (s : State) (b : Bool) : (s.setVEQ b).re = s.re := rfl
@[simp] theorem State.setVEQ_stage (s : State) (b : Bool) : (s.setVEQ b).stage = s.stage := rfl
@[simp] theorem State.setVEQ_slen (s : State) (b : Bool) : (s.setVEQ b).slen = s.slen := rfl
@[simp] theorem State.setVEQ_host (s : State) (b : Bool) : (s.setVEQ b).host = s.host := rfl
@[simp] theorem State.setVEQ_reply (s : State) (b : Bool) : (s.setVEQ b).reply = s.reply := rfl
@[simp] theorem State.setVEQ_programFault (s : State) (b : Bool) : (s.setVEQ b).programFault = s.programFault := rfl
@[simp] theorem State.setVEQ_draws (s : State) (b : Bool) : (s.setVEQ b).draws = s.draws := rfl
@[simp] theorem State.setVEQ_wDraw (s : State) (b : Bool) : (s.setVEQ b).wDraw = s.wDraw := rfl

/-! ### putCtx -/

@[simp] theorem State.putCtx_params (s : State) (c : Idx) (x : Ctx) : (s.putCtx c x).params = s.params := rfl
@[simp] theorem State.putCtx_rstn (s : State) (c : Idx) (x : Ctx) : (s.putCtx c x).rstn = s.rstn := rfl
@[simp] theorem State.putCtx_w (s : State) (c : Idx) (x : Ctx) : (s.putCtx c x).w = s.w := rfl
@[simp] theorem State.putCtx_written (s : State) (c : Idx) (x : Ctx) : (s.putCtx c x).written = s.written := rfl
@[simp] theorem State.putCtx_flags (s : State) (c : Idx) (x : Ctx) : (s.putCtx c x).flags = s.flags := rfl
@[simp] theorem State.putCtx_cmdcount (s : State) (c : Idx) (x : Ctx) : (s.putCtx c x).cmdcount = s.cmdcount := rfl
@[simp] theorem State.putCtx_status (s : State) (c : Idx) (x : Ctx) : (s.putCtx c x).status = s.status := rfl
@[simp] theorem State.putCtx_irqen (s : State) (c : Idx) (x : Ctx) : (s.putCtx c x).irqen = s.irqen := rfl
@[simp] theorem State.putCtx_faultcmd (s : State) (c : Idx) (x : Ctx) : (s.putCtx c x).faultcmd = s.faultcmd := rfl
@[simp] theorem State.putCtx_faultseq (s : State) (c : Idx) (x : Ctx) : (s.putCtx c x).faultseq = s.faultseq := rfl
@[simp] theorem State.putCtx_cfg (s : State) (c : Idx) (x : Ctx) : (s.putCtx c x).cfg = s.cfg := rfl
@[simp] theorem State.putCtx_cx (s : State) (c : Idx) (x : Ctx) : (s.putCtx c x).cx = s.cx.put c x := rfl
@[simp] theorem State.putCtx_nextCid (s : State) (c : Idx) (x : Ctx) : (s.putCtx c x).nextCid = s.nextCid := rfl
@[simp] theorem State.putCtx_re (s : State) (c : Idx) (x : Ctx) : (s.putCtx c x).re = s.re := rfl
@[simp] theorem State.putCtx_stage (s : State) (c : Idx) (x : Ctx) : (s.putCtx c x).stage = s.stage := rfl
@[simp] theorem State.putCtx_slen (s : State) (c : Idx) (x : Ctx) : (s.putCtx c x).slen = s.slen := rfl
@[simp] theorem State.putCtx_host (s : State) (c : Idx) (x : Ctx) : (s.putCtx c x).host = s.host := rfl
@[simp] theorem State.putCtx_reply (s : State) (c : Idx) (x : Ctx) : (s.putCtx c x).reply = s.reply := rfl
@[simp] theorem State.putCtx_programFault (s : State) (c : Idx) (x : Ctx) : (s.putCtx c x).programFault = s.programFault := rfl
@[simp] theorem State.putCtx_draws (s : State) (c : Idx) (x : Ctx) : (s.putCtx c x).draws = s.draws := rfl
@[simp] theorem State.putCtx_wDraw (s : State) (c : Idx) (x : Ctx) : (s.putCtx c x).wDraw = s.wDraw := rfl

/-! ### newCtx -/

@[simp] theorem State.newCtx_params (s : State) (c : Idx) (n : Nat) : (s.newCtx c n).params = s.params := rfl
@[simp] theorem State.newCtx_rstn (s : State) (c : Idx) (n : Nat) : (s.newCtx c n).rstn = s.rstn := rfl
@[simp] theorem State.newCtx_w (s : State) (c : Idx) (n : Nat) : (s.newCtx c n).w = s.w := rfl
@[simp] theorem State.newCtx_written (s : State) (c : Idx) (n : Nat) : (s.newCtx c n).written = s.written := rfl
@[simp] theorem State.newCtx_flags (s : State) (c : Idx) (n : Nat) : (s.newCtx c n).flags = s.flags := rfl
@[simp] theorem State.newCtx_cmdcount (s : State) (c : Idx) (n : Nat) : (s.newCtx c n).cmdcount = s.cmdcount := rfl
@[simp] theorem State.newCtx_status (s : State) (c : Idx) (n : Nat) : (s.newCtx c n).status = s.status := rfl
@[simp] theorem State.newCtx_irqen (s : State) (c : Idx) (n : Nat) : (s.newCtx c n).irqen = s.irqen := rfl
@[simp] theorem State.newCtx_faultcmd (s : State) (c : Idx) (n : Nat) : (s.newCtx c n).faultcmd = s.faultcmd := rfl
@[simp] theorem State.newCtx_faultseq (s : State) (c : Idx) (n : Nat) : (s.newCtx c n).faultseq = s.faultseq := rfl
@[simp] theorem State.newCtx_cfg (s : State) (c : Idx) (n : Nat) : (s.newCtx c n).cfg = s.cfg := rfl
@[simp] theorem State.newCtx_cx (s : State) (c : Idx) (n : Nat) : (s.newCtx c n).cx = s.cx.put c (Ctx.build s.cfg s.nextCid n) := rfl
@[simp] theorem State.newCtx_nextCid (s : State) (c : Idx) (n : Nat) : (s.newCtx c n).nextCid = s.nextCid + 1 := rfl
@[simp] theorem State.newCtx_re (s : State) (c : Idx) (n : Nat) : (s.newCtx c n).re = s.re := rfl
@[simp] theorem State.newCtx_stage (s : State) (c : Idx) (n : Nat) : (s.newCtx c n).stage = s.stage := rfl
@[simp] theorem State.newCtx_slen (s : State) (c : Idx) (n : Nat) : (s.newCtx c n).slen = s.slen := rfl
@[simp] theorem State.newCtx_host (s : State) (c : Idx) (n : Nat) : (s.newCtx c n).host = s.host := rfl
@[simp] theorem State.newCtx_reply (s : State) (c : Idx) (n : Nat) : (s.newCtx c n).reply = s.reply := rfl
@[simp] theorem State.newCtx_programFault (s : State) (c : Idx) (n : Nat) : (s.newCtx c n).programFault = s.programFault := rfl
@[simp] theorem State.newCtx_draws (s : State) (c : Idx) (n : Nat) : (s.newCtx c n).draws = s.draws := rfl
@[simp] theorem State.newCtx_wDraw (s : State) (c : Idx) (n : Nat) : (s.newCtx c n).wDraw = s.wDraw := rfl

/-! ### freeCtx -/

@[simp] theorem State.freeCtx_params (s : State) (c : Idx) : (s.freeCtx c).params = s.params := rfl
@[simp] theorem State.freeCtx_rstn (s : State) (c : Idx) : (s.freeCtx c).rstn = s.rstn := rfl
@[simp] theorem State.freeCtx_w (s : State) (c : Idx) : (s.freeCtx c).w = s.w := rfl
@[simp] theorem State.freeCtx_written (s : State) (c : Idx) : (s.freeCtx c).written = s.written := rfl
@[simp] theorem State.freeCtx_flags (s : State) (c : Idx) : (s.freeCtx c).flags = s.flags := rfl
@[simp] theorem State.freeCtx_cmdcount (s : State) (c : Idx) : (s.freeCtx c).cmdcount = s.cmdcount := rfl
@[simp] theorem State.freeCtx_status (s : State) (c : Idx) : (s.freeCtx c).status = s.status := rfl
@[simp] theorem State.freeCtx_irqen (s : State) (c : Idx) : (s.freeCtx c).irqen = s.irqen := rfl
@[simp] theorem State.freeCtx_faultcmd (s : State) (c : Idx) : (s.freeCtx c).faultcmd = s.faultcmd := rfl
@[simp] theorem State.freeCtx_faultseq (s : State) (c : Idx) : (s.freeCtx c).faultseq = s.faultseq := rfl
@[simp] theorem State.freeCtx_cfg (s : State) (c : Idx) : (s.freeCtx c).cfg = s.cfg := rfl
@[simp] theorem State.freeCtx_cx (s : State) (c : Idx) : (s.freeCtx c).cx = s.cx.put c (Ctx.cleared s.params.nmax s.draws c.toNat) := rfl
@[simp] theorem State.freeCtx_nextCid (s : State) (c : Idx) : (s.freeCtx c).nextCid = s.nextCid := rfl
@[simp] theorem State.freeCtx_re (s : State) (c : Idx) : (s.freeCtx c).re = s.re := rfl
@[simp] theorem State.freeCtx_stage (s : State) (c : Idx) : (s.freeCtx c).stage = s.stage := rfl
@[simp] theorem State.freeCtx_slen (s : State) (c : Idx) : (s.freeCtx c).slen = s.slen := rfl
@[simp] theorem State.freeCtx_host (s : State) (c : Idx) : (s.freeCtx c).host = s.host := rfl
@[simp] theorem State.freeCtx_reply (s : State) (c : Idx) : (s.freeCtx c).reply = s.reply := rfl
@[simp] theorem State.freeCtx_programFault (s : State) (c : Idx) : (s.freeCtx c).programFault = s.programFault := rfl
@[simp] theorem State.freeCtx_draws (s : State) (c : Idx) : (s.freeCtx c).draws = s.draws + 1 := rfl
@[simp] theorem State.freeCtx_wDraw (s : State) (c : Idx) : (s.freeCtx c).wDraw = s.wDraw := rfl

/-! ### acquire -/

@[simp] theorem State.acquire_params (s : State) (c : Idx) : (s.acquire c).params = s.params := rfl
@[simp] theorem State.acquire_rstn (s : State) (c : Idx) : (s.acquire c).rstn = s.rstn := rfl
@[simp] theorem State.acquire_w (s : State) (c : Idx) : (s.acquire c).w = s.w := rfl
@[simp] theorem State.acquire_written (s : State) (c : Idx) : (s.acquire c).written = s.written := rfl
@[simp] theorem State.acquire_flags (s : State) (c : Idx) : (s.acquire c).flags = s.flags := rfl
@[simp] theorem State.acquire_cmdcount (s : State) (c : Idx) : (s.acquire c).cmdcount = s.cmdcount := rfl
@[simp] theorem State.acquire_status (s : State) (c : Idx) : (s.acquire c).status = s.status := rfl
@[simp] theorem State.acquire_irqen (s : State) (c : Idx) : (s.acquire c).irqen = s.irqen := rfl
@[simp] theorem State.acquire_faultcmd (s : State) (c : Idx) : (s.acquire c).faultcmd = s.faultcmd := rfl
@[simp] theorem State.acquire_faultseq (s : State) (c : Idx) : (s.acquire c).faultseq = s.faultseq := rfl
@[simp] theorem State.acquire_cfg (s : State) (c : Idx) : (s.acquire c).cfg = s.cfg := rfl
@[simp] theorem State.acquire_cx (s : State) (c : Idx) : (s.acquire c).cx = s.cx.put c { s.cx.get c with refcnt := (s.cx.get c).refcnt + 1 } := rfl
@[simp] theorem State.acquire_nextCid (s : State) (c : Idx) : (s.acquire c).nextCid = s.nextCid := rfl
@[simp] theorem State.acquire_re (s : State) (c : Idx) : (s.acquire c).re = s.re := rfl
@[simp] theorem State.acquire_stage (s : State) (c : Idx) : (s.acquire c).stage = s.stage := rfl
@[simp] theorem State.acquire_slen (s : State) (c : Idx) : (s.acquire c).slen = s.slen := rfl
@[simp] theorem State.acquire_host (s : State) (c : Idx) : (s.acquire c).host = s.host := rfl
@[simp] theorem State.acquire_reply (s : State) (c : Idx) : (s.acquire c).reply = s.reply := rfl
@[simp] theorem State.acquire_programFault (s : State) (c : Idx) : (s.acquire c).programFault = s.programFault := rfl
@[simp] theorem State.acquire_draws (s : State) (c : Idx) : (s.acquire c).draws = s.draws := rfl
@[simp] theorem State.acquire_wDraw (s : State) (c : Idx) : (s.acquire c).wDraw = s.wDraw := rfl

/-! ### putRing -/

@[simp] theorem State.putRing_params (s : State) (r : Idx) (x : Ring) : (s.putRing r x).params = s.params := rfl
@[simp] theorem State.putRing_rstn (s : State) (r : Idx) (x : Ring) : (s.putRing r x).rstn = s.rstn := rfl
@[simp] theorem State.putRing_w (s : State) (r : Idx) (x : Ring) : (s.putRing r x).w = s.w := rfl
@[simp] theorem State.putRing_written (s : State) (r : Idx) (x : Ring) : (s.putRing r x).written = s.written := rfl
@[simp] theorem State.putRing_flags (s : State) (r : Idx) (x : Ring) : (s.putRing r x).flags = s.flags := rfl
@[simp] theorem State.putRing_cmdcount (s : State) (r : Idx) (x : Ring) : (s.putRing r x).cmdcount = s.cmdcount := rfl
@[simp] theorem State.putRing_status (s : State) (r : Idx) (x : Ring) : (s.putRing r x).status = s.status := rfl
@[simp] theorem State.putRing_irqen (s : State) (r : Idx) (x : Ring) : (s.putRing r x).irqen = s.irqen := rfl
@[simp] theorem State.putRing_faultcmd (s : State) (r : Idx) (x : Ring) : (s.putRing r x).faultcmd = s.faultcmd := rfl
@[simp] theorem State.putRing_faultseq (s : State) (r : Idx) (x : Ring) : (s.putRing r x).faultseq = s.faultseq := rfl
@[simp] theorem State.putRing_cfg (s : State) (r : Idx) (x : Ring) : (s.putRing r x).cfg = s.cfg := rfl
@[simp] theorem State.putRing_cx (s : State) (r : Idx) (x : Ring) : (s.putRing r x).cx = s.cx := rfl
@[simp] theorem State.putRing_nextCid (s : State) (r : Idx) (x : Ring) : (s.putRing r x).nextCid = s.nextCid := rfl
@[simp] theorem State.putRing_re (s : State) (r : Idx) (x : Ring) : (s.putRing r x).re = s.re.put r x := rfl
@[simp] theorem State.putRing_stage (s : State) (r : Idx) (x : Ring) : (s.putRing r x).stage = s.stage := rfl
@[simp] theorem State.putRing_slen (s : State) (r : Idx) (x : Ring) : (s.putRing r x).slen = s.slen := rfl
@[simp] theorem State.putRing_host (s : State) (r : Idx) (x : Ring) : (s.putRing r x).host = s.host := rfl
@[simp] theorem State.putRing_reply (s : State) (r : Idx) (x : Ring) : (s.putRing r x).reply = s.reply := rfl
@[simp] theorem State.putRing_programFault (s : State) (r : Idx) (x : Ring) : (s.putRing r x).programFault = s.programFault := rfl
@[simp] theorem State.putRing_draws (s : State) (r : Idx) (x : Ring) : (s.putRing r x).draws = s.draws := rfl
@[simp] theorem State.putRing_wDraw (s : State) (r : Idx) (x : Ring) : (s.putRing r x).wDraw = s.wDraw := rfl

/-! ### putData -/

@[simp] theorem State.putData_params (s : State) (r : Idx) (st : Rep) (d : List Word) : (s.putData r st d).params = s.params := rfl
@[simp] theorem State.putData_rstn (s : State) (r : Idx) (st : Rep) (d : List Word) : (s.putData r st d).rstn = s.rstn := rfl
@[simp] theorem State.putData_w (s : State) (r : Idx) (st : Rep) (d : List Word) : (s.putData r st d).w = s.w := rfl
@[simp] theorem State.putData_written (s : State) (r : Idx) (st : Rep) (d : List Word) : (s.putData r st d).written = s.written := rfl
@[simp] theorem State.putData_flags (s : State) (r : Idx) (st : Rep) (d : List Word) : (s.putData r st d).flags = s.flags := rfl
@[simp] theorem State.putData_cmdcount (s : State) (r : Idx) (st : Rep) (d : List Word) : (s.putData r st d).cmdcount = s.cmdcount := rfl
@[simp] theorem State.putData_status (s : State) (r : Idx) (st : Rep) (d : List Word) : (s.putData r st d).status = s.status := rfl
@[simp] theorem State.putData_irqen (s : State) (r : Idx) (st : Rep) (d : List Word) : (s.putData r st d).irqen = s.irqen := rfl
@[simp] theorem State.putData_faultcmd (s : State) (r : Idx) (st : Rep) (d : List Word) : (s.putData r st d).faultcmd = s.faultcmd := rfl
@[simp] theorem State.putData_faultseq (s : State) (r : Idx) (st : Rep) (d : List Word) : (s.putData r st d).faultseq = s.faultseq := rfl
@[simp] theorem State.putData_cfg (s : State) (r : Idx) (st : Rep) (d : List Word) : (s.putData r st d).cfg = s.cfg := rfl
@[simp] theorem State.putData_cx (s : State) (r : Idx) (st : Rep) (d : List Word) : (s.putData r st d).cx = s.cx := rfl
@[simp] theorem State.putData_nextCid (s : State) (r : Idx) (st : Rep) (d : List Word) : (s.putData r st d).nextCid = s.nextCid := rfl
@[simp] theorem State.putData_re (s : State) (r : Idx) (st : Rep) (d : List Word) : (s.putData r st d).re = s.re.put r { s.re.get r with st := st, data := overwrite (s.re.get r).data d } := rfl
@[simp] theorem State.putData_stage (s : State) (r : Idx) (st : Rep) (d : List Word) : (s.putData r st d).stage = s.stage := rfl
@[simp] theorem State.putData_slen (s : State) (r : Idx) (st : Rep) (d : List Word) : (s.putData r st d).slen = s.slen := rfl
@[simp] theorem State.putData_host (s : State) (r : Idx) (st : Rep) (d : List Word) : (s.putData r st d).host = s.host := rfl
@[simp] theorem State.putData_reply (s : State) (r : Idx) (st : Rep) (d : List Word) : (s.putData r st d).reply = s.reply := rfl
@[simp] theorem State.putData_programFault (s : State) (r : Idx) (st : Rep) (d : List Word) : (s.putData r st d).programFault = s.programFault := rfl
@[simp] theorem State.putData_draws (s : State) (r : Idx) (st : Rep) (d : List Word) : (s.putData r st d).draws = s.draws := rfl
@[simp] theorem State.putData_wDraw (s : State) (r : Idx) (st : Rep) (d : List Word) : (s.putData r st d).wDraw = s.wDraw := rfl

/-! ### pushStage -/

@[simp] theorem State.pushStage_params (s : State) (v : Word) : (s.pushStage v).params = s.params := rfl
@[simp] theorem State.pushStage_rstn (s : State) (v : Word) : (s.pushStage v).rstn = s.rstn := rfl
@[simp] theorem State.pushStage_w (s : State) (v : Word) : (s.pushStage v).w = s.w := rfl
@[simp] theorem State.pushStage_written (s : State) (v : Word) : (s.pushStage v).written = s.written := rfl
@[simp] theorem State.pushStage_flags (s : State) (v : Word) : (s.pushStage v).flags = s.flags := rfl
@[simp] theorem State.pushStage_cmdcount (s : State) (v : Word) : (s.pushStage v).cmdcount = s.cmdcount := rfl
@[simp] theorem State.pushStage_status (s : State) (v : Word) : (s.pushStage v).status = s.status := rfl
@[simp] theorem State.pushStage_irqen (s : State) (v : Word) : (s.pushStage v).irqen = s.irqen := rfl
@[simp] theorem State.pushStage_faultcmd (s : State) (v : Word) : (s.pushStage v).faultcmd = s.faultcmd := rfl
@[simp] theorem State.pushStage_faultseq (s : State) (v : Word) : (s.pushStage v).faultseq = s.faultseq := rfl
@[simp] theorem State.pushStage_cfg (s : State) (v : Word) : (s.pushStage v).cfg = s.cfg := rfl
@[simp] theorem State.pushStage_cx (s : State) (v : Word) : (s.pushStage v).cx = s.cx := rfl
@[simp] theorem State.pushStage_nextCid (s : State) (v : Word) : (s.pushStage v).nextCid = s.nextCid := rfl
@[simp] theorem State.pushStage_re (s : State) (v : Word) : (s.pushStage v).re = s.re := rfl
@[simp] theorem State.pushStage_stage (s : State) (v : Word) : (s.pushStage v).stage = s.stage.set s.slen v := rfl
@[simp] theorem State.pushStage_slen (s : State) (v : Word) : (s.pushStage v).slen = s.slen + 1 := rfl
@[simp] theorem State.pushStage_host (s : State) (v : Word) : (s.pushStage v).host = s.host := rfl
@[simp] theorem State.pushStage_reply (s : State) (v : Word) : (s.pushStage v).reply = s.reply := rfl
@[simp] theorem State.pushStage_programFault (s : State) (v : Word) : (s.pushStage v).programFault = s.programFault := rfl
@[simp] theorem State.pushStage_draws (s : State) (v : Word) : (s.pushStage v).draws = s.draws := rfl
@[simp] theorem State.pushStage_wDraw (s : State) (v : Word) : (s.pushStage v).wDraw = s.wDraw := rfl

/-! ### putStage -/

@[simp] theorem State.putStage_params (s : State) (d : List Word) : (s.putStage d).params = s.params := rfl
@[simp] theorem State.putStage_rstn (s : State) (d : List Word) : (s.putStage d).rstn = s.rstn := rfl
@[simp] theorem State.putStage_w (s : State) (d : List Word) : (s.putStage d).w = s.w := rfl
@[simp] theorem State.putStage_written (s : State) (d : List Word) : (s.putStage d).written = s.written := rfl
@[simp] theorem State.putStage_flags (s : State) (d : List Word) : (s.putStage d).flags = s.flags := rfl
@[simp] theorem State.putStage_cmdcount (s : State) (d : List Word) : (s.putStage d).cmdcount = s.cmdcount := rfl
@[simp] theorem State.putStage_status (s : State) (d : List Word) : (s.putStage d).status = s.status := rfl
@[simp] theorem State.putStage_irqen (s : State) (d : List Word) : (s.putStage d).irqen = s.irqen := rfl
@[simp] theorem State.putStage_faultcmd (s : State) (d : List Word) : (s.putStage d).faultcmd = s.faultcmd := rfl
@[simp] theorem State.putStage_faultseq (s : State) (d : List Word) : (s.putStage d).faultseq = s.faultseq := rfl
@[simp] theorem State.putStage_cfg (s : State) (d : List Word) : (s.putStage d).cfg = s.cfg := rfl
@[simp] theorem State.putStage_cx (s : State) (d : List Word) : (s.putStage d).cx = s.cx := rfl
@[simp] theorem State.putStage_nextCid (s : State) (d : List Word) : (s.putStage d).nextCid = s.nextCid := rfl
@[simp] theorem State.putStage_re (s : State) (d : List Word) : (s.putStage d).re = s.re := rfl
@[simp] theorem State.putStage_stage (s : State) (d : List Word) : (s.putStage d).stage = overwrite s.stage d := rfl
@[simp] theorem State.putStage_slen (s : State) (d : List Word) : (s.putStage d).slen = s.slen := rfl
@[simp] theorem State.putStage_host (s : State) (d : List Word) : (s.putStage d).host = s.host := rfl
@[simp] theorem State.putStage_reply (s : State) (d : List Word) : (s.putStage d).reply = s.reply := rfl
@[simp] theorem State.putStage_programFault (s : State) (d : List Word) : (s.putStage d).programFault = s.programFault := rfl
@[simp] theorem State.putStage_draws (s : State) (d : List Word) : (s.putStage d).draws = s.draws := rfl
@[simp] theorem State.putStage_wDraw (s : State) (d : List Word) : (s.putStage d).wDraw = s.wDraw := rfl

/-! ### busError -/

@[simp] theorem State.busError_params (s : State) : (s.busError).params = s.params := rfl
@[simp] theorem State.busError_rstn (s : State) : (s.busError).rstn = s.rstn := rfl
@[simp] theorem State.busError_w (s : State) : (s.busError).w = s.w := rfl
@[simp] theorem State.busError_written (s : State) : (s.busError).written = s.written := rfl
@[simp] theorem State.busError_flags (s : State) : (s.busError).flags = s.flags := rfl
@[simp] theorem State.busError_cmdcount (s : State) : (s.busError).cmdcount = s.cmdcount := rfl
@[simp] theorem State.busError_status (s : State) : (s.busError).status = { s.status with buserr := true } := rfl
@[simp] theorem State.busError_irqen (s : State) : (s.busError).irqen = s.irqen := rfl
@[simp] theorem State.busError_faultcmd (s : State) : (s.busError).faultcmd = s.faultcmd := rfl
@[simp] theorem State.busError_faultseq (s : State) : (s.busError).faultseq = s.faultseq := rfl
@[simp] theorem State.busError_cfg (s : State) : (s.busError).cfg = s.cfg := rfl
@[simp] theorem State.busError_cx (s : State) : (s.busError).cx = s.cx := rfl
@[simp] theorem State.busError_nextCid (s : State) : (s.busError).nextCid = s.nextCid := rfl
@[simp] theorem State.busError_re (s : State) : (s.busError).re = s.re := rfl
@[simp] theorem State.busError_stage (s : State) : (s.busError).stage = s.stage := rfl
@[simp] theorem State.busError_slen (s : State) : (s.busError).slen = s.slen := rfl
@[simp] theorem State.busError_host (s : State) : (s.busError).host = s.host := rfl
@[simp] theorem State.busError_reply (s : State) : (s.busError).reply = s.reply := rfl
@[simp] theorem State.busError_programFault (s : State) : (s.busError).programFault = s.programFault := rfl
@[simp] theorem State.busError_draws (s : State) : (s.busError).draws = s.draws := rfl
@[simp] theorem State.busError_wDraw (s : State) : (s.busError).wDraw = s.wDraw := rfl

/-! ### answer -/

@[simp] theorem State.answer_params (s : State) (r : Option Reply) : (s.answer r).params = s.params := rfl
@[simp] theorem State.answer_rstn (s : State) (r : Option Reply) : (s.answer r).rstn = s.rstn := rfl
@[simp] theorem State.answer_w (s : State) (r : Option Reply) : (s.answer r).w = s.w := rfl
@[simp] theorem State.answer_written (s : State) (r : Option Reply) : (s.answer r).written = s.written := rfl
@[simp] theorem State.answer_flags (s : State) (r : Option Reply) : (s.answer r).flags = s.flags := rfl
@[simp] theorem State.answer_cmdcount (s : State) (r : Option Reply) : (s.answer r).cmdcount = s.cmdcount := rfl
@[simp] theorem State.answer_status (s : State) (r : Option Reply) : (s.answer r).status = s.status := rfl
@[simp] theorem State.answer_irqen (s : State) (r : Option Reply) : (s.answer r).irqen = s.irqen := rfl
@[simp] theorem State.answer_faultcmd (s : State) (r : Option Reply) : (s.answer r).faultcmd = s.faultcmd := rfl
@[simp] theorem State.answer_faultseq (s : State) (r : Option Reply) : (s.answer r).faultseq = s.faultseq := rfl
@[simp] theorem State.answer_cfg (s : State) (r : Option Reply) : (s.answer r).cfg = s.cfg := rfl
@[simp] theorem State.answer_cx (s : State) (r : Option Reply) : (s.answer r).cx = s.cx := rfl
@[simp] theorem State.answer_nextCid (s : State) (r : Option Reply) : (s.answer r).nextCid = s.nextCid := rfl
@[simp] theorem State.answer_re (s : State) (r : Option Reply) : (s.answer r).re = s.re := rfl
@[simp] theorem State.answer_stage (s : State) (r : Option Reply) : (s.answer r).stage = s.stage := rfl
@[simp] theorem State.answer_slen (s : State) (r : Option Reply) : (s.answer r).slen = s.slen := rfl
@[simp] theorem State.answer_host (s : State) (r : Option Reply) : (s.answer r).host = s.host := rfl
@[simp] theorem State.answer_reply (s : State) (r : Option Reply) : (s.answer r).reply = r := rfl
@[simp] theorem State.answer_programFault (s : State) (r : Option Reply) : (s.answer r).programFault = s.programFault := rfl
@[simp] theorem State.answer_draws (s : State) (r : Option Reply) : (s.answer r).draws = s.draws := rfl
@[simp] theorem State.answer_wDraw (s : State) (r : Option Reply) : (s.answer r).wDraw = s.wDraw := rfl

/-! ### ignoreInReset -/

@[simp] theorem State.ignoreInReset_params (s : State) : (s.ignoreInReset).params = s.params := rfl
@[simp] theorem State.ignoreInReset_rstn (s : State) : (s.ignoreInReset).rstn = s.rstn := rfl
@[simp] theorem State.ignoreInReset_w (s : State) : (s.ignoreInReset).w = s.w := rfl
@[simp] theorem State.ignoreInReset_written (s : State) : (s.ignoreInReset).written = s.written := rfl
@[simp] theorem State.ignoreInReset_flags (s : State) : (s.ignoreInReset).flags = s.flags := rfl
@[simp] theorem State.ignoreInReset_cmdcount (s : State) : (s.ignoreInReset).cmdcount = s.cmdcount := rfl
@[simp] theorem State.ignoreInReset_status (s : State) : (s.ignoreInReset).status = s.status := rfl
@[simp] theorem State.ignoreInReset_irqen (s : State) : (s.ignoreInReset).irqen = s.irqen := rfl
@[simp] theorem State.ignoreInReset_faultcmd (s : State) : (s.ignoreInReset).faultcmd = s.faultcmd := rfl
@[simp] theorem State.ignoreInReset_faultseq (s : State) : (s.ignoreInReset).faultseq = s.faultseq := rfl
@[simp] theorem State.ignoreInReset_cfg (s : State) : (s.ignoreInReset).cfg = s.cfg := rfl
@[simp] theorem State.ignoreInReset_cx (s : State) : (s.ignoreInReset).cx = s.cx := rfl
@[simp] theorem State.ignoreInReset_nextCid (s : State) : (s.ignoreInReset).nextCid = s.nextCid := rfl
@[simp] theorem State.ignoreInReset_re (s : State) : (s.ignoreInReset).re = s.re := rfl
@[simp] theorem State.ignoreInReset_stage (s : State) : (s.ignoreInReset).stage = s.stage := rfl
@[simp] theorem State.ignoreInReset_slen (s : State) : (s.ignoreInReset).slen = s.slen := rfl
@[simp] theorem State.ignoreInReset_host (s : State) : (s.ignoreInReset).host = s.host := rfl
@[simp] theorem State.ignoreInReset_reply (s : State) : (s.ignoreInReset).reply = Config.replyInReset s.draws := rfl
@[simp] theorem State.ignoreInReset_programFault (s : State) : (s.ignoreInReset).programFault = s.programFault := rfl
@[simp] theorem State.ignoreInReset_draws (s : State) : (s.ignoreInReset).draws = s.draws + 1 := rfl
@[simp] theorem State.ignoreInReset_wDraw (s : State) : (s.ignoreInReset).wDraw = s.wDraw := rfl

/-! ### Derived readers -/

@[simp] theorem State.noteReads_isWritten (s : State) (is : List Idx) (j : Idx) : (s.noteReads is).isWritten j = s.isWritten j := rfl
@[simp] theorem State.noteReads_readLimb (s : State) (is : List Idx) (j : Idx) (m : Nat) : (s.noteReads is).readLimb j m = s.readLimb j m := rfl
@[simp] theorem State.noteReads_readW (s : State) (is : List Idx) (j : Idx) : (s.noteReads is).readW j = s.readW j := rfl
@[simp] theorem State.noteReads_logDegree (s : State) (is : List Idx) (k' : Idx) : (s.noteReads is).logDegree k' = s.logDegree k' := rfl
@[simp] theorem State.noteReads_degree (s : State) (is : List Idx) (k' : Idx) : (s.noteReads is).degree k' = s.degree k' := rfl
@[simp] theorem State.noteReads_hostCtx (s : State) (is : List Idx) (k' : Idx) : (s.noteReads is).hostCtx k' = s.hostCtx k' := rfl
@[simp] theorem State.noteReads_anyCtxValid (s : State) (is : List Idx) : (s.noteReads is).anyCtxValid = s.anyCtxValid  := rfl
@[simp] theorem State.noteReads_ringDegree (s : State) (is : List Idx) (j : Idx) : (s.noteReads is).ringDegree j = s.ringDegree j := rfl
@[simp] theorem State.noteReads_ringData (s : State) (is : List Idx) (j : Idx) : (s.noteReads is).ringData j = s.ringData j := rfl
@[simp] theorem State.noteReads_fwd (s : State) (is : List Idx) (k' : Idx) (l : List Word) : (s.noteReads is).fwd k' l = s.fwd k' l := rfl
@[simp] theorem State.noteReads_inv (s : State) (is : List Idx) (k' : Idx) (l : List Word) : (s.noteReads is).inv k' l = s.inv k' l := rfl
@[simp] theorem State.noteReads_coefView (s : State) (is : List Idx) (j : Idx) : (s.noteReads is).coefView j = s.coefView j := rfl
@[simp] theorem State.noteReads_nttView (s : State) (is : List Idx) (j : Idx) : (s.noteReads is).nttView j = s.nttView j := rfl
@[simp] theorem State.noteReads_commonRep (s : State) (is : List Idx) (j m : Idx) : (s.noteReads is).commonRep j m = s.commonRep j m := rfl
@[simp] theorem State.noteReads_addend (s : State) (is : List Idx) (j m p : Idx) : (s.noteReads is).addend j m p = s.addend j m p := rfl
@[simp] theorem State.noteReads_staged (s : State) (is : List Idx) (m : Nat) : (s.noteReads is).staged m = s.staged m := rfl

@[simp] theorem State.complete_isWritten (s : State) (j : Idx) : (s.complete).isWritten j = s.isWritten j := rfl
@[simp] theorem State.complete_readLimb (s : State) (j : Idx) (m : Nat) : (s.complete).readLimb j m = s.readLimb j m := rfl
@[simp] theorem State.complete_readW (s : State) (j : Idx) : (s.complete).readW j = s.readW j := rfl
@[simp] theorem State.complete_logDegree (s : State) (k' : Idx) : (s.complete).logDegree k' = s.logDegree k' := rfl
@[simp] theorem State.complete_degree (s : State) (k' : Idx) : (s.complete).degree k' = s.degree k' := rfl
@[simp] theorem State.complete_hostCtx (s : State) (k' : Idx) : (s.complete).hostCtx k' = s.hostCtx k' := rfl
@[simp] theorem State.complete_anyCtxValid (s : State) : (s.complete).anyCtxValid = s.anyCtxValid  := rfl
@[simp] theorem State.complete_ringDegree (s : State) (j : Idx) : (s.complete).ringDegree j = s.ringDegree j := rfl
@[simp] theorem State.complete_ringData (s : State) (j : Idx) : (s.complete).ringData j = s.ringData j := rfl
@[simp] theorem State.complete_fwd (s : State) (k' : Idx) (l : List Word) : (s.complete).fwd k' l = s.fwd k' l := rfl
@[simp] theorem State.complete_inv (s : State) (k' : Idx) (l : List Word) : (s.complete).inv k' l = s.inv k' l := rfl
@[simp] theorem State.complete_coefView (s : State) (j : Idx) : (s.complete).coefView j = s.coefView j := rfl
@[simp] theorem State.complete_nttView (s : State) (j : Idx) : (s.complete).nttView j = s.nttView j := rfl
@[simp] theorem State.complete_commonRep (s : State) (j m : Idx) : (s.complete).commonRep j m = s.commonRep j m := rfl
@[simp] theorem State.complete_addend (s : State) (j m p : Idx) : (s.complete).addend j m p = s.addend j m p := rfl
@[simp] theorem State.complete_staged (s : State) (m : Nat) : (s.complete).staged m = s.staged m := rfl

@[simp] theorem State.recordFault_isWritten (s : State) (code : ErrCode) (v : BitVec 64) (j : Idx) : (s.recordFault code v).isWritten j = s.isWritten j := rfl
@[simp] theorem State.recordFault_readLimb (s : State) (code : ErrCode) (v : BitVec 64) (j : Idx) (m : Nat) : (s.recordFault code v).readLimb j m = s.readLimb j m := rfl
@[simp] theorem State.recordFault_readW (s : State) (code : ErrCode) (v : BitVec 64) (j : Idx) : (s.recordFault code v).readW j = s.readW j := rfl
@[simp] theorem State.recordFault_logDegree (s : State) (code : ErrCode) (v : BitVec 64) (k' : Idx) : (s.recordFault code v).logDegree k' = s.logDegree k' := rfl
@[simp] theorem State.recordFault_degree (s : State) (code : ErrCode) (v : BitVec 64) (k' : Idx) : (s.recordFault code v).degree k' = s.degree k' := rfl
@[simp] theorem State.recordFault_hostCtx (s : State) (code : ErrCode) (v : BitVec 64) (k' : Idx) : (s.recordFault code v).hostCtx k' = s.hostCtx k' := rfl
@[simp] theorem State.recordFault_anyCtxValid (s : State) (code : ErrCode) (v : BitVec 64) : (s.recordFault code v).anyCtxValid = s.anyCtxValid  := rfl
@[simp] theorem State.recordFault_ringDegree (s : State) (code : ErrCode) (v : BitVec 64) (j : Idx) : (s.recordFault code v).ringDegree j = s.ringDegree j := rfl
@[simp] theorem State.recordFault_ringData (s : State) (code : ErrCode) (v : BitVec 64) (j : Idx) : (s.recordFault code v).ringData j = s.ringData j := rfl
@[simp] theorem State.recordFault_fwd (s : State) (code : ErrCode) (v : BitVec 64) (k' : Idx) (l : List Word) : (s.recordFault code v).fwd k' l = s.fwd k' l := rfl
@[simp] theorem State.recordFault_inv (s : State) (code : ErrCode) (v : BitVec 64) (k' : Idx) (l : List Word) : (s.recordFault code v).inv k' l = s.inv k' l := rfl
@[simp] theorem State.recordFault_coefView (s : State) (code : ErrCode) (v : BitVec 64) (j : Idx) : (s.recordFault code v).coefView j = s.coefView j := rfl
@[simp] theorem State.recordFault_nttView (s : State) (code : ErrCode) (v : BitVec 64) (j : Idx) : (s.recordFault code v).nttView j = s.nttView j := rfl
@[simp] theorem State.recordFault_commonRep (s : State) (code : ErrCode) (v : BitVec 64) (j m : Idx) : (s.recordFault code v).commonRep j m = s.commonRep j m := rfl
@[simp] theorem State.recordFault_addend (s : State) (code : ErrCode) (v : BitVec 64) (j m p : Idx) : (s.recordFault code v).addend j m p = s.addend j m p := rfl
@[simp] theorem State.recordFault_staged (s : State) (code : ErrCode) (v : BitVec 64) (m : Nat) : (s.recordFault code v).staged m = s.staged m := rfl

@[simp] theorem State.setCF_isWritten (s : State) (b : Bool) (j : Idx) : (s.setCF b).isWritten j = s.isWritten j := rfl
@[simp] theorem State.setCF_readLimb (s : State) (b : Bool) (j : Idx) (m : Nat) : (s.setCF b).readLimb j m = s.readLimb j m := rfl
@[simp] theorem State.setCF_readW (s : State) (b : Bool) (j : Idx) : (s.setCF b).readW j = s.readW j := rfl
@[simp] theorem State.setCF_logDegree (s : State) (b : Bool) (k' : Idx) : (s.setCF b).logDegree k' = s.logDegree k' := rfl
@[simp] theorem State.setCF_degree (s : State) (b : Bool) (k' : Idx) : (s.setCF b).degree k' = s.degree k' := rfl
@[simp] theorem State.setCF_hostCtx (s : State) (b : Bool) (k' : Idx) : (s.setCF b).hostCtx k' = s.hostCtx k' := rfl
@[simp] theorem State.setCF_anyCtxValid (s : State) (b : Bool) : (s.setCF b).anyCtxValid = s.anyCtxValid  := rfl
@[simp] theorem State.setCF_ringDegree (s : State) (b : Bool) (j : Idx) : (s.setCF b).ringDegree j = s.ringDegree j := rfl
@[simp] theorem State.setCF_ringData (s : State) (b : Bool) (j : Idx) : (s.setCF b).ringData j = s.ringData j := rfl
@[simp] theorem State.setCF_fwd (s : State) (b : Bool) (k' : Idx) (l : List Word) : (s.setCF b).fwd k' l = s.fwd k' l := rfl
@[simp] theorem State.setCF_inv (s : State) (b : Bool) (k' : Idx) (l : List Word) : (s.setCF b).inv k' l = s.inv k' l := rfl
@[simp] theorem State.setCF_coefView (s : State) (b : Bool) (j : Idx) : (s.setCF b).coefView j = s.coefView j := rfl
@[simp] theorem State.setCF_nttView (s : State) (b : Bool) (j : Idx) : (s.setCF b).nttView j = s.nttView j := rfl
@[simp] theorem State.setCF_commonRep (s : State) (b : Bool) (j m : Idx) : (s.setCF b).commonRep j m = s.commonRep j m := rfl
@[simp] theorem State.setCF_addend (s : State) (b : Bool) (j m p : Idx) : (s.setCF b).addend j m p = s.addend j m p := rfl
@[simp] theorem State.setCF_staged (s : State) (b : Bool) (m : Nat) : (s.setCF b).staged m = s.staged m := rfl

@[simp] theorem State.setCompare_isWritten (s : State) (a b : Word) (j : Idx) : (s.setCompare a b).isWritten j = s.isWritten j := rfl
@[simp] theorem State.setCompare_readLimb (s : State) (a b : Word) (j : Idx) (m : Nat) : (s.setCompare a b).readLimb j m = s.readLimb j m := rfl
@[simp] theorem State.setCompare_readW (s : State) (a b : Word) (j : Idx) : (s.setCompare a b).readW j = s.readW j := rfl
@[simp] theorem State.setCompare_logDegree (s : State) (a b : Word) (k' : Idx) : (s.setCompare a b).logDegree k' = s.logDegree k' := rfl
@[simp] theorem State.setCompare_degree (s : State) (a b : Word) (k' : Idx) : (s.setCompare a b).degree k' = s.degree k' := rfl
@[simp] theorem State.setCompare_hostCtx (s : State) (a b : Word) (k' : Idx) : (s.setCompare a b).hostCtx k' = s.hostCtx k' := rfl
@[simp] theorem State.setCompare_anyCtxValid (s : State) (a b : Word) : (s.setCompare a b).anyCtxValid = s.anyCtxValid  := rfl
@[simp] theorem State.setCompare_ringDegree (s : State) (a b : Word) (j : Idx) : (s.setCompare a b).ringDegree j = s.ringDegree j := rfl
@[simp] theorem State.setCompare_ringData (s : State) (a b : Word) (j : Idx) : (s.setCompare a b).ringData j = s.ringData j := rfl
@[simp] theorem State.setCompare_fwd (s : State) (a b : Word) (k' : Idx) (l : List Word) : (s.setCompare a b).fwd k' l = s.fwd k' l := rfl
@[simp] theorem State.setCompare_inv (s : State) (a b : Word) (k' : Idx) (l : List Word) : (s.setCompare a b).inv k' l = s.inv k' l := rfl
@[simp] theorem State.setCompare_coefView (s : State) (a b : Word) (j : Idx) : (s.setCompare a b).coefView j = s.coefView j := rfl
@[simp] theorem State.setCompare_nttView (s : State) (a b : Word) (j : Idx) : (s.setCompare a b).nttView j = s.nttView j := rfl
@[simp] theorem State.setCompare_commonRep (s : State) (a b : Word) (j m : Idx) : (s.setCompare a b).commonRep j m = s.commonRep j m := rfl
@[simp] theorem State.setCompare_addend (s : State) (a b : Word) (j m p : Idx) : (s.setCompare a b).addend j m p = s.addend j m p := rfl
@[simp] theorem State.setCompare_staged (s : State) (a b : Word) (m : Nat) : (s.setCompare a b).staged m = s.staged m := rfl

@[simp] theorem State.setVEQ_isWritten (s : State) (b : Bool) (j : Idx) : (s.setVEQ b).isWritten j = s.isWritten j := rfl
@[simp] theorem State.setVEQ_readLimb (s : State) (b : Bool) (j : Idx) (m : Nat) : (s.setVEQ b).readLimb j m = s.readLimb j m := rfl
@[simp] theorem State.setVEQ_readW (s : State) (b : Bool) (j : Idx) : (s.setVEQ b).readW j = s.readW j := rfl
@[simp] theorem State.setVEQ_logDegree (s : State) (b : Bool) (k' : Idx) : (s.setVEQ b).logDegree k' = s.logDegree k' := rfl
@[simp] theorem State.setVEQ_degree (s : State) (b : Bool) (k' : Idx) : (s.setVEQ b).degree k' = s.degree k' := rfl
@[simp] theorem State.setVEQ_hostCtx (s : State) (b : Bool) (k' : Idx) : (s.setVEQ b).hostCtx k' = s.hostCtx k' := rfl
@[simp] theorem State.setVEQ_anyCtxValid (s : State) (b : Bool) : (s.setVEQ b).anyCtxValid = s.anyCtxValid  := rfl
@[simp] theorem State.setVEQ_ringDegree (s : State) (b : Bool) (j : Idx) : (s.setVEQ b).ringDegree j = s.ringDegree j := rfl
@[simp] theorem State.setVEQ_ringData (s : State) (b : Bool) (j : Idx) : (s.setVEQ b).ringData j = s.ringData j := rfl
@[simp] theorem State.setVEQ_fwd (s : State) (b : Bool) (k' : Idx) (l : List Word) : (s.setVEQ b).fwd k' l = s.fwd k' l := rfl
@[simp] theorem State.setVEQ_inv (s : State) (b : Bool) (k' : Idx) (l : List Word) : (s.setVEQ b).inv k' l = s.inv k' l := rfl
@[simp] theorem State.setVEQ_coefView (s : State) (b : Bool) (j : Idx) : (s.setVEQ b).coefView j = s.coefView j := rfl
@[simp] theorem State.setVEQ_nttView (s : State) (b : Bool) (j : Idx) : (s.setVEQ b).nttView j = s.nttView j := rfl
@[simp] theorem State.setVEQ_commonRep (s : State) (b : Bool) (j m : Idx) : (s.setVEQ b).commonRep j m = s.commonRep j m := rfl
@[simp] theorem State.setVEQ_addend (s : State) (b : Bool) (j m p : Idx) : (s.setVEQ b).addend j m p = s.addend j m p := rfl
@[simp] theorem State.setVEQ_staged (s : State) (b : Bool) (m : Nat) : (s.setVEQ b).staged m = s.staged m := rfl

@[simp] theorem State.writeW_logDegree (s : State) (i : Idx) (v : Word) (k' : Idx) : (s.writeW i v).logDegree k' = s.logDegree k' := rfl
@[simp] theorem State.writeW_degree (s : State) (i : Idx) (v : Word) (k' : Idx) : (s.writeW i v).degree k' = s.degree k' := rfl
@[simp] theorem State.writeW_hostCtx (s : State) (i : Idx) (v : Word) (k' : Idx) : (s.writeW i v).hostCtx k' = s.hostCtx k' := rfl
@[simp] theorem State.writeW_anyCtxValid (s : State) (i : Idx) (v : Word) : (s.writeW i v).anyCtxValid = s.anyCtxValid  := rfl
@[simp] theorem State.writeW_ringDegree (s : State) (i : Idx) (v : Word) (j : Idx) : (s.writeW i v).ringDegree j = s.ringDegree j := rfl
@[simp] theorem State.writeW_ringData (s : State) (i : Idx) (v : Word) (j : Idx) : (s.writeW i v).ringData j = s.ringData j := rfl
@[simp] theorem State.writeW_fwd (s : State) (i : Idx) (v : Word) (k' : Idx) (l : List Word) : (s.writeW i v).fwd k' l = s.fwd k' l := rfl
@[simp] theorem State.writeW_inv (s : State) (i : Idx) (v : Word) (k' : Idx) (l : List Word) : (s.writeW i v).inv k' l = s.inv k' l := rfl
@[simp] theorem State.writeW_coefView (s : State) (i : Idx) (v : Word) (j : Idx) : (s.writeW i v).coefView j = s.coefView j := rfl
@[simp] theorem State.writeW_nttView (s : State) (i : Idx) (v : Word) (j : Idx) : (s.writeW i v).nttView j = s.nttView j := rfl
@[simp] theorem State.writeW_commonRep (s : State) (i : Idx) (v : Word) (j m : Idx) : (s.writeW i v).commonRep j m = s.commonRep j m := rfl
@[simp] theorem State.writeW_addend (s : State) (i : Idx) (v : Word) (j m p : Idx) : (s.writeW i v).addend j m p = s.addend j m p := rfl
@[simp] theorem State.writeW_staged (s : State) (i : Idx) (v : Word) (m : Nat) : (s.writeW i v).staged m = s.staged m := rfl

@[simp] theorem State.answer_isWritten (s : State) (r : Option Reply) (j : Idx) : (s.answer r).isWritten j = s.isWritten j := rfl
@[simp] theorem State.answer_readLimb (s : State) (r : Option Reply) (j : Idx) (m : Nat) : (s.answer r).readLimb j m = s.readLimb j m := rfl
@[simp] theorem State.answer_readW (s : State) (r : Option Reply) (j : Idx) : (s.answer r).readW j = s.readW j := rfl
@[simp] theorem State.answer_logDegree (s : State) (r : Option Reply) (k' : Idx) : (s.answer r).logDegree k' = s.logDegree k' := rfl
@[simp] theorem State.answer_degree (s : State) (r : Option Reply) (k' : Idx) : (s.answer r).degree k' = s.degree k' := rfl
@[simp] theorem State.answer_hostCtx (s : State) (r : Option Reply) (k' : Idx) : (s.answer r).hostCtx k' = s.hostCtx k' := rfl
@[simp] theorem State.answer_anyCtxValid (s : State) (r : Option Reply) : (s.answer r).anyCtxValid = s.anyCtxValid  := rfl
@[simp] theorem State.answer_ringDegree (s : State) (r : Option Reply) (j : Idx) : (s.answer r).ringDegree j = s.ringDegree j := rfl
@[simp] theorem State.answer_ringData (s : State) (r : Option Reply) (j : Idx) : (s.answer r).ringData j = s.ringData j := rfl
@[simp] theorem State.answer_fwd (s : State) (r : Option Reply) (k' : Idx) (l : List Word) : (s.answer r).fwd k' l = s.fwd k' l := rfl
@[simp] theorem State.answer_inv (s : State) (r : Option Reply) (k' : Idx) (l : List Word) : (s.answer r).inv k' l = s.inv k' l := rfl
@[simp] theorem State.answer_coefView (s : State) (r : Option Reply) (j : Idx) : (s.answer r).coefView j = s.coefView j := rfl
@[simp] theorem State.answer_nttView (s : State) (r : Option Reply) (j : Idx) : (s.answer r).nttView j = s.nttView j := rfl
@[simp] theorem State.answer_commonRep (s : State) (r : Option Reply) (j m : Idx) : (s.answer r).commonRep j m = s.commonRep j m := rfl
@[simp] theorem State.answer_addend (s : State) (r : Option Reply) (j m p : Idx) : (s.answer r).addend j m p = s.addend j m p := rfl
@[simp] theorem State.answer_staged (s : State) (r : Option Reply) (m : Nat) : (s.answer r).staged m = s.staged m := rfl

end Sys2Proof.Machine
end

