-- ==== Sys2Proof/Laws/Ops.lean ====
section
/-! SUPPORT. What each shared operation does, said once: the W registers (spec 10 R31, R32), the command cycle (44 R400), the
lifetime of contexts (42 R272 to R274), the binding of results (43 R322), and reset (10 R57). -/
namespace Sys2Proof.Machine

/-! ## Wide registers -/

@[simp] theorem State.writeW_isWritten_same (s : State) (i : Idx) (v : Word) : (s.writeW i v).isWritten i = true := by
  simp [State.isWritten]

theorem State.writeW_isWritten (s : State) (i j : Idx) (v : Word) :
    (s.writeW i v).isWritten j = (decide (j = i) || s.isWritten j) := by
  simp only [State.isWritten, State.writeW_written, Bank.get_put]
  by_cases h : j = i <;> simp [h]

/-- A register reads as the word a command wrote to it. -/
@[simp] theorem State.readW_writeW_same (s : State) (i : Idx) (v : Word) : (s.writeW i v).readW i = v := by
  simp [State.readW]

/-- A write leaves the limbs of the other registers. -/
theorem State.readLimb_writeW_ne (s : State) {i j : Idx} (h : j ≠ i) (v : Word) (k : Nat) :
    (s.writeW i v).readLimb j k = s.readLimb j k := by
  simp [State.readLimb, Bank.get_put_ne, h]

/-- A write leaves what the other registers read as. -/
theorem State.readW_writeW_ne (s : State) {i j : Idx} (h : j ≠ i) (v : Word) : (s.writeW i v).readW j = s.readW j := by
  have hl : (s.writeW i v).readLimb j = s.readLimb j := funext (s.readLimb_writeW_ne h v)
  simp [State.readW, State.writeW_isWritten, h, hl, Bank.get_put_ne]

/-- Limb by limb or whole, a register reads the same (00 R12). -/
theorem State.limb_readW (s : State) (i : Idx) {k : Nat} (hk : k < 16) : limb (s.readW i) k = s.readLimb i k := by
  by_cases h : s.isWritten i
  · have h2 : s.written.get i = BitVec.allOnes 16 := by simpa [State.isWritten] using h
    rw [State.readW, if_pos h, State.readLimb, h2, BitVec.getLsbD_allOnes]
    simp [hk]
  · rw [State.readW, if_neg h, limb_ofLimbs _ (Nat.le_refl 16) hk]

/-- A written register reads as what it stores. -/
theorem State.readW_of_written {s : State} {i : Idx} (h : s.isWritten i = true) : s.readW i = s.w.get i := if_pos h

theorem State.noteReads_eq (s : State) (rs : List Idx) :
    s.noteReads rs = { s with programFault := s.programFault || s.readsUnwritten rs } := rfl

@[simp] theorem State.noteReads_nil (s : State) : s.noteReads [] = s := by
  simp [State.noteReads]

@[simp] theorem State.readsUnwritten_nil (s : State) : s.readsUnwritten [] = false := rfl

/-! ## The command cycle -/

theorem firstFault_eq_none {cs : List Check} : firstFault cs = none ↔ ∀ c ∈ cs, c.fails = false := by
  induction cs with
  | nil => simp [firstFault]
  | cons c cs ih => by_cases h : c.fails <;> simp [firstFault, h, ih]

/-- A command whose checks all pass has its effect, and counts. -/
theorem command_ok {i : Instr} {pre post : List Check} {rs : List Idx} {eff : State → State} {s : State}
    (hpre : firstFault pre = none) (hpost : firstFault post = none) :
    command i pre rs post eff s = .next (eff (s.noteReads rs)).complete := by
  simp [command, hpre, hpost]

/-- A command that fails a check it makes before it reads W registers records that fault. -/
theorem command_pre_fault {i : Instr} {pre post : List Check} {rs : List Idx} {eff : State → State} {s : State}
    {code : ErrCode} (hpre : firstFault pre = some code) :
    command i pre rs post eff s = .next (s.recordFault code i.cmdValue) := by
  simp [command, hpre]

/-- A command that fails a check on what it read records that fault. -/
theorem command_post_fault {i : Instr} {pre post : List Check} {rs : List Idx} {eff : State → State} {s : State}
    {code : ErrCode} (hpre : firstFault pre = none) (hpost : firstFault post = some code) :
    command i pre rs post eff s = .next ((s.noteReads rs).recordFault code i.cmdValue) := by
  simp [command, hpre, hpost]

/-- All that a command can do: record one of its faults, or have its effect and count. -/
theorem command_cases {i : Instr} {pre post : List Check} {rs : List Idx} {eff : State → State} {s t : State}
    (h : command i pre rs post eff s = .next t) :
    (∃ code, firstFault pre = some code ∧ t = s.recordFault code i.cmdValue) ∨
    (∃ code, firstFault pre = none ∧ firstFault post = some code ∧
      t = (s.noteReads rs).recordFault code i.cmdValue) ∨
    (firstFault pre = none ∧ firstFault post = none ∧ t = (eff (s.noteReads rs)).complete) := by
  unfold command at h
  split at h
  · rename_i code hp; exact .inl ⟨code, hp, by cases h; rfl⟩
  · rename_i hp
    split at h
    · rename_i code hq; exact .inr (.inl ⟨code, hp, hq, by cases h; rfl⟩)
    · rename_i hq; exact .inr (.inr ⟨hp, hq, by cases h; rfl⟩)

/-! ## Writing W registers -/

/-- The frame of a command with one destination register. -/
theorem writesW_one (s : State) (rs : List Idx) (d : Idx) (v : Word) (fl : Flags) :
    WritesW s { ((s.noteReads rs).writeW d v).complete with flags := fl } [d] rs fl where
  dests := by intro d' hd; simp only [List.mem_singleton] at hd; subst hd; simp [State.isWritten]
  others := by
    intro i hi; simp only [List.mem_singleton] at hi
    exact ⟨Bank.get_put_ne _ _ hi, Bank.get_put_ne _ _ hi⟩
  frame := rfl

/-- The frame of a command with one destination register that leaves the flags. -/
theorem writesW_one_same (s : State) (rs : List Idx) (d : Idx) (v : Word) :
    WritesW s ((s.noteReads rs).writeW d v).complete [d] rs s.flags := writesW_one s rs d v s.flags

/-! ## Lifetime of contexts -/

theorem State.putCtx_cx_get (s : State) (c c' : Idx) (x : Ctx) :
    (s.putCtx c x).cx.get c' = if c' = c then x else s.cx.get c' := Bank.get_put _ _ _ _

theorem Ctx.cleared_isFree (nmax draw c : Nat) : (Ctx.cleared nmax draw c).IsFree := ⟨rfl, rfl, rfl, rfl, rfl⟩

theorem Ring.cleared_isUnbound (nmax draw r : Nat) : (Ring.cleared nmax draw r).IsUnbound := ⟨rfl, rfl, rfl, rfl⟩

@[simp] theorem Ring.cleared_length (nmax draw r : Nat) : (Ring.cleared nmax draw r).data.length = nmax := by
  simp [Ring.cleared]

/-- A release changes only the slot it names, and the draw counter (42 R274). -/
theorem State.release_frame (s : State) (c : Idx) :
    s.release c = { s with cx := (s.release c).cx, draws := (s.release c).draws } ∧
    (∀ c', c' ≠ c → (s.release c).cx.get c' = s.cx.get c') ∧ Released (s.cx.get c) ((s.release c).cx.get c) := by
  have h1 : (s.cx.get c).refcnt - 1 = 0 ↔ (s.cx.get c).refcnt = 1 := by
    generalize (s.cx.get c).refcnt = x; constructor <;> intro h <;> bv_omega
  unfold State.release
  simp only [State.putCtx_cx, Bank.get_put_same, h1]
  split
  · rename_i h
    refine ⟨rfl, ?_, ?_⟩
    · intro c' hc
      simp [Bank.get_put_ne, hc]
    · rw [Released, if_pos h]
      simp [Ctx.cleared_isFree]
  · rename_i h
    refine ⟨rfl, ?_, ?_⟩
    · intro c' hc
      simp [Bank.get_put_ne, hc]
    · rw [Released, if_neg h]
      simp

/-- Acquiring and then releasing one slot that is referenced leaves it as it was (43 R322). -/
theorem State.release_acquire_same (s : State) (c : Idx) (h : (s.cx.get c).refcnt ≠ 0) :
    ((s.acquire c).release c).cx = s.cx := by
  have h2 : (s.cx.get c).refcnt + 1 - 1 = (s.cx.get c).refcnt := by
    generalize (s.cx.get c).refcnt = x; bv_omega
  unfold State.release
  simp only [State.acquire_cx, State.putCtx_cx, Bank.get_put_same, h2, h, false_and, if_false, Bank.put_put]
  exact Bank.put_get _ _

/-! ## Result binding -/

/-- A release does not touch the ring slots. -/
@[simp] theorem State.release_re (s : State) (c : Idx) : (s.release c).re = s.re := by rw [(s.release_frame c).1]

/-- The slot as rebinding leaves it (43 R322). -/
theorem State.rebind_re (s : State) (rd c : Idx) :
    (s.rebind rd c).re = s.re.put rd { s.re.get rd with
      bound := true, ctx := c, cid := ((if (s.re.get rd).bound then (s.acquire c).release (s.re.get rd).ctx
        else s.acquire c).cx.get c).cid } := by
  unfold State.rebind
  by_cases hb : (s.re.get rd).bound = true
  · simp only [State.acquire_re, hb, if_true, State.putRing_re, State.release_re]
  · simp only [State.acquire_re, hb, Bool.false_eq_true, if_false, State.putRing_re]

/-- The contexts as rebinding leaves them (43 R322). -/
theorem State.rebind_cx (s : State) (rd c : Idx) :
    (s.rebind rd c).cx = (if (s.re.get rd).bound then (s.acquire c).release (s.re.get rd).ctx else s.acquire c).cx := by
  unfold State.rebind
  by_cases hb : (s.re.get rd).bound = true
  · simp only [State.acquire_re, hb, if_true, State.putRing_cx]
  · simp only [State.acquire_re, hb, Bool.false_eq_true, if_false, State.putRing_cx]

/-- Rebinding changes ring slots, contexts and the draw counter only. -/
theorem State.rebind_frame (s : State) (rd c : Idx) :
    s.rebind rd c = { s with re := (s.rebind rd c).re, cx := (s.rebind rd c).cx, draws := (s.rebind rd c).draws } := by
  unfold State.rebind
  by_cases hb : (s.re.get rd).bound = true
  · simp only [State.acquire_re, hb, if_true]
    rw [((s.acquire c).release_frame (s.re.get rd).ctx).1]
    rfl
  · simp only [State.acquire_re, hb, Bool.false_eq_true, if_false]
    rfl

/-- Binding a result changes ring slots, contexts and the draw counter only. -/
theorem State.bindRing_frame (s : State) (rd c : Idx) (st : Rep) (d : List Word) :
    s.bindRing rd c st d =
      { s with re := (s.bindRing rd c st d).re, cx := (s.bindRing rd c st d).cx, draws := (s.bindRing rd c st d).draws } := by
  unfold State.bindRing State.putData State.putRing
  rw [s.rebind_frame rd c]

/-- What binding a result does to the contexts is what rebinding does. -/
theorem State.bindRing_cx (s : State) (rd c : Idx) (st : Rep) (d : List Word) :
    (s.bindRing rd c st d).cx = (s.rebind rd c).cx := rfl

/-- The slots after binding a result. -/
theorem State.bindRing_re (s : State) (rd c : Idx) (st : Rep) (d : List Word) :
    (s.bindRing rd c st d).re = s.re.put rd { (s.rebind rd c).re.get rd with
      st := st, data := overwrite (s.re.get rd).data d } := by
  unfold State.bindRing
  rw [State.putData_re, s.rebind_re rd c]
  simp

/-- How the contexts stand after a rebinding, for a slot that is not the unreferenced holder of its context. -/
theorem State.rebind_contexts (s : State) (rd c : Idx)
    (h : (s.re.get rd).bound = true → (s.re.get rd).ctx = c → (s.cx.get c).refcnt ≠ 0) :
    ((s.re.get rd).bound = true → (s.re.get rd).ctx = c → (s.rebind rd c).cx = s.cx) ∧
    (¬((s.re.get rd).bound = true ∧ (s.re.get rd).ctx = c) →
      (s.rebind rd c).cx.get c = { s.cx.get c with refcnt := (s.cx.get c).refcnt + 1 }) ∧
    ((s.re.get rd).bound = true → (s.re.get rd).ctx ≠ c →
      Released (s.cx.get (s.re.get rd).ctx) ((s.rebind rd c).cx.get (s.re.get rd).ctx)) ∧
    (∀ c', c' ≠ c → ¬((s.re.get rd).bound = true ∧ (s.re.get rd).ctx = c') →
      (s.rebind rd c).cx.get c' = s.cx.get c') := by
  rw [s.rebind_cx rd c]
  by_cases hb : (s.re.get rd).bound = true
  · rw [if_pos hb]
    by_cases hc : (s.re.get rd).ctx = c
    · rw [hc, s.release_acquire_same c (h hb hc)]
      exact ⟨fun _ _ => rfl, fun hn => absurd ⟨hb, rfl⟩ hn, fun _ hn => absurd rfl hn, fun _ _ _ => rfl⟩
    · obtain ⟨-, hne, hrel⟩ := (s.acquire c).release_frame (s.re.get rd).ctx
      have hget : (s.acquire c).cx.get (s.re.get rd).ctx = s.cx.get (s.re.get rd).ctx := by
        simp [Bank.get_put_ne, hc]
      rw [hget] at hrel
      refine ⟨fun _ hn => absurd hn hc, fun _ => ?_, fun _ _ => hrel, fun c' hc' hn => ?_⟩
      · rw [hne c (fun e => hc e.symm)]; simp
      · rw [hne c' (fun e => hn ⟨hb, e.symm⟩)]; simp [Bank.get_put_ne, hc']
  · rw [if_neg hb]
    refine ⟨fun hn => absurd hn hb, fun _ => ?_, fun hn => absurd hn hb, fun c' hc' _ => ?_⟩
    · simp
    · simp [Bank.get_put_ne, hc']

/-- The identity of the context a slot is bound to survives the rebinding. -/
theorem State.rebind_cid (s : State) (rd c : Idx)
    (h : (s.re.get rd).bound = true → (s.re.get rd).ctx = c → (s.cx.get c).refcnt ≠ 0) :
    ((s.rebind rd c).cx.get c).cid = (s.cx.get c).cid := by
  obtain ⟨hs, ha, -, -⟩ := s.rebind_contexts rd c h
  by_cases hb : (s.re.get rd).bound = true ∧ (s.re.get rd).ctx = c
  · rw [hs hb.1 hb.2]
  · rw [ha hb]

/-- Everything that binding a ring slot does (43 R322), for a slot that is not the unreferenced holder of its context. -/
theorem State.bindRing_binds (s : State) (rs : List Idx) (rd c : Idx) (st : Rep) (d : List Word)
    (h : (s.re.get rd).bound = true → (s.re.get rd).ctx = c → (s.cx.get c).refcnt ≠ 0) :
    Binds s ((s.noteReads rs).bindRing rd c st d).complete rd c st d rs := by
  obtain ⟨hs, ha, hr, ho⟩ := (s.noteReads rs).rebind_contexts rd c h
  have hcid := (s.noteReads rs).rebind_cid rd c h
  have hcx := (s.noteReads rs).bindRing_cx rd c st d
  refine ⟨?_, ?_, ?_, ?_, ?_, ?_, ?_⟩
  · rw [State.complete_re, State.bindRing_re, Bank.get_put_same, State.rebind_re, Bank.get_put_same, ← State.rebind_cx, hcid]
    rfl
  · intro r hr
    rw [State.complete_re, State.bindRing_re, Bank.get_put_ne _ _ hr]; rfl
  · intro hb hc; rw [State.complete_cx, hcx]; exact hs hb hc
  · intro hn; rw [State.complete_cx, hcx]; exact ha hn
  · intro hb hc; rw [State.complete_cx, hcx]; exact hr hb hc
  · intro c' hc hn; rw [State.complete_cx, hcx]; exact ho c' hc hn
  · rw [(s.noteReads rs).bindRing_frame rd c st d]; rfl

end Sys2Proof.Machine
end

