-- ==== Sys2Proof/Laws/Network.lean ====
section
/-! SUPPORT. The butterfly network over a commutative ring, as two trees: the inverse tree undoes the forward tree up to a power of
2 (the argument of spec 42 R269), and the forward tree evaluates a polynomial at the leaves (42 R268). -/
namespace Sys2Proof.Network

variable {K : Type} [CommRing K]

/-- The butterflies (u + z·v, u − z·v) of one block. -/
def ct (len : Nat) (z : K) (b : List K) : List K :=
  List.zipWith (fun u v => u + z * v) (b.take len) (b.drop len) ++
  List.zipWith (fun u v => u - z * v) (b.take len) (b.drop len)

/-- The butterflies (u + v, z·(u − v)) of one block. -/
def gs (len : Nat) (z : K) (b : List K) : List K :=
  List.zipWith (fun u v => u + v) (b.take len) (b.drop len) ++
  List.zipWith (fun u v => z * (u - v)) (b.take len) (b.drop len)

/-- The forward network below node `k`. -/
def fwd (ζ : Nat → K) : Nat → Nat → List K → List K
  | 0, _, b => b
  | m + 1, k, b =>
    fwd ζ m (2 * k) ((ct (2 ^ m) (ζ k) b).take (2 ^ m)) ++ fwd ζ m (2 * k + 1) ((ct (2 ^ m) (ζ k) b).drop (2 ^ m))

/-- The inverse network below node `k`. -/
def inv (ζi : Nat → K) : Nat → Nat → List K → List K
  | 0, _, b => b
  | m + 1, k, b => gs (2 ^ m) (ζi k) (inv ζi m (2 * k) (b.take (2 ^ m)) ++ inv ζi m (2 * k + 1) (b.drop (2 ^ m)))

/-! ## Lengths -/

theorem ct_length {len : Nat} (z : K) {b : List K} (h : b.length = 2 * len) : (ct len z b).length = 2 * len := by
  simp [ct, h]; omega

theorem gs_length {len : Nat} (z : K) {b : List K} (h : b.length = 2 * len) : (gs len z b).length = 2 * len := by
  simp [gs, h]; omega

theorem fwd_length (ζ : Nat → K) (m k : Nat) {b : List K} (h : b.length = 2 ^ m) : (fwd ζ m k b).length = 2 ^ m := by
  induction m generalizing k b with
  | zero => exact h
  | succ m ih =>
    have hl := ct_length (ζ k) (show b.length = 2 * 2 ^ m by rw [h, pow_succ]; ring)
    rw [fwd, List.length_append, ih, ih, pow_succ]
    · ring
    · rw [List.length_drop, hl]; omega
    · rw [List.length_take, hl]; omega

theorem inv_length (ζi : Nat → K) (m k : Nat) {b : List K} (h : b.length = 2 ^ m) : (inv ζi m k b).length = 2 ^ m := by
  induction m generalizing k b with
  | zero => exact h
  | succ m ih =>
    rw [inv, show (2 : Nat) ^ (m + 1) = 2 * 2 ^ m by rw [pow_succ]; ring]
    apply gs_length
    rw [List.length_append, ih, ih]
    · ring
    · rw [List.length_drop, h, pow_succ]; omega
    · rw [List.length_take, h, pow_succ]; omega

/-! ## The two networks undo each other -/

theorem ct_append {len : Nat} (z : K) {x y : List K} (hx : x.length = len) :
    ct len z (x ++ y) = List.zipWith (fun u v => u + z * v) x y ++ List.zipWith (fun u v => u - z * v) x y := by
  rw [ct, List.take_left' hx, List.drop_left' hx]

theorem gs_append {len : Nat} (z : K) {x y : List K} (hx : x.length = len) :
    gs len z (x ++ y) = List.zipWith (fun u v => u + v) x y ++ List.zipWith (fun u v => z * (u - v)) x y := by
  rw [gs, List.take_left' hx, List.drop_left' hx]

/-- Two elementwise combinations combined again, when that gives the first operand up to a factor. -/
theorem zipWith_fst {x y : List K} (hl : x.length = y.length) {f g h : K → K → K} {e : K}
    (hf : ∀ u v, h (f u v) (g u v) = e * u) : List.zipWith h (List.zipWith f x y) (List.zipWith g x y) = x.map (e * ·) := by
  induction x generalizing y with
  | nil => simp
  | cons u x ih =>
    cases y with
    | nil => simp at hl
    | cons v y =>
      simp only [List.zipWith_cons_cons, List.map_cons, hf]
      rw [ih (by simpa using hl)]

/-- The same, when that gives the second operand. -/
theorem zipWith_snd {x y : List K} (hl : x.length = y.length) {f g h : K → K → K} {e : K}
    (hf : ∀ u v, h (f u v) (g u v) = e * v) : List.zipWith h (List.zipWith f x y) (List.zipWith g x y) = y.map (e * ·) := by
  induction x generalizing y with
  | nil => cases y with
    | nil => simp
    | cons v y => simp at hl
  | cons u x ih =>
    cases y with
    | nil => simp at hl
    | cons v y =>
      simp only [List.zipWith_cons_cons, List.map_cons, hf]
      rw [ih (by simpa using hl)]

/-- GS at the same node maps the CT outputs (u + z·v, u − z·v), each times `e`, to (2u, 2v) times `e` (42 R269). -/
theorem gs_ct {len : Nat} {z zi : K} (hz : z * zi = 1) (e : K) {b : List K} (h : b.length = 2 * len) :
    gs len zi ((ct len z b).map (e * ·)) = b.map (2 * e * ·) := by
  have h1 : (b.take len).length = len := by rw [List.length_take]; omega
  have h2 : (b.drop len).length = len := by rw [List.length_drop]; omega
  rw [← List.take_append_drop len b]
  generalize b.take len = x at h1
  generalize b.drop len = y at h2
  rw [ct_append z h1, List.map_append, gs_append zi (by simp [h1, h2]), List.map_append, List.map_zipWith,
    List.map_zipWith, zipWith_fst (e := 2 * e) (h1.trans h2.symm) (fun u v => by ring),
    zipWith_snd (e := 2 * e) (h1.trans h2.symm) (fun u v => by linear_combination (2 * e * v) * hz)]

/-- CT at the same node maps the GS outputs to (2u, 2v) (42 R269). -/
theorem ct_gs {len : Nat} {z zi : K} (hz : z * zi = 1) {b : List K} (h : b.length = 2 * len) :
    ct len z (gs len zi b) = b.map (2 * ·) := by
  have h1 : (b.take len).length = len := by rw [List.length_take]; omega
  have h2 : (b.drop len).length = len := by rw [List.length_drop]; omega
  rw [← List.take_append_drop len b]
  generalize b.take len = x at h1
  generalize b.drop len = y at h2
  rw [gs_append zi h1, ct_append z (by simp [h1, h2]), List.map_append,
    zipWith_fst (e := 2) (h1.trans h2.symm) (fun u v => by linear_combination (u - v) * hz),
    zipWith_snd (e := 2) (h1.trans h2.symm) (fun u v => by linear_combination (v - u) * hz)]

/-- The forward network is linear. -/
theorem ct_smul (len : Nat) (z e : K) (b : List K) : ct len z (b.map (e * ·)) = (ct len z b).map (e * ·) := by
  simp only [ct, List.map_append, List.map_zipWith, ← List.map_take, ← List.map_drop, List.zipWith_map]
  congr 1 <;> congr 1 <;> (funext u v; ring)

theorem fwd_smul (ζ : Nat → K) (e : K) (m k : Nat) (b : List K) :
    fwd ζ m k (b.map (e * ·)) = (fwd ζ m k b).map (e * ·) := by
  induction m generalizing k b with
  | zero => rfl
  | succ m ih => simp only [fwd, ct_smul, ← List.map_take, ← List.map_drop, ih, List.map_append]

/-- The inverse network undoes the forward one up to the factor 2^m (42 R269). -/
theorem inv_fwd {ζ ζi : Nat → K} (m k : Nat) (hz : ∀ j, 2 * j < (k + 1) * 2 ^ m → k ≤ j → ζ j * ζi j = 1) {b : List K}
    (h : b.length = 2 ^ m) : inv ζi m k (fwd ζ m k b) = b.map (2 ^ m * ·) := by
  induction m generalizing k b with
  | zero => simp [inv, fwd]
  | succ m ih =>
    have hb : b.length = 2 * 2 ^ m := by rw [h, pow_succ]; ring
    have hc := ct_length (ζ k) hb
    have h1 : ((ct (2 ^ m) (ζ k) b).take (2 ^ m)).length = 2 ^ m := by rw [List.length_take, hc]; omega
    have h2 : ((ct (2 ^ m) (ζ k) b).drop (2 ^ m)).length = 2 ^ m := by rw [List.length_drop, hc]; omega
    have hp : (2 : Nat) ^ (m + 1) = 2 * 2 ^ m := by rw [pow_succ]; ring
    rw [hp] at hz
    have p1 := Nat.one_le_two_pow (n := m)
    rw [inv, fwd, List.take_left' (fwd_length ζ m _ h1), List.drop_left' (fwd_length ζ m _ h1),
      ih (2 * k) (fun j hj hk => hz j (by nlinarith) (by omega)) h1,
      ih (2 * k + 1) (fun j hj hk => hz j (by nlinarith) (by omega)) h2, ← List.map_append, List.take_append_drop,
      gs_ct (hz k (by nlinarith) (le_refl k)) _ hb, pow_succ, mul_comm]

/-- The forward network undoes the inverse one up to the factor 2^m (42 R269). -/
theorem fwd_inv {ζ ζi : Nat → K} (m k : Nat) (hz : ∀ j, 2 * j < (k + 1) * 2 ^ m → k ≤ j → ζ j * ζi j = 1) {b : List K}
    (h : b.length = 2 ^ m) : fwd ζ m k (inv ζi m k b) = b.map (2 ^ m * ·) := by
  induction m generalizing k b with
  | zero => simp [inv, fwd]
  | succ m ih =>
    have hb : b.length = 2 * 2 ^ m := by rw [h, pow_succ]; ring
    have h1 : (b.take (2 ^ m)).length = 2 ^ m := by rw [List.length_take, hb]; omega
    have h2 : (b.drop (2 ^ m)).length = 2 ^ m := by rw [List.length_drop, hb]; omega
    have hp : (2 : Nat) ^ (m + 1) = 2 * 2 ^ m := by rw [pow_succ]; ring
    rw [hp] at hz
    have p1 := Nat.one_le_two_pow (n := m)
    have hl : (inv ζi m (2 * k) (b.take (2 ^ m)) ++ inv ζi m (2 * k + 1) (b.drop (2 ^ m))).length = 2 * 2 ^ m := by
      rw [List.length_append, inv_length ζi m _ h1, inv_length ζi m _ h2]; ring
    rw [inv, fwd, ct_gs (hz k (by nlinarith) (le_refl k)) hl, ← List.map_take, ← List.map_drop,
      List.take_left' (inv_length ζi m _ h1), List.drop_left' (inv_length ζi m _ h1), fwd_smul, fwd_smul,
      ih (2 * k) (fun j hj hk => hz j (by nlinarith) (by omega)) h1,
      ih (2 * k + 1) (fun j hj hk => hz j (by nlinarith) (by omega)) h2, ← List.map_append, ← List.map_append,
      List.take_append_drop, List.map_map]
    congr 1
    funext x
    simp only [Function.comp_apply, pow_succ]
    ring

/-! ## The forward network evaluates -/

/-- The point that node `j` stands for: X^(2^height) − point j is the modulus below it. -/
def point (ζ : Nat → K) (j : Nat) : K := if j % 2 = 0 then ζ (j / 2) else -ζ (j / 2)

/-- The polynomial with coefficients `b` at `x`. -/
def eval (x : K) (b : List K) : K := ∑ j ∈ Finset.range b.length, b.getD j 0 * x ^ j

/-- Halves: the polynomial is its lower half plus x^len times its upper half. -/
theorem eval_halves {len : Nat} (x : K) {b : List K} (h : b.length = 2 * len) :
    eval x b = eval x (b.take len) + x ^ len * eval x (b.drop len) := by
  have h1 : (b.take len).length = len := by rw [List.length_take]; omega
  have h2 : (b.drop len).length = len := by rw [List.length_drop]; omega
  rw [eval, eval, eval, h, h1, h2, two_mul, Finset.sum_range_add, Finset.mul_sum]
  congr 1
  · apply Finset.sum_congr rfl
    intro j hj
    have hj : j < len := Finset.mem_range.1 hj
    simp [List.getD_eq_getElem?_getD, hj]
  · apply Finset.sum_congr rfl
    intro j _
    simp only [List.getD_eq_getElem?_getD, List.getElem?_drop, pow_add]
    ring

/-- The lower half of CT's output evaluates as the block does where x^len = z. -/
theorem eval_ct_low {len : Nat} {z x : K} (hx : x ^ len = z) {b : List K} (h : b.length = 2 * len) :
    eval x ((ct len z b).take len) = eval x b := by
  have h1 : (b.take len).length = len := by rw [List.length_take]; omega
  have h2 : (b.drop len).length = len := by rw [List.length_drop]; omega
  rw [eval_halves x h, hx, ct, List.take_left' (by simp [h1, h2])]
  simp only [eval, List.length_zipWith, h1, h2, Nat.min_self]
  rw [Finset.mul_sum, ← Finset.sum_add_distrib]
  apply Finset.sum_congr rfl
  intro j hj
  have hj : j < len := Finset.mem_range.1 hj
  have hj2 : len + j < b.length := by omega
  have hj3 : j < b.length := by omega
  simp [List.getD_eq_getElem?_getD, List.getElem?_zipWith, hj, hj2, hj3]
  ring

/-- The upper half of CT's output evaluates as the block does where x^len = −z. -/
theorem eval_ct_high {len : Nat} {z x : K} (hx : x ^ len = -z) {b : List K} (h : b.length = 2 * len) :
    eval x ((ct len z b).drop len) = eval x b := by
  have h1 : (b.take len).length = len := by rw [List.length_take]; omega
  have h2 : (b.drop len).length = len := by rw [List.length_drop]; omega
  rw [eval_halves x h, hx, ct, List.drop_left' (by simp [h1, h2])]
  simp only [eval, List.length_zipWith, h1, h2, Nat.min_self]
  rw [Finset.mul_sum, ← Finset.sum_add_distrib]
  apply Finset.sum_congr rfl
  intro j hj
  have hj : j < len := Finset.mem_range.1 hj
  have hj2 : len + j < b.length := by omega
  have hj3 : j < b.length := by omega
  simp [List.getD_eq_getElem?_getD, List.getElem?_zipWith, hj, hj2, hj3]
  ring

/-- A leaf's point, raised to the size of the subtree, is the point of the subtree's node. -/
theorem point_pow {ζ : Nat → K} (m c : Nat) (hz : ∀ j, 2 * j < (c + 1) * 2 ^ m → c ≤ j → ζ j ^ 2 = point ζ j) (i : Nat)
    (hi : i < 2 ^ m) : point ζ (c * 2 ^ m + i) ^ 2 ^ m = point ζ c := by
  induction m generalizing c i with
  | zero =>
    have : i = 0 := by simpa using hi
    simp [this]
  | succ m ih =>
    have hp : (2 : Nat) ^ (m + 1) = 2 * 2 ^ m := by rw [pow_succ]; ring
    rw [hp] at hz hi
    have p1 := Nat.one_le_two_pow (n := m)
    have hcc := hz c (by nlinarith) (le_refl c)
    by_cases hl : i < 2 ^ m
    · have := ih (2 * c) (fun j hj hk => hz j (by nlinarith) (by omega)) i hl
      rw [hp, show c * (2 * 2 ^ m) + i = 2 * c * 2 ^ m + i by ring, Nat.mul_comm 2 (2 ^ m), pow_mul, this, point]
      simpa using hcc
    · have := ih (2 * c + 1) (fun j hj hk => hz j (by nlinarith) (by omega)) (i - 2 ^ m) (by omega)
      have e : c * (2 * 2 ^ m) + i = (2 * c + 1) * 2 ^ m + (i - 2 ^ m) := by
        have : i = 2 ^ m + (i - 2 ^ m) := by omega
        rw [Nat.add_mul]; nlinarith
      rw [hp, e, Nat.mul_comm 2 (2 ^ m), pow_mul, this, point, if_neg (by omega), show (2 * c + 1) / 2 = c by omega, neg_sq]
      exact hcc

/-- Entry `i` of the forward network is the value of the polynomial at leaf `i` (42 R268). -/
theorem fwd_getElem {ζ : Nat → K} (m k : Nat)
    (hk1 : 1 ≤ k) (hz : ∀ j, 2 * j < (k + 1) * 2 ^ m → k < j → ζ j ^ 2 = point ζ j) {b : List K} (h : b.length = 2 ^ m) (i : Nat)
    (hi : i < 2 ^ m) : (fwd ζ m k b).getD i 0 = eval (point ζ (k * 2 ^ m + i)) b := by
  induction m generalizing k b i with
  | zero =>
    have : i = 0 := by simpa using hi
    subst this
    simp [fwd, eval, h]
  | succ m ih =>
    have hp : (2 : Nat) ^ (m + 1) = 2 * 2 ^ m := by rw [pow_succ]; ring
    rw [hp] at hz hi h
    have p1 := Nat.one_le_two_pow (n := m)
    have hc := ct_length (ζ k) h
    have h1 : ((ct (2 ^ m) (ζ k) b).take (2 ^ m)).length = 2 ^ m := by rw [List.length_take, hc]; omega
    have h2 : ((ct (2 ^ m) (ζ k) b).drop (2 ^ m)).length = 2 ^ m := by rw [List.length_drop, hc]; omega
    rw [fwd]
    by_cases hl : i < 2 ^ m
    · rw [List.getD_append _ _ _ _ (by rw [fwd_length ζ m _ h1]; exact hl),
        ih (2 * k) (by omega) (fun j hj hk => hz j (by nlinarith) (by omega)) h1 i hl, hp,
        show k * (2 * 2 ^ m) + i = 2 * k * 2 ^ m + i by ring]
      apply eval_ct_low _ h
      rw [point_pow m (2 * k) (fun j hj hk => hz j (by nlinarith) (by omega)) i hl, point]
      simp
    · rw [List.getD_append_right _ _ _ _ (by rw [fwd_length ζ m _ h1]; omega), fwd_length ζ m _ h1,
        ih (2 * k + 1) (by omega) (fun j hj hk => hz j (by nlinarith) (by omega)) h2 _ (by omega), hp]
      have e : k * (2 * 2 ^ m) + i = (2 * k + 1) * 2 ^ m + (i - 2 ^ m) := by
        have : i = 2 ^ m + (i - 2 ^ m) := by omega
        rw [Nat.add_mul]; nlinarith
      rw [e]
      apply eval_ct_high _ h
      rw [point_pow m (2 * k + 1) (fun j hj hk => hz j (by nlinarith) (by omega)) _ (by omega), point, if_neg (by omega),
        show (2 * k + 1) / 2 = k by omega]

/-! ## The negacyclic product -/

/-- Coefficient `k` of the negacyclic product of two sequences of length `n` (00 R16). -/
def negacyclic (n : Nat) (a b : Nat → K) (k : Nat) : K :=
  ∑ i ∈ Finset.range n, ∑ j ∈ Finset.range n,
    if i + j = k then a i * b j else if i + j = k + n then -(a i * b j) else 0

/-- At a point with x^n = −1 the negacyclic product evaluates to the product of the values (the argument of 42 R270). -/
theorem eval_negacyclic {n : Nat} {x : K} (hx : x ^ n = -1) (a b : Nat → K) :
    ∑ k ∈ Finset.range n, negacyclic n a b k * x ^ k =
      (∑ i ∈ Finset.range n, a i * x ^ i) * ∑ j ∈ Finset.range n, b j * x ^ j := by
  simp only [negacyclic, Finset.sum_mul_sum]
  simp only [Finset.sum_mul]
  rw [Finset.sum_comm]
  apply Finset.sum_congr rfl
  intro i hi
  rw [Finset.sum_comm]
  apply Finset.sum_congr rfl
  intro j hj
  have hi := Finset.mem_range.1 hi
  have hj := Finset.mem_range.1 hj
  by_cases h : i + j < n
  · rw [Finset.sum_eq_single (i + j)]
    · rw [if_pos rfl, pow_add]; ring
    · intro k hkn hk
      have := Finset.mem_range.1 hkn
      rw [if_neg (by omega), if_neg (by omega), zero_mul]
    · intro hn; exact absurd (Finset.mem_range.2 h) hn
  · rw [Finset.sum_eq_single (i + j - n)]
    · rw [if_neg (by omega), if_pos (by omega)]
      have hw : x ^ i * x ^ j = -x ^ (i + j - n) := by
        rw [← pow_add, show i + j = (i + j - n) + n by omega, pow_add, hx, Nat.add_sub_cancel]; ring
      calc -(a i * b j) * x ^ (i + j - n) = a i * b j * (-x ^ (i + j - n)) := by ring
        _ = _ := by rw [← hw]; ring
    · intro k hkn hk
      have := Finset.mem_range.1 hkn
      rw [if_neg (by omega), if_neg (by omega), zero_mul]
    · intro hn; exact absurd (Finset.mem_range.2 (by omega)) hn

end Sys2Proof.Network
end

