-- ==== Sys2Proof/Laws/Transform.lean ====
section
/-! SUPPORT. The butterfly network (spec 42 R265 to R267): it keeps lengths and canonical elements, and its stages are the two
recursive trees `fwdTree` and `invTree`, which proofs about it go through. -/
namespace Sys2Proof.Machine

/-- Every element is a canonical representative (00 R19). -/
def AllCanonical (c : FieldCfg) (a : List Word) : Prop := ∀ x ∈ a, x.toNat < c.q.toNat

theorem AllCanonical.take {c : FieldCfg} {a : List Word} (h : AllCanonical c a) (n : Nat) : AllCanonical c (a.take n) :=
  fun x hx => h x (List.mem_of_mem_take hx)

theorem AllCanonical.drop {c : FieldCfg} {a : List Word} (h : AllCanonical c a) (n : Nat) : AllCanonical c (a.drop n) :=
  fun x hx => h x (List.mem_of_mem_drop hx)

theorem AllCanonical.append {c : FieldCfg} {a b : List Word} (ha : AllCanonical c a) (hb : AllCanonical c b) :
    AllCanonical c (a ++ b) := by
  intro x hx
  rcases List.mem_append.1 hx with h | h
  · exact ha x h
  · exact hb x h

theorem AllCanonical.zipWith {c : FieldCfg} {f : Word → Word → Word} {a b : List Word} (ha : AllCanonical c a)
    (hb : AllCanonical c b) (hf : ∀ x y, x.toNat < c.q.toNat → y.toNat < c.q.toNat → (f x y).toNat < c.q.toNat) :
    AllCanonical c (List.zipWith f a b) := by
  induction a generalizing b with
  | nil => intro x hx; simp at hx
  | cons u a ih =>
    cases b with
    | nil => intro x hx; simp at hx
    | cons v b =>
      intro x hx
      rw [List.zipWith_cons_cons, List.mem_cons] at hx
      rcases hx with h | h
      · rw [h]; exact hf u v (ha u (by simp)) (hb v (by simp))
      · exact ih (fun y hy => ha y (by simp [hy])) (fun y hy => hb y (by simp [hy])) x h

theorem AllCanonical.map {c : FieldCfg} {f : Word → Word} {a : List Word} (ha : AllCanonical c a)
    (hf : ∀ x, x.toNat < c.q.toNat → (f x).toNat < c.q.toNat) : AllCanonical c (a.map f) := by
  intro x hx
  obtain ⟨y, hy, rfl⟩ := List.mem_map.1 hx
  exact hf y (ha y hy)

/-! ## Blocks -/

@[simp] theorem ctBlock_length (c : FieldCfg) {len : Nat} (z : Word) {blk : List Word} (h : blk.length = 2 * len) :
    (ctBlock c len z blk).length = 2 * len := by
  simp [ctBlock, h]; omega

@[simp] theorem gsBlock_length (c : FieldCfg) {len : Nat} (zi : Word) {blk : List Word} (h : blk.length = 2 * len) :
    (gsBlock c len zi blk).length = 2 * len := by
  simp [gsBlock, h]; omega

theorem ctBlock_canonical {c : FieldCfg} {len : Nat} {z : Word} {blk : List Word} (h : AllCanonical c blk) :
    AllCanonical c (ctBlock c len z blk) := by
  have ht : AllCanonical c ((blk.drop len).map (fmul c z)) := (h.drop len).map fun x hx => fmul_lt_right z hx
  exact ((h.take len).zipWith ht fun _ _ => fadd_lt).append ((h.take len).zipWith ht fun _ _ => fsub_lt)

theorem gsBlock_canonical {c : FieldCfg} {len : Nat} {zi : Word} {blk : List Word} (h : AllCanonical c blk) :
    AllCanonical c (gsBlock c len zi blk) :=
  ((h.take len).zipWith (h.drop len) fun _ _ => fadd_lt).append
    (((h.take len).zipWith (h.drop len) fun _ _ => fsub_lt).map fun _ hx => fmul_lt_right zi hx)

theorem mapBlocks_length {g : Nat → List Word → List Word} {w : Nat} (hg : ∀ k x, x.length = w → (g k x).length = w)
    (B k : Nat) {a : List Word} (ha : a.length = B * w) : (mapBlocks g w B k a).length = B * w := by
  induction B generalizing k a with
  | zero => simpa [mapBlocks] using ha
  | succ B ih =>
    have h1 : (a.take w).length = w := by rw [List.length_take, ha]; apply Nat.min_eq_left; nlinarith
    have h2 : (a.drop w).length = B * w := by rw [List.length_drop, ha, Nat.add_mul]; omega
    rw [mapBlocks, List.length_append, hg k _ h1, ih (k + 1) h2]; ring

theorem mapBlocks_canonical {c : FieldCfg} {g : Nat → List Word → List Word} {w : Nat}
    (hg : ∀ k x, AllCanonical c x → AllCanonical c (g k x)) (B k : Nat) {a : List Word} (ha : AllCanonical c a) :
    AllCanonical c (mapBlocks g w B k a) := by
  induction B generalizing k a with
  | zero => exact ha
  | succ B ih => exact (hg k _ (ha.take w)).append (ih (k + 1) (ha.drop w))

/-- Two passes over the same sequence, the second over blocks half as wide, are one pass (42 R266). -/
theorem mapBlocks_split {g h : Nat → List Word → List Word} {w : Nat}
    (hg : ∀ k x, x.length = 2 * w → (g k x).length = 2 * w) (B k : Nat) {a : List Word} (ha : a.length = B * (2 * w)) :
    mapBlocks h w (2 * B) (2 * k) (mapBlocks g (2 * w) B k a) =
      mapBlocks (fun k x => h (2 * k) ((g k x).take w) ++ h (2 * k + 1) ((g k x).drop w)) (2 * w) B k a := by
  induction B generalizing k a with
  | zero => rfl
  | succ B ih =>
    have h1 : (a.take (2 * w)).length = 2 * w := by rw [List.length_take, ha]; apply Nat.min_eq_left; nlinarith
    have h2 : (a.drop (2 * w)).length = B * (2 * w) := by rw [List.length_drop, ha, Nat.add_mul]; omega
    have h3 := hg k _ h1
    have e : 2 * (B + 1) = 2 * B + 1 + 1 := by ring
    have e2 : 2 * k + 1 + 1 = 2 * (k + 1) := by ring
    have e3 : w + w = 2 * w := by ring
    rw [e, mapBlocks, mapBlocks, mapBlocks, mapBlocks, List.drop_drop, e2, e3]
    generalize hG : g k (a.take (2 * w)) = G at h3
    generalize hR : mapBlocks g (2 * w) B (k + 1) (a.drop (2 * w)) = r
    have f1 : (G ++ r).take w = G.take w := List.take_append_of_le_length (by omega)
    have f2 : ((G ++ r).drop w).take w = G.drop w := by
      rw [List.drop_append_of_le_length (by omega), List.take_append_of_le_length (by rw [List.length_drop]; omega),
        List.take_of_length_le (by rw [List.length_drop]; omega)]
    have f3 : (G ++ r).drop (2 * w) = r := List.drop_left' h3
    rw [f1, f2, f3, ← hR, ih (k + 1) h2, List.append_assoc]

/-- Two passes, the first over blocks half as wide, are one pass (42 R267). -/
theorem mapBlocks_join {g h : Nat → List Word → List Word} {w : Nat}
    (hh : ∀ k x, x.length = w → (h k x).length = w) (B k : Nat) {a : List Word} (ha : a.length = B * (2 * w)) :
    mapBlocks g (2 * w) B k (mapBlocks h w (2 * B) (2 * k) a) =
      mapBlocks (fun k x => g k (h (2 * k) (x.take w) ++ h (2 * k + 1) (x.drop w))) (2 * w) B k a := by
  induction B generalizing k a with
  | zero => rfl
  | succ B ih =>
    have h1 : (a.take w).length = w := by rw [List.length_take, ha]; apply Nat.min_eq_left; nlinarith
    have h2 : (a.drop (2 * w)).length = B * (2 * w) := by rw [List.length_drop, ha, Nat.add_mul]; omega
    have h3 : ((a.drop w).take w).length = w := by
      rw [List.length_take, List.length_drop, ha]; apply Nat.min_eq_left; rw [Nat.add_mul]; omega
    have e : 2 * (B + 1) = 2 * B + 1 + 1 := by ring
    have e2 : 2 * k + 1 + 1 = 2 * (k + 1) := by ring
    have e3 : w + w = 2 * w := by ring
    have e4 : (h (2 * k) (a.take w) ++ h (2 * k + 1) ((a.drop w).take w)).length = 2 * w := by
      rw [List.length_append, hh _ _ h1, hh _ _ h3]; ring
    rw [e, mapBlocks, mapBlocks, mapBlocks, mapBlocks, List.drop_drop, e2, e3, ← List.append_assoc]
    generalize hG : h (2 * k) (a.take w) ++ h (2 * k + 1) ((a.drop w).take w) = G at e4
    generalize hR : mapBlocks h w (2 * B) (2 * (k + 1)) (a.drop (2 * w)) = r
    have f1 : (G ++ r).take (2 * w) = G := List.take_left' e4
    have f2 : (G ++ r).drop (2 * w) = r := List.drop_left' e4
    have f3 : (a.take (2 * w)).take w = a.take w := by rw [List.take_take, Nat.min_eq_left (by omega)]
    have f4 : (a.take (2 * w)).drop w = (a.drop w).take w := by rw [List.drop_take, show 2 * w - w = w by omega]
    rw [f1, f2, f3, f4, hG, ← hR, ih (k + 1) h2]

/-! ## The trees -/

/-- The forward network below node `k`, of 2^m entries: one block, then the two halves at the nodes 2k and 2k + 1. -/
def fwdTree (c : FieldCfg) (zeta : List Word) : Nat → Nat → List Word → List Word
  | 0, _, a => a
  | m + 1, k, a =>
    fwdTree c zeta m (2 * k) ((ctBlock c (2 ^ m) (zeta.getD k 0) a).take (2 ^ m)) ++
    fwdTree c zeta m (2 * k + 1) ((ctBlock c (2 ^ m) (zeta.getD k 0) a).drop (2 ^ m))

/-- The inverse network below node `k`, without the final scaling. -/
def invTree (c : FieldCfg) (zetainv : List Word) : Nat → Nat → List Word → List Word
  | 0, _, a => a
  | m + 1, k, a =>
    gsBlock c (2 ^ m) (zetainv.getD k 0)
      (invTree c zetainv m (2 * k) (a.take (2 ^ m)) ++ invTree c zetainv m (2 * k + 1) (a.drop (2 ^ m)))

theorem fwdTree_length (c : FieldCfg) (zeta : List Word) (m k : Nat) {a : List Word} (h : a.length = 2 ^ m) :
    (fwdTree c zeta m k a).length = 2 ^ m := by
  induction m generalizing k a with
  | zero => simpa [fwdTree] using h
  | succ m ih =>
    have hl := ctBlock_length c (zeta.getD k 0) (show a.length = 2 * 2 ^ m by rw [h, pow_succ]; ring)
    rw [fwdTree, List.length_append, ih, ih, pow_succ]
    · ring
    · rw [List.length_drop, hl]; omega
    · rw [List.length_take, hl]; omega

theorem invTree_length (c : FieldCfg) (zetainv : List Word) (m k : Nat) {a : List Word} (h : a.length = 2 ^ m) :
    (invTree c zetainv m k a).length = 2 ^ m := by
  induction m generalizing k a with
  | zero => simpa [invTree] using h
  | succ m ih =>
    have e : 2 ^ (m + 1) = 2 * 2 ^ m := by rw [pow_succ]; ring
    rw [invTree, e]
    apply gsBlock_length
    rw [List.length_append, ih, ih]
    · ring
    · rw [List.length_drop, h]; omega
    · rw [List.length_take, h]; omega

theorem fwdTree_canonical {c : FieldCfg} {zeta : List Word} (m k : Nat) {a : List Word} (h : AllCanonical c a) :
    AllCanonical c (fwdTree c zeta m k a) := by
  induction m generalizing k a with
  | zero => exact h
  | succ m ih => exact (ih _ ((ctBlock_canonical h).take _)).append (ih _ ((ctBlock_canonical h).drop _))

theorem invTree_canonical {c : FieldCfg} {zetainv : List Word} (m k : Nat) {a : List Word} (h : AllCanonical c a) :
    AllCanonical c (invTree c zetainv m k a) := by
  induction m generalizing k a with
  | zero => exact h
  | succ m ih => exact gsBlock_canonical ((ih _ (h.take _)).append (ih _ (h.drop _)))

/-- The forward stages from stage `s` on, over `m` further levels, are one pass of trees. -/
theorem fwdStages_eq_tree (c : FieldCfg) (zeta : List Word) (logn m s : Nat) (hm : s + m = logn) {a : List Word}
    (ha : a.length = 2 ^ logn) :
    (List.range m).foldl (fun a t => fwdStage c zeta logn (s + t) a) a =
      mapBlocks (fwdTree c zeta m) (2 ^ m) (2 ^ s) (2 ^ s) a := by
  induction m generalizing s a with
  | zero =>
    have h : ∀ B k (b : List Word), mapBlocks (fwdTree c zeta 0) (2 ^ 0) B k b = b := by
      intro B
      induction B with
      | zero => intro k b; rfl
      | succ B ih => intro k b; rw [mapBlocks, ih, fwdTree, List.take_append_drop]
    rw [h]; rfl
  | succ m ih =>
    have e1 : logn - 1 - s = m := by omega
    have e2 : logn - s = m + 1 := by omega
    have hw : (2 : Nat) ^ (m + 1) = 2 * 2 ^ m := by rw [pow_succ]; ring
    have hs : (2 : Nat) ^ (s + 1) = 2 * 2 ^ s := by rw [pow_succ]; ring
    have ha2 : a.length = 2 ^ s * (2 * 2 ^ m) := by rw [ha, ← hm, pow_add, hw]
    have hg : ∀ k x, x.length = 2 * 2 ^ m → (ctBlock c (2 ^ m) (zeta.getD k 0) x).length = 2 * 2 ^ m :=
      fun k x hx => ctBlock_length c _ hx
    have hst : fwdStage c zeta logn s a =
        mapBlocks (fun k => ctBlock c (2 ^ m) (zeta.getD k 0)) (2 * 2 ^ m) (2 ^ s) (2 ^ s) a := by
      rw [fwdStage, e1, e2, hw]
    have hlen : (fwdStage c zeta logn s a).length = 2 ^ logn := by
      rw [hst, mapBlocks_length hg _ _ ha2, ← hm, pow_add, hw]
    rw [List.range_succ_eq_map, List.foldl_cons, List.foldl_map, Nat.add_zero]
    have := ih (s + 1) (by omega) hlen
    simp only [Nat.succ_eq_add_one, Nat.add_assoc, Nat.add_comm 1] at this ⊢
    rw [this, hst, hs, mapBlocks_split hg _ _ ha2, hw]
    rfl

/-- The forward transform is one tree at node 1 (42 R266). -/
theorem nttFwd_eq_tree (c : FieldCfg) (zeta : List Word) (logn : Nat) {a : List Word} (ha : a.length = 2 ^ logn) :
    nttFwd c zeta logn a = fwdTree c zeta logn 1 a := by
  have h := fwdStages_eq_tree c zeta logn logn 0 (by omega) ha
  simp only [Nat.zero_add, pow_zero, mapBlocks] at h
  rw [nttFwd, h, ← ha, List.take_length, List.drop_length, List.append_nil]

/-- The inverse stages from stage `s` on, over `m` further levels, are one pass of trees. -/
theorem invStages_eq_tree (c : FieldCfg) (zetainv : List Word) (logn m s : Nat) (hm : s + m = logn) {a : List Word}
    (ha : a.length = 2 ^ logn) :
    (List.range m).foldr (fun t a => invStage c zetainv logn (s + t) a) a =
      mapBlocks (invTree c zetainv m) (2 ^ m) (2 ^ s) (2 ^ s) a := by
  induction m generalizing s a with
  | zero =>
    have h : ∀ B k (b : List Word), mapBlocks (invTree c zetainv 0) (2 ^ 0) B k b = b := by
      intro B
      induction B with
      | zero => intro k b; rfl
      | succ B ih => intro k b; rw [mapBlocks, ih, invTree, List.take_append_drop]
    rw [h]; rfl
  | succ m ih =>
    have e1 : logn - 1 - s = m := by omega
    have e2 : logn - s = m + 1 := by omega
    have hw : (2 : Nat) ^ (m + 1) = 2 * 2 ^ m := by rw [pow_succ]; ring
    have hs : (2 : Nat) ^ (s + 1) = 2 * 2 ^ s := by rw [pow_succ]; ring
    have ha2 : a.length = 2 ^ s * (2 * 2 ^ m) := by rw [ha, ← hm, pow_add, hw]
    rw [List.range_succ_eq_map, List.foldr_cons, List.foldr_map, Nat.add_zero]
    have := ih (s + 1) (by omega) ha
    simp only [Nat.succ_eq_add_one, Nat.add_assoc, Nat.add_comm 1] at this ⊢
    rw [this, invStage, e1, e2, hs, hw, mapBlocks_join (fun k x hx => invTree_length c zetainv m k hx) _ _ ha2]
    rfl

/-- The inverse transform is one tree at node 1, then the scaling (42 R267). -/
theorem nttInv_eq_tree (c : FieldCfg) (zetainv : List Word) (ninv : Word) (logn : Nat) {a : List Word}
    (ha : a.length = 2 ^ logn) :
    nttInv c zetainv ninv logn a = (invTree c zetainv logn 1 a).map fun x => fmul c x ninv := by
  have h := invStages_eq_tree c zetainv logn logn 0 (by omega) ha
  simp only [Nat.zero_add, pow_zero, mapBlocks] at h
  rw [nttInv, List.foldl_reverse, h, ← ha, List.take_length, List.drop_length, List.append_nil]

/-! ## Lengths and canonical elements of the transforms -/

theorem nttFwd_length (c : FieldCfg) (zeta : List Word) (logn : Nat) {a : List Word} (ha : a.length = 2 ^ logn) :
    (nttFwd c zeta logn a).length = 2 ^ logn := by
  rw [nttFwd_eq_tree c zeta logn ha]; exact fwdTree_length c zeta logn 1 ha

theorem nttInv_length (c : FieldCfg) (zetainv : List Word) (ninv : Word) (logn : Nat) {a : List Word}
    (ha : a.length = 2 ^ logn) : (nttInv c zetainv ninv logn a).length = 2 ^ logn := by
  rw [nttInv_eq_tree c zetainv ninv logn ha, List.length_map]; exact invTree_length c zetainv logn 1 ha

theorem nttFwd_canonical {c : FieldCfg} (zeta : List Word) {logn : Nat} {a : List Word} (ha : a.length = 2 ^ logn)
    (h : AllCanonical c a) : AllCanonical c (nttFwd c zeta logn a) := by
  rw [nttFwd_eq_tree c zeta logn ha]; exact fwdTree_canonical logn 1 h

theorem nttInv_canonical {c : FieldCfg} (zetainv : List Word) (ninv : Word) {logn : Nat} {a : List Word}
    (ha : a.length = 2 ^ logn) (h : AllCanonical c a) : AllCanonical c (nttInv c zetainv ninv logn a) := by
  rw [nttInv_eq_tree c zetainv ninv logn ha]
  exact (invTree_canonical logn 1 h).map fun _ hx => fmul_lt hx ninv

end Sys2Proof.Machine
end

