-- ==== Sys2Proof/Laws/Values.lean ====
section
/-! SUPPORT. Representatives as elements of Zq: what the field operations, the tables of a context and the two transforms are there
(spec 41 R213, R224; 42 R261 to R263, R265 to R269). -/
namespace Sys2Proof.Machine

/-- The residue a stored word stands for, before decoding. -/
def val (c : FieldCfg) (x : Word) : ZMod c.q.toNat := (x.toNat : ZMod c.q.toNat)

/-- R⁻¹ in Zq. -/
def rho (c : FieldCfg) : ZMod c.q.toNat := (radixInv c.q.toNat : ZMod c.q.toNat)

/-- 2⁻¹ in Zq. -/
def half (c : FieldCfg) : ZMod c.q.toNat := (((c.q.toNat + 1) / 2 : Nat) : ZMod c.q.toNat)

/-- Canonical representatives with one residue are one word. -/
theorem val_inj {c : FieldCfg} {x y : Word} (hx : x.toNat < c.q.toNat) (hy : y.toNat < c.q.toNat)
    (h : val c x = val c y) : x = y := by
  have := (ZMod.natCast_eq_natCast_iff' _ _ _).1 h
  rw [Nat.mod_eq_of_lt hx, Nat.mod_eq_of_lt hy] at this
  exact BitVec.eq_of_toNat_eq this

/-- Canonical sequences with one sequence of residues are one sequence. -/
theorem map_val_inj {c : FieldCfg} {a b : List Word} (ha : AllCanonical c a) (hb : AllCanonical c b)
    (h : a.map (val c) = b.map (val c)) : a = b := by
  induction a generalizing b with
  | nil => cases b with
    | nil => rfl
    | cons v b => simp at h
  | cons u a ih =>
    cases b with
    | nil => simp at h
    | cons v b =>
      simp only [List.map_cons, List.cons.injEq] at h
      rw [val_inj (ha u (by simp)) (hb v (by simp)) h.1,
        ih (fun x hx => ha x (by simp [hx])) (fun x hx => hb x (by simp [hx])) h.2]

theorem two_mul_half {c : FieldCfg} (h : cfgOk c = true) : (2 : ZMod c.q.toNat) * half c = 1 := by
  have ho := cfgOk_odd h
  have e : 2 * ((c.q.toNat + 1) / 2) = c.q.toNat + 1 := by omega
  have := congrArg (Nat.cast (R := ZMod c.q.toNat)) e
  push_cast at this
  rw [half, this]; simp

theorem cast_radix (q : Nat) : ((radix : Nat) : ZMod q) = 2 ^ 1024 := by
  rw [show radix = 2 ^ 1024 from rfl, Nat.cast_pow]; norm_cast

theorem rho_eq (c : FieldCfg) : rho c = half c ^ 1024 := by
  rw [rho, radixInv, ZMod.natCast_mod, Nat.cast_pow, half]

theorem radix_mul_rho {c : FieldCfg} (h : cfgOk c = true) : ((radix : Nat) : ZMod c.q.toNat) * rho c = 1 := by
  rw [cast_radix, rho_eq, ← mul_pow, two_mul_half h, one_pow]

/-! ## Field operations (41 R224) -/

theorem val_fadd {c : FieldCfg} {a b : Word} (ha : a.toNat < c.q.toNat) (hb : b.toNat < c.q.toNat) :
    val c (fadd c a b) = val c a + val c b := by
  rw [val, fadd_toNat ha hb, ZMod.natCast_mod, Nat.cast_add]; rfl

theorem val_fsub {c : FieldCfg} {a b : Word} (ha : a.toNat < c.q.toNat) (hb : b.toNat < c.q.toNat) :
    val c (fsub c a b) = val c a - val c b := by
  rw [val, fsub_toNat ha hb, ZMod.natCast_mod, Nat.cast_add, Nat.cast_sub hb.le, ZMod.natCast_self]
  simp only [val]; ring

theorem val_fneg {c : FieldCfg} {a : Word} (ha : a.toNat < c.q.toNat) : val c (fneg c a) = -val c a := by
  rw [val, fneg_toNat ha, ZMod.natCast_mod, Nat.cast_sub ha.le, ZMod.natCast_self]
  simp only [val]; ring

/-- Montgomery reduction divides by the radix (41 R213). -/
theorem val_redc {c : FieldCfg} (h : cfgOk c = true) {t : Nat} (ht : t < radix * radix) :
    val c (redc c t) = (t : ZMod c.q.toNat) * rho c := by
  have := (ZMod.natCast_eq_natCast_iff' _ _ _).2 (redc_mul_radix h ht)
  rw [Nat.cast_mul] at this
  calc val c (redc c t) = val c (redc c t) * (((radix : Nat) : ZMod c.q.toNat) * rho c) := by
        rw [radix_mul_rho h, mul_one]
    _ = (t : ZMod c.q.toNat) * rho c := by rw [← mul_assoc, ← this]; rfl

theorem val_fmul {c : FieldCfg} (h : cfgOk c = true) (a b : Word) :
    val c (fmul c a b) = val c a * val c b * rho c := by
  rw [fmul, wideProduct, val_redc h (Nat.mul_lt_mul'' (word_lt_radix a) (word_lt_radix b)), Nat.cast_mul]; rfl

theorem val_fdec {c : FieldCfg} (h : cfgOk c = true) (a : Word) : val c (fdec c a) = val c a * rho c := by
  rw [fdec, val_redc h]
  · rfl
  · exact lt_of_lt_of_le (word_lt_radix a) (Nat.le_mul_of_pos_left _ radix_pos)

/-- The value of a representative (00 R14). -/
theorem cast_decNat (c : FieldCfg) (a : Word) :
    ((decNat c.q.toNat a.toNat : Nat) : ZMod c.q.toNat) = val c a * rho c := by
  rw [decNat, ZMod.natCast_mod, Nat.cast_mul]; rfl

theorem val_r1 {c : FieldCfg} (h : cfgOk c = true) : val c c.r1 = ((radix : Nat) : ZMod c.q.toNat) := by
  rw [val, cfgOk_r1 h, ZMod.natCast_mod]

theorem val_r2 {c : FieldCfg} (h : cfgOk c = true) :
    val c c.r2 = ((radix : Nat) : ZMod c.q.toNat) * ((radix : Nat) : ZMod c.q.toNat) := by
  rw [val, cfgOk_r2 h, ZMod.natCast_mod, cast_radix, ← pow_add, Nat.cast_pow]; norm_cast

/-- FENC multiplies by the radix (41 R214). -/
theorem val_fenc {c : FieldCfg} (h : cfgOk c = true) (x : Word) :
    val c (fenc c x) = (x.toNat : ZMod c.q.toNat) * ((radix : Nat) : ZMod c.q.toNat) := by
  have e := val_fmul h x c.r2
  rw [fmul] at e
  rw [fenc, e, val_r2 h]
  calc val c x * (((radix : Nat) : ZMod c.q.toNat) * ((radix : Nat) : ZMod c.q.toNat)) * rho c
      = val c x * ((radix : Nat) : ZMod c.q.toNat) * (((radix : Nat) : ZMod c.q.toNat) * rho c) := by ring
    _ = _ := by rw [radix_mul_rho h, mul_one]; rfl

/-- A packed encoding is a canonical word (00 R14). -/
theorem encNat_toNat {c : FieldCfg} (h : cfgOk c = true) (x : Nat) :
    (BitVec.ofNat 1024 (encNat c.q.toNat x)).toNat = encNat c.q.toNat x := by
  rw [BitVec.toNat_ofNat]
  apply Nat.mod_eq_of_lt
  exact lt_trans (Nat.mod_lt _ (cfgOk_q_pos h)) (word_lt_radix c.q)

theorem encNat_lt {c : FieldCfg} (h : cfgOk c = true) (x : Nat) : encNat c.q.toNat x < c.q.toNat :=
  Nat.mod_lt _ (cfgOk_q_pos h)

theorem val_enc {c : FieldCfg} (h : cfgOk c = true) (x : Nat) :
    val c (BitVec.ofNat 1024 (encNat c.q.toNat x)) = (x : ZMod c.q.toNat) * ((radix : Nat) : ZMod c.q.toNat) := by
  rw [val, encNat_toNat h, encNat, ZMod.natCast_mod, Nat.cast_mul]

/-! ## The tables of a context (42 R261 to R263) -/

/-- ψ in Zq. -/
def psiZ (c : FieldCfg) (logn : Nat) : ZMod c.q.toNat := (psiOf c logn : ZMod c.q.toNat)

/-- ψ^n = −1 (42 R261). -/
theorem psi_pow {c : FieldCfg} (h : cfgOk c = true) {logn : Nat} (hl : logn + 1 ≤ c.s.toNat) :
    psiZ c logn ^ 2 ^ logn = -1 := by
  have hr := cfgOk_root h
  have e : (2 : Nat) ^ (c.s.toNat - 1 - logn) * 2 ^ logn = 2 ^ (c.s.toNat - 1) := by
    rw [← pow_add]; congr 1; omega
  rw [psiZ, psiOf, squareTimes_eq, ZMod.natCast_mod, Nat.cast_pow, ← pow_mul, e]
  have := congrArg (Nat.cast (R := ZMod c.q.toNat)) hr
  rw [ZMod.natCast_mod, Nat.cast_pow, Nat.cast_sub (cfgOk_q_pos h), ZMod.natCast_self] at this
  simpa using this

theorem psi_pow_two {c : FieldCfg} (h : cfgOk c = true) {logn : Nat} (hl : logn + 1 ≤ c.s.toNat) :
    psiZ c logn ^ (2 * 2 ^ logn) = 1 := by
  rw [mul_comm, pow_mul, psi_pow h hl]; norm_num

/-- The twiddle of node `j`, as a factor in Zq. -/
def twiddle (c : FieldCfg) (table : List Word) (j : Nat) : ZMod c.q.toNat := val c (table.getD j 0) * rho c

theorem twiddle_zeta {c : FieldCfg} (h : cfgOk c = true) (logn : Nat) {j : Nat} (hj : j < 2 ^ logn) :
    twiddle c (zetaTable c logn) j = psiZ c logn ^ brv logn j := by
  have e : (zetaTable c logn).getD j 0 =
      BitVec.ofNat 1024 (encNat c.q.toNat (psiOf c logn ^ brv logn j % c.q.toNat)) := by
    simp [zetaTable, List.getD_eq_getElem?_getD, hj]
  rw [twiddle, e, val_enc h, ZMod.natCast_mod, Nat.cast_pow, mul_assoc, radix_mul_rho h, mul_one]; rfl

theorem twiddle_zetainv {c : FieldCfg} (h : cfgOk c = true) (logn : Nat) {j : Nat} (hj : j < 2 ^ logn) :
    twiddle c (zetainvTable c logn) j = psiZ c logn ^ ((2 * 2 ^ logn - brv logn j) % (2 * 2 ^ logn)) := by
  have e : (zetainvTable c logn).getD j 0 = BitVec.ofNat 1024 (encNat c.q.toNat
      (psiOf c logn ^ ((2 * 2 ^ logn - brv logn j) % (2 * 2 ^ logn)) % c.q.toNat)) := by
    simp [zetainvTable, List.getD_eq_getElem?_getD, hj]
  rw [twiddle, e, val_enc h, ZMod.natCast_mod, Nat.cast_pow, mul_assoc, radix_mul_rho h, mul_one]; rfl

/-- The two twiddles of a node are inverse to each other (42 R262). -/
theorem twiddle_inverse {c : FieldCfg} (h : cfgOk c = true) {logn : Nat} (hl : logn + 1 ≤ c.s.toNat) {j : Nat}
    (hj : j < 2 ^ logn) : twiddle c (zetaTable c logn) j * twiddle c (zetainvTable c logn) j = 1 := by
  rw [twiddle_zeta h logn hj, twiddle_zetainv h logn hj, ← pow_eq_pow_mod _ (psi_pow_two h hl), ← pow_add]
  have := brv_lt logn j
  rw [show brv logn j + (2 * 2 ^ logn - brv logn j) = 2 * 2 ^ logn by omega, psi_pow_two h hl]

/-- The scaling constant is n⁻¹ in Montgomery form (42 R263). -/
theorem val_ninv {c : FieldCfg} (h : cfgOk c = true) (logn : Nat) : val c (ninvOf c logn) * rho c = half c ^ logn := by
  rw [ninvOf, val_enc h, mul_assoc, radix_mul_rho h, mul_one, invDegree, ZMod.natCast_mod, Nat.cast_pow]; rfl

/-! ## The transforms in Zq -/

theorem ctBlock_val {c : FieldCfg} (h : cfgOk c = true) (len : Nat) (z : Word) {a : List Word} (ha : AllCanonical c a) :
    (ctBlock c len z a).map (val c) = Network.ct len (val c z * rho c) (a.map (val c)) := by
  have key : ∀ (f : Word → Word → Word) (g : ZMod c.q.toNat → ZMod c.q.toNat → ZMod c.q.toNat),
      (∀ u v, u.toNat < c.q.toNat → v.toNat < c.q.toNat → val c (f u (fmul c z v)) = g (val c u) (val c v)) →
      ∀ x y : List Word, AllCanonical c x → AllCanonical c y →
      (List.zipWith f x (y.map (fmul c z))).map (val c) = List.zipWith g (x.map (val c)) (y.map (val c)) := by
    intro f g hfg x
    induction x with
    | nil => intro y _ _; simp
    | cons u x ih =>
      intro y hx hy
      cases y with
      | nil => simp
      | cons v y =>
        simp only [List.map_cons, List.zipWith_cons_cons]
        rw [hfg u v (hx u (by simp)) (hy v (by simp)),
          ih y (fun w hw => hx w (by simp [hw])) (fun w hw => hy w (by simp [hw]))]
  rw [ctBlock, List.map_append, Network.ct, ← List.map_take, ← List.map_drop]
  congr 1
  · apply key _ _ _ _ _ (ha.take len) (ha.drop len)
    intro u v hu hv
    rw [val_fadd hu (fmul_lt_right z hv), val_fmul h]; ring
  · apply key _ _ _ _ _ (ha.take len) (ha.drop len)
    intro u v hu hv
    rw [val_fsub hu (fmul_lt_right z hv), val_fmul h]; ring

theorem gsBlock_val {c : FieldCfg} (h : cfgOk c = true) (len : Nat) (zi : Word) {a : List Word} (ha : AllCanonical c a) :
    (gsBlock c len zi a).map (val c) = Network.gs len (val c zi * rho c) (a.map (val c)) := by
  have key : ∀ (f : Word → Word → Word) (g : ZMod c.q.toNat → ZMod c.q.toNat → ZMod c.q.toNat),
      (∀ u v, u.toNat < c.q.toNat → v.toNat < c.q.toNat → val c (f u v) = g (val c u) (val c v)) →
      ∀ x y : List Word, AllCanonical c x → AllCanonical c y →
      (List.zipWith f x y).map (val c) = List.zipWith g (x.map (val c)) (y.map (val c)) := by
    intro f g hfg x
    induction x with
    | nil => intro y _ _; simp
    | cons u x ih =>
      intro y hx hy
      cases y with
      | nil => simp
      | cons v y =>
        simp only [List.map_cons, List.zipWith_cons_cons]
        rw [hfg u v (hx u (by simp)) (hy v (by simp)),
          ih y (fun w hw => hx w (by simp [hw])) (fun w hw => hy w (by simp [hw]))]
  rw [gsBlock, List.map_append, Network.gs, ← List.map_take, ← List.map_drop]
  congr 1
  · exact key _ _ (fun u v hu hv => val_fadd hu hv) _ _ (ha.take len) (ha.drop len)
  · rw [List.map_zipWith]
    apply key _ _ _ _ _ (ha.take len) (ha.drop len)
    intro u v hu hv
    rw [val_fmul h, val_fsub hu hv]; ring

/-- The forward tree, in Zq. -/
theorem fwdTree_val {c : FieldCfg} (h : cfgOk c = true) (zeta : List Word) (m k : Nat) {a : List Word}
    (ha : AllCanonical c a) :
    (fwdTree c zeta m k a).map (val c) = Network.fwd (twiddle c zeta) m k (a.map (val c)) := by
  induction m generalizing k a with
  | zero => rfl
  | succ m ih =>
    have hc := ctBlock_canonical (len := 2 ^ m) (z := zeta.getD k 0) ha
    rw [fwdTree, List.map_append, ih _ (hc.take _), ih _ (hc.drop _), List.map_take, List.map_drop,
      ctBlock_val h _ _ ha]
    rfl

/-- The inverse tree, in Zq. -/
theorem invTree_val {c : FieldCfg} (h : cfgOk c = true) (zetainv : List Word) (m k : Nat) {a : List Word}
    (ha : AllCanonical c a) :
    (invTree c zetainv m k a).map (val c) = Network.inv (twiddle c zetainv) m k (a.map (val c)) := by
  induction m generalizing k a with
  | zero => rfl
  | succ m ih =>
    have h1 := invTree_canonical (zetainv := zetainv) m (2 * k) (ha.take (2 ^ m))
    have h2 := invTree_canonical (zetainv := zetainv) m (2 * k + 1) (ha.drop (2 ^ m))
    rw [invTree, gsBlock_val h _ _ (h1.append h2), List.map_append, ih _ (ha.take _), ih _ (ha.drop _), List.map_take,
      List.map_drop]
    rfl

/-! ## The leaves (42 R268) -/

/-- One more bit on top of `k` becomes the lowest bit of the reversal. -/
theorem brv_top (b k : Nat) (hk : k < 2 ^ b) : brv (b + 1) (2 ^ b + k) = 1 + brv (b + 1) k := by
  induction b generalizing k with
  | zero =>
    have : k = 0 := by simpa using hk
    subst this; rfl
  | succ b ih =>
    have hp : (2 : Nat) ^ (b + 1) = 2 * 2 ^ b := by rw [pow_succ]; ring
    have f1 : brv (b + 1 + 1) (2 ^ (b + 1) + k) =
        (2 ^ (b + 1) + k) % 2 * 2 ^ (b + 1) + brv (b + 1) ((2 ^ (b + 1) + k) / 2) := rfl
    have f2 : brv (b + 1 + 1) k = k % 2 * 2 ^ (b + 1) + brv (b + 1) (k / 2) := rfl
    rw [f1, f2, show (2 ^ (b + 1) + k) % 2 = k % 2 by omega, show (2 ^ (b + 1) + k) / 2 = 2 ^ b + k / 2 by omega,
      ih (k / 2) (by omega)]
    omega

/-- Below half of the range, one more bit of width doubles the reversal. -/
theorem brv_succ (b k : Nat) (hk : k < 2 ^ b) : brv (b + 1) k = 2 * brv b k := by
  induction b generalizing k with
  | zero =>
    have : k = 0 := by simpa using hk
    subst this; rfl
  | succ b ih =>
    have hp : (2 : Nat) ^ (b + 1) = 2 * 2 ^ b := by rw [pow_succ]; ring
    rw [brv, ih (k / 2) (by omega), brv, hp]
    ring

/-- A node's twiddle squared is the node's own point (the structure behind 42 R262). -/
theorem twiddle_sq {c : FieldCfg} (h : cfgOk c = true) {logn : Nat} (hl : logn + 1 ≤ c.s.toNat) {j : Nat} (hj1 : 1 < j)
    (hj : j < 2 ^ logn) : twiddle c (zetaTable c logn) j ^ 2 = Network.point (twiddle c (zetaTable c logn)) j := by
  cases logn with
  | zero => simp at hj; omega
  | succ b =>
    have hp : (2 : Nat) ^ (b + 1) = 2 * 2 ^ b := by rw [pow_succ]; ring
    rw [hp] at hj
    have e1 : brv (b + 1) j = j % 2 * 2 ^ b + brv b (j / 2) := rfl
    have e2 := brv_succ b (j / 2) (by omega)
    rw [Network.point, twiddle_zeta h _ (by omega), twiddle_zeta h _ (by omega), ← pow_mul, e1, e2]
    by_cases hm : j % 2 = 0
    · rw [if_pos hm, hm]; congr 1; ring
    · rw [if_neg hm, show j % 2 = 1 by omega, one_mul, add_mul, pow_add,
        show 2 ^ b * 2 = 2 ^ (b + 1) by rw [pow_succ], psi_pow h hl, Nat.mul_comm 2]
      ring

/-- Leaf `i` stands for ζ_i = ψ^(2·brv_b(i) + 1) (42 R268). -/
theorem point_leaf {c : FieldCfg} (h : cfgOk c = true) {logn : Nat} (hl : logn + 1 ≤ c.s.toNat) {i : Nat}
    (hi : i < 2 ^ logn) (h0 : 0 < logn) :
    Network.point (twiddle c (zetaTable c logn)) (2 ^ logn + i) = psiZ c logn ^ (2 * brv logn i + 1) := by
  cases logn with
  | zero => omega
  | succ b =>
    have hp : (2 : Nat) ^ (b + 1) = 2 * 2 ^ b := by rw [pow_succ]; ring
    rw [hp] at hi
    have e1 : brv (b + 1) i = i % 2 * 2 ^ b + brv b (i / 2) := rfl
    have e2 := brv_top b (i / 2) (by omega)
    have e3 := brv_succ b (i / 2) (by omega)
    have e4 : (2 ^ (b + 1) + i) / 2 = 2 ^ b + i / 2 := by omega
    rw [Network.point, e4, twiddle_zeta h _ (by omega), e1, e2, e3]
    by_cases hm : i % 2 = 0
    · rw [if_pos (by omega), hm]; congr 1; ring
    · rw [if_neg (by omega), show i % 2 = 1 by omega, one_mul,
        show 2 * (2 ^ b + brv b (i / 2)) + 1 = 2 ^ (b + 1) + (1 + 2 * brv b (i / 2)) by rw [hp]; ring,
        pow_add _ (2 ^ (b + 1)), psi_pow h hl]
      ring

end Sys2Proof.Machine
end

