-- ==== Sys2Proof/Laws/Invariant.lean ====
section
/-! SUPPORT. What each shared operation does to the invariant of 10 R56 (`State.Inv`), one lemma per operation. -/
namespace Sys2Proof.Machine

/-! ## What the invariant reads -/

/-- The invariant reads neither W registers, flags, counters, the fault record, the host's accesses nor the stored stage entries. -/
theorem State.Inv.congr {s t : State} (h : s.Inv) (hp : t.params = s.params) (hv : t.status.cfgv = s.status.cfgv)
    (he : t.status.err = .none ↔ t.status.fault = false) (hc : t.cfg = s.cfg) (hx : t.cx = s.cx)
    (hn : t.nextCid = s.nextCid) (hr : t.re = s.re) (hs : t.stage.length = s.stage.length) (hl : t.slen ≤ s.params.nmax) :
    t.Inv where
  legal := by rw [hp]; exact h.legal
  refcounts := by
    intro c; rw [hx, h.refcounts c]; simp only [State.refs, hr]
  bound_ctx := by rw [hr, hx]; exact h.bound_ctx
  held := by rw [hx]; exact h.held
  configured := by rw [hx, hv]; exact h.configured
  data_canonical := by
    have e : ∀ r, t.ringData r = s.ringData r := fun r => by
      simp only [State.ringData, State.ringDegree, State.degree, State.logDegree, hr, hx]
    rw [hr, hc]; intro r hb; rw [e r]; exact h.data_canonical r hb
  cids_distinct := by rw [hx]; exact h.cids_distinct
  cids_given := by rw [hx, hn]; exact h.cids_given
  nextCid_pos := by rw [hn]; exact h.nextCid_pos
  committed := by rw [hv, hc]; exact h.committed
  built := by rw [hx, hc]; exact h.built
  degrees := by
    have e : ∀ c, t.logDegree c = s.logDegree c := fun c => by simp only [State.logDegree, hx]
    intro c; rw [hx, e c, hp, hc]; exact h.degrees c
  free_ctx := by rw [hx]; exact h.free_ctx
  free_ring := by rw [hr]; exact h.free_ring
  ctx_exists := by rw [hx, hp]; exact h.ctx_exists
  ring_exists := by rw [hr, hp]; exact h.ring_exists
  data_length := by rw [hr, hp]; exact h.data_length
  stage_length := by rw [hs, hp]; exact h.stage_length
  slen_le := by rw [hp]; exact hl
  err_iff := he

/-- Operations outside contexts, ring slots, configuration, staging and STATUS keep the invariant. -/
theorem State.Inv.same {s t : State} (h : s.Inv) (hp : t.params = s.params) (hv : t.status = s.status) (hc : t.cfg = s.cfg)
    (hx : t.cx = s.cx) (hn : t.nextCid = s.nextCid) (hr : t.re = s.re) (hs : t.stage = s.stage) (hl : t.slen = s.slen) :
    t.Inv :=
  h.congr hp (by rw [hv]) (by rw [hv]; exact h.err_iff) hc hx hn hr (by rw [hs]) (by rw [hl]; exact h.slen_le)

theorem State.Inv.writeW {s : State} (h : s.Inv) (i : Idx) (v : Word) : (s.writeW i v).Inv :=
  h.same rfl rfl rfl rfl rfl rfl rfl rfl

theorem State.Inv.writeLimb {s : State} (h : s.Inv) (i : Idx) (k : Nat) (x : Limb) : (s.writeLimb i k x).Inv :=
  h.same rfl rfl rfl rfl rfl rfl rfl rfl

theorem State.Inv.noteReads {s : State} (h : s.Inv) (rs : List Idx) : (s.noteReads rs).Inv :=
  h.same rfl rfl rfl rfl rfl rfl rfl rfl

theorem State.Inv.complete {s : State} (h : s.Inv) : s.complete.Inv := h.same rfl rfl rfl rfl rfl rfl rfl rfl

/-- Recording a fault with one of the twelve codes keeps the invariant (60 R412). -/
theorem State.Inv.recordFault {s : State} (h : s.Inv) {code : ErrCode} (hc : code ≠ .none) (v : BitVec 64) :
    (s.recordFault code v).Inv :=
  h.congr rfl rfl (by simp [hc]) rfl rfl rfl rfl rfl h.slen_le

theorem State.Inv.clearFault {s : State} (h : s.Inv) : s.clearFault.Inv :=
  h.congr rfl rfl (by simp) rfl rfl rfl rfl rfl h.slen_le

/-! ## Derived facts -/

theorem State.Inv.nmax_eq {s : State} (_ : s.Inv) : s.params.nmax = 2 ^ s.params.lognmax := rfl

/-- The degree of a valid context fits the staging buffer (42 R260). -/
theorem State.Inv.degree_le {s : State} (h : s.Inv) {c : Idx} (hv : (s.cx.get c).valid = true) : s.degree c ≤ s.params.nmax :=
  Nat.pow_le_pow_right (by omega) (h.degrees c hv).1

theorem State.Inv.cfgOk_of_valid {s : State} (h : s.Inv) {c : Idx} (hv : (s.cx.get c).valid = true) : cfgOk s.cfg = true :=
  h.committed (h.configured c hv)

/-- A bound slot's data has exactly n entries (10 R53). -/
theorem State.Inv.ringData_length {s : State} (h : s.Inv) {r : Idx} (hb : (s.re.get r).bound = true) :
    (s.ringData r).length = s.ringDegree r := by
  have := h.degree_le (h.bound_ctx r hb).1
  rw [State.ringData, List.length_take, h.data_length r]
  exact Nat.min_eq_left this

/-- Both views of a bound slot have exactly n entries (43 R321). -/
theorem State.Inv.view_length {s : State} (h : s.Inv) {r : Idx} (hb : (s.re.get r).bound = true) :
    (s.coefView r).length = s.ringDegree r ∧ (s.nttView r).length = s.ringDegree r := by
  have hl := h.ringData_length hb
  unfold State.coefView State.nttView
  constructor <;> split <;> first | exact hl | exact nttInv_length _ _ _ _ hl | exact nttFwd_length _ _ _ hl

/-- Both views of a bound slot hold canonical representatives (43 R321). -/
theorem State.Inv.view_canonical {s : State} (h : s.Inv) {r : Idx} (hb : (s.re.get r).bound = true) :
    AllCanonical s.cfg (s.coefView r) ∧ AllCanonical s.cfg (s.nttView r) := by
  have hd : AllCanonical s.cfg (s.ringData r) := h.data_canonical r hb
  have hl := h.ringData_length hb
  unfold State.coefView State.nttView
  constructor <;> split <;> first | exact hd | exact nttInv_canonical _ _ hl hd | exact nttFwd_canonical _ hl hd

/-- Bound slots of one context identity reference one context slot (10 R52, R56). -/
theorem State.Inv.same_ctx {s : State} (h : s.Inv) {ra rb : Idx} (ha : (s.re.get ra).bound = true)
    (hb : (s.re.get rb).bound = true) (hc : (s.re.get ra).cid = (s.re.get rb).cid) :
    (s.re.get rb).ctx = (s.re.get ra).ctx := by
  have a := h.bound_ctx ra ha
  have b := h.bound_ctx rb hb
  exact h.cids_distinct _ _ b.1 a.1 (by rw [← b.2, ← a.2, hc])

/-- A slot that references a context makes its count positive. -/
theorem State.refs_pos {s : State} {r c : Idx} (hb : (s.re.get r).bound = true) (hc : (s.re.get r).ctx = c) :
    0 < s.refs c := by
  apply List.length_pos_of_mem (a := r.toNat)
  rw [List.mem_filter]
  have e : BitVec.ofNat 4 r.toNat = r := by simp
  refine ⟨List.mem_range.2 r.isLt, ?_⟩
  simp [hb, hc]

theorem State.refs_le (s : State) (c : Idx) : s.refs c ≤ 16 := by
  have := List.length_filter_le (fun r => (s.re.get (BitVec.ofNat 4 r)).bound &&
    decide ((s.re.get (BitVec.ofNat 4 r)).ctx = c)) (List.range 16)
  simpa [State.refs] using this

/-- The context of a bound slot is referenced, so the binding lemmas apply (43 R322). -/
theorem State.Inv.refcnt_ne_zero {s : State} (h : s.Inv) {r c : Idx} (hb : (s.re.get r).bound = true)
    (hc : (s.re.get r).ctx = c) : (s.cx.get c).refcnt ≠ 0 := by
  intro e
  have h1 := h.refcounts c
  have h2 := State.refs_pos hb hc
  rw [e] at h1
  simp at h1
  omega

/-! ## Counting references -/

/-- Whether slot `x` references context `c`, as 0 or 1. -/
def Ring.refers (x : Ring) (c : Idx) : Nat := if x.bound && decide (x.ctx = c) then 1 else 0

theorem filter_length_update {p p' : Nat → Bool} {k : Nat} (n : Nat) (hk : k < n) (hne : ∀ j, j < n → j ≠ k → p' j = p j) :
    ((List.range n).filter p').length + (if p k then 1 else 0) =
      ((List.range n).filter p).length + (if p' k then 1 else 0) := by
  induction n with
  | zero => omega
  | succ n ih =>
    rw [List.range_succ, List.filter_append, List.filter_append, List.length_append, List.length_append]
    by_cases hn : k = n
    · subst hn
      have e : (List.range k).filter p' = (List.range k).filter p := by
        apply List.filter_congr
        intro j hj
        have := List.mem_range.1 hj; exact hne j (by omega) (by omega)
      rw [e]
      by_cases h1 : p k <;> by_cases h2 : p' k <;> simp [h1, h2]
    · have := ih (by omega) (fun j hj => hne j (by omega))
      have e : [n].filter p' = [n].filter p := by simp [List.filter_cons, hne n (by omega) (fun h => hn h.symm)]
      rw [e]; omega

/-- Replacing one slot changes the count by that slot's reference. -/
theorem State.refs_update {s t : State} {r : Idx} (hne : ∀ j, j ≠ r → t.re.get j = s.re.get j) (c : Idx) :
    t.refs c + (s.re.get r).refers c = s.refs c + (t.re.get r).refers c := by
  have e : BitVec.ofNat 4 r.toNat = r := by simp
  have := filter_length_update (p := fun j => (s.re.get (BitVec.ofNat 4 j)).bound &&
      decide ((s.re.get (BitVec.ofNat 4 j)).ctx = c))
    (p' := fun j => (t.re.get (BitVec.ofNat 4 j)).bound && decide ((t.re.get (BitVec.ofNat 4 j)).ctx = c))
    (k := r.toNat) 16 r.isLt (by
      intro j hj hn
      rw [hne]
      intro he
      apply hn
      rw [← he, BitVec.toNat_ofNat, Nat.mod_eq_of_lt (by omega)])
  simp only [e] at this
  exact this

/-! ## Changes of lifetime -/

/-- Steps that change only reference counts and host holds, free contexts that nothing references, and unbind or bind ring slots
keep the invariant. -/
theorem State.Inv.lifetime {s t : State} (h : s.Inv)
    (hframe : t.params = s.params ∧ t.status = s.status ∧ t.cfg = s.cfg ∧ t.nextCid = s.nextCid ∧
      t.stage.length = s.stage.length ∧ t.slen = s.slen)
    (hcx : ∀ c, (∃ n b, t.cx.get c = { s.cx.get c with refcnt := n, hostref := b }) ∨ (t.cx.get c).IsFree)
    (hfree : ∀ c, (s.cx.get c).valid = false → t.cx.get c = s.cx.get c)
    (hrefs : ∀ c, (t.cx.get c).refcnt.toNat = t.refs c)
    (hheld : ∀ c, (t.cx.get c).valid = true → (t.cx.get c).hostref = true ∨ 1 ≤ (t.cx.get c).refcnt.toNat)
    (hre : ∀ r, (t.re.get r).data.length = s.params.nmax ∧ (t.re.get r = s.re.get r ∨ (t.re.get r).IsUnbound ∨
      ((t.re.get r).bound = true ∧ (s.cx.get (t.re.get r).ctx).valid = true ∧
        (t.re.get r).cid = (s.cx.get (t.re.get r).ctx).cid ∧ r.toNat < s.params.nring ∧
        ∀ x ∈ (t.re.get r).data.take (s.degree (t.re.get r).ctx), x.toNat < s.cfg.q.toNat))) : t.Inv := by
  obtain ⟨hp, hv, hc, hn, hs, hl⟩ := hframe
  -- a valid context of t is the one of s, but for its count and hold
  have hval : ∀ c, (t.cx.get c).valid = true →
      (s.cx.get c).valid = true ∧ ∃ n b, t.cx.get c = { s.cx.get c with refcnt := n, hostref := b } := by
    intro c hcv
    rcases hcx c with ⟨n, b, e⟩ | hf
    · rw [e] at hcv; exact ⟨hcv, n, b, e⟩
    · rw [hf.1] at hcv; exact absurd hcv (by decide)
  -- a bound slot's context is not freed
  have hlive : ∀ r, (t.re.get r).bound = true → ¬(t.cx.get (t.re.get r).ctx).IsFree := by
    intro r hb hf
    have h1 := hrefs (t.re.get r).ctx
    have h2 := State.refs_pos hb rfl
    rw [hf.2.2.1] at h1
    simp at h1
    omega
  have hbound : ∀ r, (t.re.get r).bound = true → (s.cx.get (t.re.get r).ctx).valid = true ∧
      (t.re.get r).cid = (s.cx.get (t.re.get r).ctx).cid ∧ r.toNat < s.params.nring ∧
      ∀ x ∈ (t.re.get r).data.take (s.degree (t.re.get r).ctx), x.toNat < s.cfg.q.toNat := by
    intro r hb
    rcases (hre r).2 with e | e | e
    · rw [e] at hb ⊢
      exact ⟨(h.bound_ctx r hb).1, (h.bound_ctx r hb).2, h.ring_exists r hb, h.data_canonical r hb⟩
    · rw [e.1] at hb; exact absurd hb (by decide)
    · exact e.2
  refine ⟨?_, hrefs, ?_, hheld, ?_, ?_, ?_, ?_, ?_, ?_, ?_, ?_, ?_, ?_, ?_, ?_, ?_, ?_, ?_, ?_⟩
  · rw [hp]; exact h.legal
  · intro r hb
    obtain ⟨h1, h2, -, -⟩ := hbound r hb
    rcases hcx (t.re.get r).ctx with ⟨n, b, e⟩ | hf
    · rw [e]; exact ⟨h1, h2⟩
    · exact absurd hf (hlive r hb)
  · intro c hcv; rw [hv]; exact h.configured c (hval c hcv).1
  · intro r hb
    obtain ⟨-, -, -, h4⟩ := hbound r hb
    rcases hcx (t.re.get r).ctx with ⟨n, b, e⟩ | hf
    · have ed : t.ringData r = (t.re.get r).data.take (s.degree (t.re.get r).ctx) := by
        simp only [State.ringData, State.ringDegree, State.degree, State.logDegree, e]
      rw [ed, hc]; exact h4
    · exact absurd hf (hlive r hb)
  · intro c c' h1 h2 he
    obtain ⟨v1, n1, b1, e1⟩ := hval c h1
    obtain ⟨v2, n2, b2, e2⟩ := hval c' h2
    rw [e1, e2] at he
    exact h.cids_distinct c c' v1 v2 he
  · intro c h1
    obtain ⟨v1, n1, b1, e1⟩ := hval c h1
    rw [e1, hn]; exact h.cids_given c v1
  · rw [hn]; exact h.nextCid_pos
  · rw [hv, hc]; exact h.committed
  · intro c h1
    obtain ⟨v1, n1, b1, e1⟩ := hval c h1
    rw [e1, hc]; exact h.built c v1
  · intro c h1
    obtain ⟨v1, n1, b1, e1⟩ := hval c h1
    have ed : t.logDegree c = s.logDegree c := by simp only [State.logDegree, e1]
    rw [ed, hp, hc]; exact h.degrees c v1
  · intro c h1
    rcases hcx c with ⟨n, b, e⟩ | hf
    · have hsv : (s.cx.get c).valid = false := by rw [e] at h1; exact h1
      rw [hfree c hsv]; exact h.free_ctx c hsv
    · exact hf
  · intro r hb
    rcases (hre r).2 with e | e | e
    · rw [e] at hb ⊢; exact h.free_ring r hb
    · exact e
    · rw [e.1] at hb; exact absurd hb (by decide)
  · intro c h1
    rw [hp]; exact h.ctx_exists c (hval c h1).1
  · intro r hb
    rw [hp]; exact (hbound r hb).2.2.1
  · intro r; rw [hp]; exact (hre r).1
  · rw [hs, hp]; exact h.stage_length
  · rw [hl, hp]; exact h.slen_le
  · rw [hv]; exact h.err_iff

/-- What one release does to a referenced context keeps its count equal to `n − 1` (42 R274). -/
theorem Released.refcnt {x y : Ctx} (h : Released x y) (hx : x.refcnt ≠ 0) : y.refcnt.toNat = x.refcnt.toNat - 1 := by
  unfold Released at h
  split at h
  · rename_i hc; rw [h.2.2.1, hc.1]; rfl
  · rw [h]
    generalize x.refcnt = n at hx
    bv_omega

theorem Released.shape {x y : Ctx} (h : Released x y) : (∃ n, y = { x with refcnt := n }) ∨ y.IsFree := by
  unfold Released at h
  split at h
  · exact .inr h
  · exact .inl ⟨_, h⟩

/-- A context that stays valid after a release is still held. -/
theorem Released.held {x y : Ctx} (h : Released x y) (_ : x.refcnt ≠ 0) (hy : y.valid = true) :
    y.hostref = true ∨ 1 ≤ y.refcnt.toNat := by
  unfold Released at h
  split at h
  · rw [h.1] at hy; exact absurd hy (by decide)
  · rename_i hc
    rw [h]
    by_cases hh : x.hostref = true
    · exact .inl hh
    · right
      have h1 : x.refcnt ≠ 1 := fun e => hc ⟨e, by simpa using hh⟩
      show 1 ≤ (x.refcnt - 1).toNat
      have hx : x.refcnt ≠ 0 := by assumption
      generalize x.refcnt = n at hx h1
      bv_omega

/-- Binding a ring slot to a valid context, with as many canonical elements as its degree, keeps the invariant (43 R322). -/
theorem State.Inv.binds {s t : State} (h : s.Inv) {rd c : Idx} {st : Rep} {d : List Word} {rs : List Idx}
    (hb : Binds s t rd c st d rs) (hv : (s.cx.get c).valid = true) (hl : d.length = s.degree c)
    (hd : AllCanonical s.cfg d) (hr : rd.toNat < s.params.nring) : t.Inv := by
  have hframe := hb.frame
  have hupd := fun c' => State.refs_update (s := s) (t := t) (r := rd) hb.slots c'
  have hnew : ∀ c', (t.re.get rd).refers c' = if c' = c then 1 else 0 := by
    intro c'; rw [hb.slot]
    by_cases e : c' = c
    · simp [Ring.refers, e]
    · have : c ≠ c' := fun e' => e e'.symm
      simp [Ring.refers, e, this]
  have hinc : ((s.cx.get c).refcnt + 1).toNat = (s.cx.get c).refcnt.toNat + 1 := by
    have h1 := h.refcounts c
    have h2 := s.refs_le c
    generalize (s.cx.get c).refcnt = n at h1
    bv_omega
  have hrefs : ∀ c', (t.cx.get c').refcnt.toNat = t.refs c' := by
    intro c'
    have hu := hupd c'
    have hs := h.refcounts c'
    rw [hnew c'] at hu
    by_cases hbd : (s.re.get rd).bound = true
    · have hold : (s.re.get rd).refers c' = if c' = (s.re.get rd).ctx then 1 else 0 := by
        by_cases e : c' = (s.re.get rd).ctx
        · simp [Ring.refers, hbd, e]
        · have : (s.re.get rd).ctx ≠ c' := fun e' => e e'.symm
          simp [Ring.refers, e, this]
      rw [hold] at hu
      by_cases hcc : (s.re.get rd).ctx = c
      · rw [hb.same hbd hcc, hs]; rw [hcc] at hu; omega
      · by_cases e1 : c' = c
        · subst e1
          rw [hb.acquired (fun hn => hcc hn.2)]
          show ((s.cx.get c').refcnt + 1).toNat = _
          rw [hinc, hs]
          rw [if_pos rfl, if_neg (fun e => hcc e.symm)] at hu; omega
        · by_cases e2 : c' = (s.re.get rd).ctx
          · have hr1 := (hb.released hbd hcc).refcnt (h.refcnt_ne_zero hbd rfl)
            have hpos := State.refs_pos hbd (show (s.re.get rd).ctx = c' from e2.symm)
            rw [← e2] at hr1
            rw [hr1, hs]
            rw [if_pos e2, if_neg e1] at hu; omega
          · rw [hb.others c' e1 (fun hn => e2 hn.2.symm), hs]
            rw [if_neg e2, if_neg e1] at hu; omega
    · have hold : (s.re.get rd).refers c' = 0 := by simp [Ring.refers, hbd]
      rw [hold] at hu
      by_cases e1 : c' = c
      · subst e1
        rw [hb.acquired (fun hn => hbd hn.1)]
        show ((s.cx.get c').refcnt + 1).toNat = _
        rw [hinc, hs]
        rw [if_pos rfl] at hu; omega
      · rw [hb.others c' e1 (fun hn => hbd hn.1), hs]
        rw [if_neg e1] at hu; omega
  -- the three ways a context slot can stand afterwards
  have hway : ∀ c', t.cx.get c' = s.cx.get c' ∨
      (c' = c ∧ t.cx.get c' = { s.cx.get c' with refcnt := (s.cx.get c').refcnt + 1 }) ∨
      ((s.re.get rd).bound = true ∧ c' = (s.re.get rd).ctx ∧ Released (s.cx.get c') (t.cx.get c')) := by
    intro c'
    by_cases e1 : c' = c
    · by_cases hsm : (s.re.get rd).bound = true ∧ (s.re.get rd).ctx = c
      · exact .inl (by rw [hb.same hsm.1 hsm.2])
      · subst e1; exact .inr (.inl ⟨rfl, hb.acquired hsm⟩)
    · by_cases e2 : (s.re.get rd).bound = true ∧ (s.re.get rd).ctx = c'
      · refine .inr (.inr ⟨e2.1, e2.2.symm, ?_⟩)
        have := hb.released e2.1 (fun e => e1 (e2.2.symm.trans e))
        rwa [e2.2] at this
      · exact .inl (hb.others c' e1 e2)
  refine h.lifetime ?_ ?_ ?_ hrefs ?_ ?_
  · rw [hframe]; exact ⟨rfl, rfl, rfl, rfl, rfl, rfl⟩
  · intro c'
    rcases hway c' with e | ⟨-, e⟩ | ⟨-, -, e⟩
    · exact .inl ⟨(s.cx.get c').refcnt, (s.cx.get c').hostref, by rw [e]⟩
    · exact .inl ⟨_, (s.cx.get c').hostref, e⟩
    · rcases e.shape with ⟨n, e⟩ | e
      · exact .inl ⟨n, (s.cx.get c').hostref, e⟩
      · exact .inr e
  · intro c' hf
    rcases hway c' with e | ⟨e0, -⟩ | ⟨hbd, e0, -⟩
    · exact e
    · rw [e0, hv] at hf; exact absurd hf (by decide)
    · rw [e0, (h.bound_ctx rd hbd).1] at hf; exact absurd hf (by decide)
  · intro c' hcv
    rcases hway c' with e | ⟨e0, e⟩ | ⟨hbd, e0, e⟩
    · rw [e] at hcv ⊢; exact h.held c' hcv
    · right
      subst e0
      rw [e]; show 1 ≤ ((s.cx.get c').refcnt + 1).toNat
      rw [hinc]; omega
    · exact e.held (h.refcnt_ne_zero hbd e0.symm) hcv
  · intro r
    by_cases e : r = rd
    · subst e
      rw [hb.slot]
      refine ⟨?_, .inr (.inr ⟨rfl, hv, rfl, hr, ?_⟩)⟩
      · have := h.degree_le hv
        simp only [List.length_append, List.length_drop, h.data_length]
        omega
      · intro x hx
        apply hd x
        have e2 : List.take (s.degree c) (d ++ (s.re.get r).data.drop d.length) = d := by
          rw [← hl]; exact List.take_left' rfl
        have hx' : x ∈ List.take (s.degree c) (d ++ (s.re.get r).data.drop d.length) := hx
        rwa [e2] at hx'
    · rw [hb.slots r e]; exact ⟨h.data_length r, .inl rfl⟩

/-- Unbinding a slot and releasing its context keeps the invariant (43 R329). -/
theorem State.Inv.unbindRing {s : State} (h : s.Inv) {rd : Idx} (hb : (s.re.get rd).bound = true) :
    (s.unbindRing rd).Inv := by
  obtain ⟨c, hc⟩ : ∃ c, (s.re.get rd).ctx = c := ⟨_, rfl⟩
  have hnz := h.refcnt_ne_zero hb hc
  generalize hs1 : ({ s with re := s.re.put rd (Ring.cleared s.params.nmax s.draws rd.toNat), draws := s.draws + 1 } :
    State) = s1
  have ht : s.unbindRing rd = s1.release c := by rw [← hs1, ← hc]; rfl
  obtain ⟨hfr, hne, hrel⟩ := s1.release_frame c
  have hcx1 : s1.cx = s.cx := by rw [← hs1]
  have hre1 : s1.re = s.re.put rd (Ring.cleared s.params.nmax s.draws rd.toNat) := by rw [← hs1]
  rw [hcx1] at hrel
  have hre : (s1.release c).re = s1.re := State.release_re s1 c
  have hslot : (s1.release c).re.get rd = Ring.cleared s.params.nmax s.draws rd.toNat := by rw [hre, hre1]; simp
  have hslots : ∀ r, r ≠ rd → (s1.release c).re.get r = s.re.get r := by
    intro r hr; rw [hre, hre1, Bank.get_put_ne _ _ hr]
  have hway : ∀ c', c' ≠ c → (s1.release c).cx.get c' = s.cx.get c' := by
    intro c' e; rw [hne c' e, hcx1]
  have hcv : (s.cx.get c).valid = true := by rw [← hc]; exact (h.bound_ctx rd hb).1
  rw [ht]
  refine h.lifetime ?_ ?_ ?_ ?_ ?_ ?_
  · rw [hfr, ← hs1]; exact ⟨rfl, rfl, rfl, rfl, rfl, rfl⟩
  · intro c'
    by_cases e : c' = c
    · subst e
      rcases hrel.shape with ⟨n, e⟩ | e
      · exact .inl ⟨n, (s.cx.get c').hostref, e⟩
      · exact .inr e
    · exact .inl ⟨(s.cx.get c').refcnt, (s.cx.get c').hostref, by rw [hway c' e]⟩
  · intro c' hf
    by_cases e : c' = c
    · rw [e, hcv] at hf; exact absurd hf (by decide)
    · exact hway c' e
  · intro c'
    have hu := State.refs_update (s := s) (t := s1.release c) (r := rd) hslots c'
    have hs := h.refcounts c'
    rw [hslot] at hu
    have h0 : (Ring.cleared s.params.nmax s.draws rd.toNat).refers c' = 0 := rfl
    rw [h0] at hu
    by_cases e : c' = c
    · subst e
      have h1 : (s.re.get rd).refers c' = 1 := by simp [Ring.refers, hb, hc]
      rw [hrel.refcnt hnz, hs]; omega
    · have h1 : (s.re.get rd).refers c' = 0 := by
        have : c ≠ c' := fun e' => e e'.symm
        simp [Ring.refers, hc, this]
      rw [hway c' e, hs]; omega
  · intro c' hv
    by_cases e : c' = c
    · subst e; exact hrel.held hnz hv
    · rw [hway c' e] at hv ⊢; exact h.held c' hv
  · intro r
    by_cases e : r = rd
    · subst e
      rw [hslot]; exact ⟨Ring.cleared_length _ _ _, .inr (.inl (Ring.cleared_isUnbound _ _ _))⟩
    · rw [hslots r e]; exact ⟨h.data_length r, .inl rfl⟩

/-- What giving up the host's hold does (42 R272). -/
theorem State.dropHold_frame (s : State) (c : Idx) :
    s.dropHold c = { s with cx := (s.dropHold c).cx, draws := (s.dropHold c).draws } ∧
    (∀ c', c' ≠ c → (s.dropHold c).cx.get c' = s.cx.get c') ∧
    (if (s.cx.get c).refcnt = 0 then ((s.dropHold c).cx.get c).IsFree
      else (s.dropHold c).cx.get c = { s.cx.get c with hostref := false }) := by
  unfold State.dropHold
  simp only [State.putCtx_cx, Bank.get_put_same]
  by_cases h : (s.cx.get c).refcnt = 0
  · rw [if_pos h, if_pos h]
    refine ⟨rfl, ?_, ?_⟩
    · intro c' hc; simp [Bank.get_put_ne, hc]
    · simp [Ctx.cleared_isFree]
  · rw [if_neg h, if_neg h]
    refine ⟨rfl, ?_, ?_⟩
    · intro c' hc; simp [Bank.get_put_ne, hc]
    · simp

/-- Giving up the host's hold on a context keeps the invariant (42 R272). -/
theorem State.Inv.dropHold {s : State} (h : s.Inv) {c : Idx} (hv : (s.cx.get c).valid = true) : (s.dropHold c).Inv := by
  obtain ⟨hfr, hne, hc⟩ := s.dropHold_frame c
  have hre : (s.dropHold c).re = s.re := by rw [hfr]
  refine h.lifetime ?_ ?_ ?_ ?_ ?_ ?_
  · rw [hfr]; exact ⟨rfl, rfl, rfl, rfl, rfl, rfl⟩
  · intro c'
    by_cases e : c' = c
    · subst e
      split at hc
      · exact .inr hc
      · exact .inl ⟨(s.cx.get c').refcnt, false, hc⟩
    · exact .inl ⟨(s.cx.get c').refcnt, (s.cx.get c').hostref, by rw [hne c' e]⟩
  · intro c' hf
    by_cases e : c' = c
    · rw [e, hv] at hf; exact absurd hf (by decide)
    · exact hne c' e
  · intro c'
    have hs := h.refcounts c'
    have er : (s.dropHold c).refs c' = s.refs c' := by simp only [State.refs, hre]
    rw [er, ← hs]
    by_cases e : c' = c
    · subst e
      split at hc
      · rename_i h0; rw [hc.2.2.1, h0]
      · rw [hc]
    · rw [hne c' e]
  · intro c' hcv
    by_cases e : c' = c
    · subst e
      split at hc
      · rw [hc.1] at hcv; exact absurd hcv (by decide)
      · rename_i h0
        right; rw [hc]
        show 1 ≤ (s.cx.get c').refcnt.toNat
        generalize (s.cx.get c').refcnt = n at h0
        bv_omega
    · rw [hne c' e] at hcv ⊢; exact h.held c' hcv
  · intro r; rw [hre]; exact ⟨h.data_length r, .inl rfl⟩

/-- A construction that passes the checks of CTXNEW keeps the invariant (42 R271). -/
theorem State.Inv.newCtx {s : State} (h : s.Inv) {c : Idx} {logn : Nat} (hcfg : s.status.cfgv = true)
    (hf : (s.cx.get c).valid = false) (hl : logn ≤ s.params.lognmax) (hs : logn + 1 ≤ s.cfg.s.toNat)
    (hn : s.nextCid ≠ BitVec.allOnes 64) (hc : c.toNat < s.params.nctx) : (s.newCtx c logn).Inv := by
  have hlm : s.params.lognmax ≤ 12 := by
    have := h.legal
    simp only [Params.legal, Bool.and_eq_true, decide_eq_true_eq] at this
    exact this.1.2
  have hlogn : (BitVec.ofNat 8 logn).toNat = logn := by rw [BitVec.toNat_ofNat]; exact Nat.mod_eq_of_lt (by omega)
  have hnew : (s.newCtx c logn).cx.get c = Ctx.build s.cfg s.nextCid logn := by simp
  have hold : ∀ c', c' ≠ c → (s.newCtx c logn).cx.get c' = s.cx.get c' := fun c' e => by simp [Bank.get_put_ne, e]
  have hinc : (s.nextCid + 1).toNat = s.nextCid.toNat + 1 := by
    generalize s.nextCid = n at hn
    have : n.toNat ≠ (BitVec.allOnes 64).toNat := fun e => hn (BitVec.eq_of_toNat_eq e)
    simp at this
    bv_omega
  have hunref : ∀ r, (s.re.get r).bound = true → (s.re.get r).ctx ≠ c := by
    intro r hb e
    have := (h.bound_ctx r hb).1
    rw [e, hf] at this; exact absurd this (by decide)
  have hdeg : ∀ r, (s.re.get r).bound = true → (s.newCtx c logn).ringData r = s.ringData r := by
    intro r hb
    have e := hold _ (hunref r hb)
    simp only [State.ringData, State.ringDegree, State.degree, State.logDegree, State.newCtx_re, e]
  refine ⟨h.legal, ?_, ?_, ?_, ?_, ?_, ?_, ?_, ?_, h.committed, ?_, ?_, ?_, h.free_ring, ?_, h.ring_exists, h.data_length,
    h.stage_length, h.slen_le, h.err_iff⟩
  · intro c'
    show ((s.newCtx c logn).cx.get c').refcnt.toNat = s.refs c'
    by_cases e : c' = c
    · subst e
      rw [hnew]
      show 0 = s.refs c'
      rw [← h.refcounts c', (h.free_ctx c' hf).2.2.1]; rfl
    · rw [hold c' e]; exact h.refcounts c'
  · intro r hb
    rw [State.newCtx_re, hold _ (hunref r hb)]; exact h.bound_ctx r hb
  · intro c' hv
    by_cases e : c' = c
    · subst e; rw [hnew]; exact .inl rfl
    · rw [hold c' e] at hv ⊢; exact h.held c' hv
  · intro _ _; exact hcfg
  · intro r hb; rw [hdeg r hb]; exact h.data_canonical r hb
  · intro c1 c2 h1 h2 he
    by_cases e1 : c1 = c
    · by_cases e2 : c2 = c
      · rw [e1, e2]
      · exfalso
        rw [hold c2 e2] at h2 he
        rw [e1, hnew] at he
        have := (h.cids_given c2 h2).2
        rw [← he] at this
        exact Nat.lt_irrefl _ this
    · by_cases e2 : c2 = c
      · exfalso
        rw [hold c1 e1] at h1 he
        rw [e2, hnew] at he
        have := (h.cids_given c1 h1).2
        rw [he] at this
        exact Nat.lt_irrefl _ this
      · rw [hold c1 e1] at h1 he
        rw [hold c2 e2] at h2 he
        exact h.cids_distinct c1 c2 h1 h2 he
  · intro c' hv
    show _ ∧ _ < (s.nextCid + 1).toNat
    rw [hinc]
    by_cases e : c' = c
    · subst e; rw [hnew]
      exact ⟨h.nextCid_pos, Nat.lt_succ_self _⟩
    · rw [hold c' e] at hv ⊢
      have := h.cids_given c' hv
      exact ⟨this.1, by omega⟩
  · show 0 < (s.nextCid + 1).toNat
    rw [hinc]; omega
  · intro c' hv
    by_cases e : c' = c
    · subst e; rw [hnew]
      simp only [Ctx.BuiltFrom, Ctx.build, hlogn]
      exact ⟨rfl, rfl, rfl, rfl⟩
    · rw [hold c' e] at hv ⊢; exact h.built c' hv
  · intro c' hv
    simp only [State.logDegree]
    by_cases e : c' = c
    · subst e; rw [hnew]
      simp only [Ctx.build, hlogn]
      exact ⟨hl, hs⟩
    · rw [hold c' e] at hv ⊢; exact h.degrees c' hv
  · intro c' hv
    by_cases e : c' = c
    · subst e; rw [hnew] at hv; exact absurd (show true = false from hv) (by decide)
    · rw [hold c' e] at hv ⊢; exact h.free_ctx c' hv
  · intro c' hv
    by_cases e : c' = c
    · subst e; exact hc
    · rw [hold c' e] at hv; exact h.ctx_exists c' hv

/-- Replacing a bound slot's n elements by n canonical ones keeps the invariant (43 R330, R331). -/
theorem State.Inv.putData {s : State} (h : s.Inv) {rd : Idx} {st : Rep} {d : List Word}
    (hb : (s.re.get rd).bound = true) (hl : d.length = s.ringDegree rd) (hd : AllCanonical s.cfg d) :
    (s.putData rd st d).Inv := by
  have hslot : (s.putData rd st d).re.get rd =
      { s.re.get rd with st := st, data := overwrite (s.re.get rd).data d } := by simp
  have hslots : ∀ r, r ≠ rd → (s.putData rd st d).re.get r = s.re.get r := fun r e => by simp [Bank.get_put_ne, e]
  refine h.lifetime ⟨rfl, rfl, rfl, rfl, rfl, rfl⟩ (fun c => .inl ⟨(s.cx.get c).refcnt, (s.cx.get c).hostref, rfl⟩)
    (fun c _ => rfl) ?_ h.held ?_
  · intro c
    have hu := State.refs_update (s := s) (t := s.putData rd st d) (r := rd) hslots c
    have e : ((s.putData rd st d).re.get rd).refers c = (s.re.get rd).refers c := by rw [hslot]; rfl
    have hs := h.refcounts c
    show (s.cx.get c).refcnt.toNat = _
    rw [e] at hu; omega
  · intro r
    by_cases e : r = rd
    · subst e
      rw [hslot]
      refine ⟨?_, .inr (.inr ⟨hb, (h.bound_ctx r hb).1, (h.bound_ctx r hb).2, h.ring_exists r hb, ?_⟩)⟩
      · have := h.degree_le (h.bound_ctx r hb).1
        rw [State.ringDegree] at hl
        simp only [overwrite, List.length_append, List.length_drop, h.data_length]
        omega
      · intro x hx
        apply hd x
        have e2 : List.take (s.degree (s.re.get r).ctx) (overwrite (s.re.get r).data d) = d := by
          have : d.length = s.degree (s.re.get r).ctx := hl
          rw [← this]; exact List.take_left' rfl
        have hx' : x ∈ List.take (s.degree (s.re.get r).ctx) (overwrite (s.re.get r).data d) := hx
        rwa [e2] at hx'
    · rw [hslots r e]; exact ⟨h.data_length r, .inl rfl⟩

/-- A push below the capacity keeps the invariant (42 R276). -/
theorem State.Inv.pushStage {s : State} (h : s.Inv) (v : Word) (hl : s.slen ≠ s.params.nmax) : (s.pushStage v).Inv :=
  h.congr rfl rfl h.err_iff rfl rfl rfl rfl (by simp) (by have := h.slen_le; show s.slen + 1 ≤ _; omega)

/-- Replacing the first staged entries keeps the invariant (42 R278). -/
theorem State.Inv.putStage {s : State} (h : s.Inv) {d : List Word} (hl : d.length ≤ s.params.nmax) : (s.putStage d).Inv :=
  h.congr rfl rfl h.err_iff rfl rfl rfl rfl (by
    have := h.stage_length
    simp only [State.putStage_stage, overwrite, List.length_append, List.length_drop]; omega) h.slen_le

/-! ## Configuration -/

/-- Without a committed configuration no context is valid and no slot bound (10 R56 items 2 and 4). -/
theorem State.Inv.none_valid {s : State} (h : s.Inv) (hc : s.status.cfgv = false) (c : Idx) : (s.cx.get c).valid = false := by
  by_contra hv
  have := h.configured c (by simpa using hv)
  rw [hc] at this; exact absurd this (by decide)

theorem State.Inv.none_bound {s : State} (h : s.Inv) (hc : ∀ c, (s.cx.get c).valid = false) (r : Idx) :
    (s.re.get r).bound = false := by
  by_contra hb
  have := (h.bound_ctx r (by simpa using hb)).1
  rw [hc] at this; exact absurd this (by decide)

/-- Any change of the configuration registers and of CFGV, to a legal configuration if committed, keeps the invariant while no
context is valid (41 R207, R209, R210). -/
theorem State.Inv.configure {s : State} (h : s.Inv) (hx : ∀ c, (s.cx.get c).valid = false) (cfg : FieldCfg) (b : Bool)
    (hok : b = true → cfgOk cfg = true) :
    ({ s with cfg := cfg, status := { s.status with cfgv := b } } : State).Inv where
  legal := h.legal
  refcounts := h.refcounts
  bound_ctx := h.bound_ctx
  held := h.held
  configured := by intro c hv; have := hx c; rw [show (s.cx.get c).valid = true from hv] at this; exact absurd this (by decide)
  data_canonical := by
    intro r hb; have := h.none_bound hx r
    rw [show (s.re.get r).bound = true from hb] at this; exact absurd this (by decide)
  cids_distinct := h.cids_distinct
  cids_given := h.cids_given
  nextCid_pos := h.nextCid_pos
  committed := hok
  built := by intro c hv; have := hx c; rw [show (s.cx.get c).valid = true from hv] at this; exact absurd this (by decide)
  degrees := by intro c hv; have := hx c; rw [show (s.cx.get c).valid = true from hv] at this; exact absurd this (by decide)
  free_ctx := h.free_ctx
  free_ring := h.free_ring
  ctx_exists := h.ctx_exists
  ring_exists := h.ring_exists
  data_length := h.data_length
  stage_length := h.stage_length
  slen_le := h.slen_le
  err_iff := h.err_iff

theorem State.anyCtxValid_eq_false {s : State} (h : s.anyCtxValid = false) (c : Idx) : (s.cx.get c).valid = false := by
  rw [State.anyCtxValid, List.any_eq_false] at h
  have := h c.toNat (List.mem_range.2 c.isLt)
  simpa using this

/-- Committing a legal configuration keeps the invariant (41 R209). -/
theorem State.Inv.commit {s : State} (h : s.Inv) (hok : s.status.cfgv = true ∨ cfgOk s.cfg = true) :
    ({ s with status := { s.status with cfgv := true } } : State).Inv := by
  by_cases hc : s.status.cfgv = true
  · exact h.congr rfl hc.symm h.err_iff rfl rfl rfl rfl rfl h.slen_le
  · have hc' : s.status.cfgv = false := by simpa using hc
    exact h.configure (h.none_valid hc') s.cfg true (fun _ => hok.resolve_left hc)

/-! ## Reset -/

theorem State.resetWith_cx (p : Params) (draw : Nat) (c : Idx) :
    ((State.resetWith p draw).cx.get c) = Ctx.cleared p.nmax draw c.toNat := Bank.get_tabulate _ _

theorem State.resetWith_re (p : Params) (draw : Nat) (r : Idx) :
    ((State.resetWith p draw).re.get r) = Ring.cleared p.nmax draw r.toNat := Bank.get_tabulate _ _

/-- After a reset nothing is referenced. -/
theorem State.refs_of_unbound {s : State} (h : ∀ r, (s.re.get r).bound = false) (c : Idx) : s.refs c = 0 := by
  have e : ((List.range 16).filter fun r => (s.re.get (BitVec.ofNat 4 r)).bound &&
      decide ((s.re.get (BitVec.ofNat 4 r)).ctx = c)) = [] := by
    apply List.filter_eq_nil_iff.2
    intro r _
    simp [h]
  rw [State.refs, e]; rfl

/-- With legal parameters, the reset values satisfy the invariant (10 R56, R57). -/
theorem State.inv_resetWith {p : Params} (hp : p.legal = true) (draw : Nat) : (State.resetWith p draw).Inv := by
  have hx : ∀ c, ((State.resetWith p draw).cx.get c).valid = false := fun c => by rw [State.resetWith_cx]; rfl
  have hr : ∀ r, ((State.resetWith p draw).re.get r).bound = false := fun r => by rw [State.resetWith_re]; rfl
  have nx : ∀ c, ((State.resetWith p draw).cx.get c).valid = true → False := fun c h => by
    rw [hx c] at h; exact absurd h (by decide)
  have nr : ∀ r, ((State.resetWith p draw).re.get r).bound = true → False := fun r h => by
    rw [hr r] at h; exact absurd h (by decide)
  refine ⟨hp, ?_, fun r h => (nr r h).elim, fun c h => (nx c h).elim, fun c h => (nx c h).elim,
    fun r h => (nr r h).elim, fun c _ h => (nx c h).elim, fun c h => (nx c h).elim, Nat.one_pos, fun h => absurd (show false = true from h) (by decide),
    fun c h => (nx c h).elim, fun c h => (nx c h).elim, ?_, ?_, fun c h => (nx c h).elim, fun r h => (nr r h).elim, ?_, ?_,
    Nat.zero_le _, ⟨fun _ => rfl, fun _ => rfl⟩⟩
  · intro c; rw [State.resetWith_cx, State.refs_of_unbound hr]; rfl
  · intro c _; rw [State.resetWith_cx]; exact Ctx.cleared_isFree _ _ _
  · intro r _; rw [State.resetWith_re]; exact Ring.cleared_isUnbound _ _ _
  · intro r; rw [State.resetWith_re]; exact Ring.cleared_length _ _ _
  · show ((List.range p.nmax).map _).length = p.nmax
    simp

theorem State.Inv.toReset {s : State} (h : s.Inv) : s.toReset.Inv :=
  (State.inv_resetWith h.legal s.draws).same rfl rfl rfl rfl rfl rfl rfl rfl

end Sys2Proof.Machine
end

