-- ==== Sys2Proof/Laws/Limbs.lean ====
section
/-! SUPPORT. The limbwise carry and borrow of spec 40 R161 and R162 in closed form: what the lower limbs leave over. -/
namespace Sys2Proof.Machine

/-- Limb `k` as digit `k` in base 2^64 (00 R12). -/
theorem limbNat_eq (v : Word) (k : Nat) : limbNat v k = v.toNat / 2 ^ (64 * k) % 2 ^ 64 := by
  rw [limbNat, limb, BitVec.extractLsb'_toNat, Nat.shiftRight_eq_div_pow]

/-- The lowest k + 1 digits are the lowest k and digit `k`. -/
theorem low_digits (x k : Nat) : x % 2 ^ (64 * (k + 1)) = x % 2 ^ (64 * k) + 2 ^ (64 * k) * (x / 2 ^ (64 * k) % 2 ^ 64) := by
  rw [show 64 * (k + 1) = 64 * k + 64 by ring, pow_add, Nat.mod_mul]

/-- The carry into limb `k` is that of the sum of the lower limbs (40 R161). -/
theorem carryAt_eq (a b : Word) (k : Nat) :
    carryAt a b k = (a.toNat % 2 ^ (64 * k) + b.toNat % 2 ^ (64 * k)) / 2 ^ (64 * k) := by
  induction k with
  | zero => simp [carryAt, Nat.mod_one]
  | succ k ih =>
    rw [carryAt, ih, limbNat_eq, limbNat_eq, low_digits, low_digits]
    have hp : 0 < 2 ^ (64 * k) := Nat.two_pow_pos _
    rw [show 2 ^ (64 * (k + 1)) = 2 ^ (64 * k) * 2 ^ 64 by rw [← pow_add]; congr 1, ← Nat.div_div_eq_div_mul]
    congr 1
    generalize 2 ^ (64 * k) = P at *
    rw [show ∀ x y z w : Nat, x + P * y + (z + P * w) = (x + z) + P * (y + w) by intros; ring,
      Nat.add_mul_div_left _ _ hp]
    ring

/-- The borrow into limb `k` says whether the lower limbs of `a` are below those of `b` (40 R162). -/
theorem borrowAt_eq (a b : Word) (k : Nat) :
    borrowAt a b k = if a.toNat % 2 ^ (64 * k) < b.toNat % 2 ^ (64 * k) then 1 else 0 := by
  induction k with
  | zero => simp [borrowAt, Nat.mod_one]
  | succ k ih =>
    rw [borrowAt, ih, diffAt, limbNat_eq, limbNat_eq, low_digits, low_digits]
    have hp : 0 < 2 ^ (64 * k) := Nat.two_pow_pos _
    have h1 := Nat.mod_lt a.toNat hp
    have h2 := Nat.mod_lt b.toNat hp
    generalize a.toNat / 2 ^ (64 * k) % 2 ^ 64 = x at *
    generalize b.toNat / 2 ^ (64 * k) % 2 ^ 64 = y at *
    generalize a.toNat % 2 ^ (64 * k) = u at *
    generalize b.toNat % 2 ^ (64 * k) = v at *
    generalize 2 ^ (64 * k) = P at *
    apply if_congr _ rfl rfl
    rcases Nat.lt_trichotomy x y with h | h | h
    · constructor
      · intro _
        have : P * (x + 1) ≤ P * y := Nat.mul_le_mul_left _ h
        rw [Nat.mul_add] at this; omega
      · intro _; split <;> omega
    · subst h
      constructor
      · intro e; split at e
        · omega
        · push_cast at e; omega
      · intro e; rw [if_pos (by omega)]; push_cast; omega
    · constructor
      · intro e; split at e <;> push_cast at e <;> omega
      · intro e
        have : P * (y + 1) ≤ P * x := Nat.mul_le_mul_left _ h
        rw [Nat.mul_add] at this; omega

end Sys2Proof.Machine
end

