-- ==== Sys2Proof/Laws/PerInstr.lean ====
section
/-! SUPPORT. The family FieldsRoundTrip: the word of every instruction has a row of the opcode map, keeps that row's zero bits, and
its fields make the instruction again (spec 30 R121 to R123, R126). One lemma per constructor. -/
namespace Sys2Proof.Laws

/-- The word of `i` names a row whose format its unused bits obey, and whose fields make `i`. -/
def FieldsRoundTrip.Statement (i : Instr) : Prop :=
  ∃ r, rowOf (fieldsOf (encode i)).opc = some r ∧ r.fmt.unusedZero (fieldsOf (encode i)) = true ∧
    r.make (fieldsOf (encode i)) = some i

/-- It is enough to look at the fields the word was packed from. -/
theorem FieldsRoundTrip.of_pack {i : Instr} {opc : BitVec 8} {d a b : Idx} {imm : Imm12} {r : Row}
    (he : encode i = pack opc d a b imm) (hr : rowOf opc = some r)
    (hz : r.fmt.unusedZero { opc := opc, d := d, a := a, b := b, imm := imm } = true)
    (hm : r.make { opc := opc, d := d, a := a, b := b, imm := imm } = some i) : FieldsRoundTrip.Statement i := by
  refine ⟨r, ?_, ?_, ?_⟩ <;> rw [he, fieldsOf_pack]
  · exact hr
  · exact hz
  · exact hm

theorem FieldsRoundTrip.nop : FieldsRoundTrip.Statement .nop := FieldsRoundTrip.of_pack rfl rfl rfl rfl
theorem FieldsRoundTrip.cfgw (sel : CfgSel) (wa : Idx) : FieldsRoundTrip.Statement (.cfgw sel wa) :=
  FieldsRoundTrip.of_pack rfl rfl rfl (by simp)
theorem FieldsRoundTrip.cfgr (wd : Idx) (sel : CfgSel) : FieldsRoundTrip.Statement (.cfgr wd sel) :=
  FieldsRoundTrip.of_pack rfl rfl rfl (by simp)
theorem FieldsRoundTrip.cfgcommit : FieldsRoundTrip.Statement .cfgcommit := FieldsRoundTrip.of_pack rfl rfl rfl rfl
theorem FieldsRoundTrip.cfginv : FieldsRoundTrip.Statement .cfginv := FieldsRoundTrip.of_pack rfl rfl rfl rfl
theorem FieldsRoundTrip.wadd (wd : Idx) (wa : Idx) (wb : Idx) : FieldsRoundTrip.Statement (.wadd wd wa wb) :=
  FieldsRoundTrip.of_pack rfl rfl rfl rfl
theorem FieldsRoundTrip.wsub (wd : Idx) (wa : Idx) (wb : Idx) : FieldsRoundTrip.Statement (.wsub wd wa wb) :=
  FieldsRoundTrip.of_pack rfl rfl rfl rfl
theorem FieldsRoundTrip.wcmp (wa : Idx) (wb : Idx) : FieldsRoundTrip.Statement (.wcmp wa wb) :=
  FieldsRoundTrip.of_pack rfl rfl rfl rfl
theorem FieldsRoundTrip.wsel (wd : Idx) (wa : Idx) (wb : Idx) : FieldsRoundTrip.Statement (.wsel wd wa wb) :=
  FieldsRoundTrip.of_pack rfl rfl rfl rfl
theorem FieldsRoundTrip.wmul (wlo : Idx) (wa : Idx) (wb : Idx) (whi : Idx) : FieldsRoundTrip.Statement (.wmul wlo wa wb whi) :=
  FieldsRoundTrip.of_pack rfl rfl (by simp [Format.unusedZero]) (by simp [Fields.e])
theorem FieldsRoundTrip.wli (wd : Idx) (imm : Imm12) : FieldsRoundTrip.Statement (.wli wd imm) :=
  FieldsRoundTrip.of_pack rfl rfl rfl rfl
theorem FieldsRoundTrip.wmov (wd : Idx) (wa : Idx) : FieldsRoundTrip.Statement (.wmov wd wa) :=
  FieldsRoundTrip.of_pack rfl rfl rfl rfl
theorem FieldsRoundTrip.fenc (wd : Idx) (wa : Idx) : FieldsRoundTrip.Statement (.fenc wd wa) :=
  FieldsRoundTrip.of_pack rfl rfl rfl rfl
theorem FieldsRoundTrip.fdec (wd : Idx) (wa : Idx) : FieldsRoundTrip.Statement (.fdec wd wa) :=
  FieldsRoundTrip.of_pack rfl rfl rfl rfl
theorem FieldsRoundTrip.fadd (wd : Idx) (wa : Idx) (wb : Idx) : FieldsRoundTrip.Statement (.fadd wd wa wb) :=
  FieldsRoundTrip.of_pack rfl rfl rfl rfl
theorem FieldsRoundTrip.fsub (wd : Idx) (wa : Idx) (wb : Idx) : FieldsRoundTrip.Statement (.fsub wd wa wb) :=
  FieldsRoundTrip.of_pack rfl rfl rfl rfl
theorem FieldsRoundTrip.fmul (wd : Idx) (wa : Idx) (wb : Idx) : FieldsRoundTrip.Statement (.fmul wd wa wb) :=
  FieldsRoundTrip.of_pack rfl rfl rfl rfl
theorem FieldsRoundTrip.fneg (wd : Idx) (wa : Idx) : FieldsRoundTrip.Statement (.fneg wd wa) :=
  FieldsRoundTrip.of_pack rfl rfl rfl rfl
theorem FieldsRoundTrip.feq (wa : Idx) (wb : Idx) : FieldsRoundTrip.Statement (.feq wa wb) :=
  FieldsRoundTrip.of_pack rfl rfl rfl rfl
theorem FieldsRoundTrip.fzero (wd : Idx) : FieldsRoundTrip.Statement (.fzero wd) :=
  FieldsRoundTrip.of_pack rfl rfl rfl rfl
theorem FieldsRoundTrip.fone (wd : Idx) : FieldsRoundTrip.Statement (.fone wd) :=
  FieldsRoundTrip.of_pack rfl rfl rfl rfl
theorem FieldsRoundTrip.sclr : FieldsRoundTrip.Statement .sclr := FieldsRoundTrip.of_pack rfl rfl rfl rfl
theorem FieldsRoundTrip.spush (wa : Idx) : FieldsRoundTrip.Statement (.spush wa) :=
  FieldsRoundTrip.of_pack rfl rfl rfl rfl
theorem FieldsRoundTrip.sget (wd : Idx) (idx : Imm12) : FieldsRoundTrip.Statement (.sget wd idx) :=
  FieldsRoundTrip.of_pack rfl rfl rfl rfl
theorem FieldsRoundTrip.sntt (ca : Idx) : FieldsRoundTrip.Statement (.sntt ca) :=
  FieldsRoundTrip.of_pack rfl rfl rfl rfl
theorem FieldsRoundTrip.sintt (ca : Idx) : FieldsRoundTrip.Statement (.sintt ca) :=
  FieldsRoundTrip.of_pack rfl rfl rfl rfl
theorem FieldsRoundTrip.ctxnew (cd : Idx) (logn : Imm12) : FieldsRoundTrip.Statement (.ctxnew cd logn) :=
  FieldsRoundTrip.of_pack rfl rfl rfl rfl
theorem FieldsRoundTrip.ctxrel (cd : Idx) : FieldsRoundTrip.Statement (.ctxrel cd) :=
  FieldsRoundTrip.of_pack rfl rfl rfl rfl
theorem FieldsRoundTrip.rfromc (rd : Idx) (ca : Idx) : FieldsRoundTrip.Statement (.rfromc rd ca) :=
  FieldsRoundTrip.of_pack rfl rfl rfl rfl
theorem FieldsRoundTrip.rfromn (rd : Idx) (ca : Idx) : FieldsRoundTrip.Statement (.rfromn rd ca) :=
  FieldsRoundTrip.of_pack rfl rfl rfl rfl
theorem FieldsRoundTrip.rzero (rd : Idx) (ca : Idx) : FieldsRoundTrip.Statement (.rzero rd ca) :=
  FieldsRoundTrip.of_pack rfl rfl rfl rfl
theorem FieldsRoundTrip.rone (rd : Idx) (ca : Idx) : FieldsRoundTrip.Statement (.rone rd ca) :=
  FieldsRoundTrip.of_pack rfl rfl rfl rfl
theorem FieldsRoundTrip.rcopy (rd : Idx) (ra : Idx) : FieldsRoundTrip.Statement (.rcopy rd ra) :=
  FieldsRoundTrip.of_pack rfl rfl rfl rfl
theorem FieldsRoundTrip.rfree (rd : Idx) : FieldsRoundTrip.Statement (.rfree rd) :=
  FieldsRoundTrip.of_pack rfl rfl rfl rfl
theorem FieldsRoundTrip.rtontt (rd : Idx) : FieldsRoundTrip.Statement (.rtontt rd) :=
  FieldsRoundTrip.of_pack rfl rfl rfl rfl
theorem FieldsRoundTrip.rtocoef (rd : Idx) : FieldsRoundTrip.Statement (.rtocoef rd) :=
  FieldsRoundTrip.of_pack rfl rfl rfl rfl
theorem FieldsRoundTrip.radd (rd : Idx) (ra : Idx) (rb : Idx) : FieldsRoundTrip.Statement (.radd rd ra rb) :=
  FieldsRoundTrip.of_pack rfl rfl rfl rfl
theorem FieldsRoundTrip.rsub (rd : Idx) (ra : Idx) (rb : Idx) : FieldsRoundTrip.Statement (.rsub rd ra rb) :=
  FieldsRoundTrip.of_pack rfl rfl rfl rfl
theorem FieldsRoundTrip.rmul (rd : Idx) (ra : Idx) (rb : Idx) : FieldsRoundTrip.Statement (.rmul rd ra rb) :=
  FieldsRoundTrip.of_pack rfl rfl rfl rfl
theorem FieldsRoundTrip.rneg (rd : Idx) (ra : Idx) : FieldsRoundTrip.Statement (.rneg rd ra) :=
  FieldsRoundTrip.of_pack rfl rfl rfl rfl
theorem FieldsRoundTrip.rscale (rd : Idx) (ra : Idx) (wb : Idx) : FieldsRoundTrip.Statement (.rscale rd ra wb) :=
  FieldsRoundTrip.of_pack rfl rfl rfl rfl
theorem FieldsRoundTrip.req (ra : Idx) (rb : Idx) : FieldsRoundTrip.Statement (.req ra rb) :=
  FieldsRoundTrip.of_pack rfl rfl rfl rfl
theorem FieldsRoundTrip.rgetc (wd : Idx) (ra : Idx) (idx : Imm12) : FieldsRoundTrip.Statement (.rgetc wd ra idx) :=
  FieldsRoundTrip.of_pack rfl rfl rfl rfl
theorem FieldsRoundTrip.rgetn (wd : Idx) (ra : Idx) (idx : Imm12) : FieldsRoundTrip.Statement (.rgetn wd ra idx) :=
  FieldsRoundTrip.of_pack rfl rfl rfl rfl

end Sys2Proof.Laws
end

