-- ==== Sys2Proof/Tests/Slice0.lean ====
section
/-! SUPPORT. Tests: what WellFormed refuses; every constructor's decoding, on words written out from the spec's encoding tables
(30 R121, R122, R126); one small step per instruction, with results taken from the vectors of spec 95 (named by their V number) or
worked out by hand from the rules; and for every statement with hypotheses a witness that meets them. -/
namespace Sys2Proof.Tests
open Sys2Proof Sys2Proof.Machine

-- One theorem at a time: checked in parallel, their stacks together would exceed the memory limit of the check.
set_option Elab.async false

/-! ## WellFormed (30 R124, R128) -/

theorem test_wf_w_index :
    (Instr.wadd 3 8 2).wf { Params.default with nw := 8 } = false ∧ (Instr.wadd 3 7 2).wf { Params.default with nw := 8 } = true := by
  decide
theorem test_wf_r_index : (Instr.rfree 8).wf Params.default = false ∧ (Instr.rfree 7).wf Params.default = true := by decide
theorem test_wf_c_index : (Instr.ctxrel 4).wf Params.default = false ∧ (Instr.ctxrel 3).wf Params.default = true := by decide
theorem test_wf_same_destination :
    (Instr.wmul 1 2 3 1).wf Params.default = false ∧ (Instr.wmul 1 2 3 4).wf Params.default = true := by decide

/-! ## Decoding: OPC, D, A, B and the immediate written out in hexadecimal, one digit per index field -/

/-- The default decoder reads `v` as `i`. -/
def reads (v : BitVec 64) (i : Instr) : Prop := decode Params.default v = .ok i

/-- The default decoder refuses `v` for the reason `e`. -/
def refuses (v : BitVec 64) (e : DecodeError) : Prop := decode Params.default v = .error e

theorem test_decode_system :
    reads 0x00000000 .nop ∧ reads 0x01070004 (.cfgw .root 7) ∧ reads 0x02900005 (.cfgr 9 .s) ∧ reads 0x03000000 .cfgcommit ∧
    reads 0x04000000 .cfginv := by
  unfold reads; decide

/-- 30 R133: selectors 0 to 5, in the immediate of CFGW and of CFGR. -/
theorem test_decode_selectors :
    reads 0x01070000 (.cfgw .q 7) ∧ reads 0x01070001 (.cfgw .r1 7) ∧ reads 0x01070002 (.cfgw .r2 7) ∧
    reads 0x01070003 (.cfgw .qprime 7) ∧ reads 0x01070004 (.cfgw .root 7) ∧ reads 0x01070005 (.cfgw .s 7) ∧
    reads 0x02900001 (.cfgr 9 .r1) ∧ reads 0x02900002 (.cfgr 9 .r2) := by
  unfold reads; decide

theorem test_decode_bigint :
    reads 0x10312000 (.wadd 3 1 2) ∧ reads 0x11312000 (.wsub 3 1 2) ∧ reads 0x12012000 (.wcmp 1 2) ∧
    reads 0x13312000 (.wsel 3 1 2) ∧ reads 0x14412500 (.wmul 4 1 2 5) ∧ reads 0x15100FFF (.wli 1 0xFFF) ∧
    reads 0x16210000 (.wmov 2 1) := by
  unfold reads; decide

theorem test_decode_field :
    reads 0x20210000 (.fenc 2 1) ∧ reads 0x21210000 (.fdec 2 1) ∧ reads 0x22312000 (.fadd 3 1 2) ∧
    reads 0x23312000 (.fsub 3 1 2) ∧ reads 0x24312000 (.fmul 3 1 2) ∧ reads 0x25210000 (.fneg 2 1) ∧
    reads 0x26012000 (.feq 1 2) ∧ reads 0x27200000 (.fzero 2) ∧ reads 0x28200000 (.fone 2) := by
  unfold reads; decide

theorem test_decode_ntt :
    reads 0x30000000 .sclr ∧ reads 0x310F0000 (.spush 15) ∧ reads 0x32100007 (.sget 1 7) ∧ reads 0x33020000 (.sntt 2) ∧
    reads 0x34030000 (.sintt 3) ∧ reads 0x38000003 (.ctxnew 0 3) ∧ reads 0x39200000 (.ctxrel 2) := by
  unfold reads; decide

theorem test_decode_ring :
    reads 0x40210000 (.rfromc 2 1) ∧ reads 0x41210000 (.rfromn 2 1) ∧ reads 0x42210000 (.rzero 2 1) ∧
    reads 0x43210000 (.rone 2 1) ∧ reads 0x44250000 (.rcopy 2 5) ∧ reads 0x45500000 (.rfree 5) ∧ reads 0x46500000 (.rtontt 5) ∧
    reads 0x47500000 (.rtocoef 5) ∧ reads 0x48201000 (.radd 2 0 1) ∧ reads 0x49210000 (.rsub 2 1 0) ∧
    reads 0x4A301000 (.rmul 3 0 1) ∧ reads 0x4B250000 (.rneg 2 5) ∧ reads 0x4C20F000 (.rscale 2 0 15) ∧
    reads 0x4D001000 (.req 0 1) ∧ reads 0x4E100007 (.rgetc 1 0 7) ∧ reads 0x4F110007 (.rgetn 1 1 7) := by
  unfold reads; decide

/-- 30 R120, R123, R124, R127, R128, R133 (V80 to V84). -/
theorem test_decode_refusals :
    refuses 0x100000000 .upperHalf ∧ refuses 0x05000000 .reservedOpcode ∧ refuses 0x00000001 .mustBeZero ∧
    refuses 0x10312001 .mustBeZero ∧ refuses 0x03800000 .mustBeZero ∧ refuses 0x4E10F007 .mustBeZero ∧
    refuses 0x14412501 .mustBeZero ∧ refuses 0x48801000 .indexTooLarge ∧ refuses 0x38400003 .indexTooLarge ∧
    refuses 0x01010006 .badSelector ∧ refuses 0x02100FFF .badSelector ∧ refuses 0x14123100 .sameDestination := by
  unfold refuses; decide

theorem test_table_word : decodeTableWord 32 0x14412500 = some (.wmul 4 1 2 5) ∧ decodeTableWord 32 0x17000000 = none := by decide

/-! ## States for the tests -/

/-- The default sizes, but rings of at most two coefficients: small enough to evaluate. -/
def small : Params := { Params.default with lognmax := 1 }

/-- The reset state. -/
def blank : State := State.resetWith small 0

/-- The configuration of spec 95's state S97: q = 97. -/
def cfg97 : FieldCfg :=
  { q := 97, r1 := 61, r2 := 35
    qprime := ofLimbs (fun k => [0x5C5F02A3A0FD5C5F, 0xA0FD5C5F02A3A0FD, 0x02A3A0FD5C5F02A3].getD (k % 3) 0) 16
    root := 28, s := 5 }

/-- `s` with `v` in W[i], all limbs written. -/
def withW (s : State) (i : Idx) (v : Word) : State := s.writeW i v

/-- The largest wide word. -/
def ones : Word := BitVec.allOnes 1024

/-- q = 97 committed; W1 = 14, W2 = 39, W3 = 96, W4 = 97, W5 never written. -/
def conf : State :=
  withW (withW (withW (withW { blank with cfg := cfg97, status := { blank.status with cfgv := true } } 1 14) 2 39) 3 96) 4 97

/-- Three contexts: slots 0 and 1 of degree 2, slot 2 of degree 1; slot 3 is free. -/
def ctxs : State := ((conf.newCtx 0 1).newCtx 1 1).newCtx 2 0

/-- A slot bound by a command that reads no W register. -/
def bind (s : State) (rd c : Idx) (st : Rep) (d : List Word) : State := ((s.noteReads []).bindRing rd c st d).complete

/-- Slot 0 holds enc([1, 2]) in coefficient state, slot 1 the same in NTT state, slot 2 enc([3, 4]), all on context 1; slot 3
holds [0, 0] on context 0; slots 4 to 7 are unbound. -/
def ring : State :=
  bind (bind (bind (bind ctxs 0 1 .coefficient [61, 25]) 1 1 .ntt [29, 93]) 2 1 .coefficient [86, 50]) 3 0 .coefficient [0, 0]

/-- `ring` with enc([1, 2]) staged. -/
def staged : State := (ring.pushStage 61).pushStage 25

/-- `ring` after the host gave up context 0: slot 3 holds its last reference. -/
def released : State := ring.dropHold 0

/-- `s` with the host's next event placed. -/
def facing (s : State) (e : HostEvent) : State := { s with host := e :: s.host }

/-- `s` with a standing ILLEGAL_COMMAND. -/
def faulted (s : State) : State := s.recordFault .illegalCommand 0x05000000

/-- `i` answers a next state in which `ok` holds. -/
def after (i : Instr) (s : State) (ok : State → Bool) : Bool :=
  match exec i s with
  | .next t => ok t && decide (t.status.fault = false) && decide (t.cmdcount = s.cmdcount + 1)
  | _ => false

/-- `i` records the fault `code`, and does not count. -/
def raises (i : Instr) (s : State) (code : ErrCode) : Bool :=
  match exec i s with
  | .next t => t.status.fault && decide (t.status.err = code) && decide (t.cmdcount = s.cmdcount) && decide (t.faultcmd = i.cmdValue)
  | _ => false

/-- W[i] reads as `v`. -/
def holds (i : Idx) (v : Word) (t : State) : Bool := decide (t.readW i = v)

/-- Slot `r` is bound in state `st` with the elements `d`. -/
def slotIs (r : Idx) (st : Rep) (d : List Word) (t : State) : Bool :=
  (t.re.get r).bound && decide ((t.re.get r).st = st) && decide (t.ringData r = d)

/-! ## One step per instruction -/

theorem test_nop : after .nop conf (fun t => decide (t.flags = conf.flags)) = true := by decide +kernel

theorem test_cfgw :
    after (.cfgw .r1 1) (withW blank 1 61) (fun t => decide (t.cfg = { blank.cfg with r1 := 61 })) = true ∧
    after (.cfgw .r2 1) (withW blank 1 35) (fun t => decide (t.cfg = { blank.cfg with r2 := 35 })) = true := by
  decide +kernel
/-- V21a. -/
theorem test_cfgw_locked : raises (.cfgw .q 1) conf .resourceBusy = true := by decide +kernel
theorem test_cfgr : after (.cfgr 9 .root) conf (holds 9 28) = true := by decide +kernel
theorem test_cfgcommit : after .cfgcommit { blank with cfg := cfg97 } (fun t => t.status.cfgv) = true := by decide +kernel
/-- V20h: 5 has not the order 2^5 modulo 97. -/
theorem test_cfgcommit_bad_root : raises .cfgcommit { blank with cfg := { cfg97 with root := 5 } } .configInvalid = true := by
  decide +kernel
/-- V21b, V21c. -/
theorem test_cfginv : after .cfginv conf (fun t => !t.status.cfgv) = true ∧ raises .cfginv ctxs .resourceBusy = true := by
  decide +kernel

/-- V11. -/
theorem test_wadd_carries : after (.wadd 3 1 1) (withW blank 1 ones) (fun t => t.flags.cf && holds 3 (ones - 1) t) = true := by
  decide +kernel
/-- V1: the carry crosses a limb boundary, and CF is 0. -/
theorem test_wadd_limb_carry :
    after (.wadd 3 1 2) (withW (withW blank 1 0xFFFFFFFFFFFFFFFF) 2 1)
      (fun t => !t.flags.cf && decide (limb (t.readW 3) 0 = 0 ∧ limb (t.readW 3) 1 = 1)) = true := by
  decide +kernel
/-- V13a. -/
theorem test_wsub_borrows : after (.wsub 3 1 2) (withW (withW blank 1 0) 2 1) (fun t => t.flags.cf && holds 3 ones t) = true := by
  decide +kernel
/-- V13b: a borrow between limbs leaves CF at 0. -/
theorem test_wsub_limb_borrow :
    after (.wsub 3 1 2) (withW (withW blank 1 0x10000000000000000) 2 1)
      (fun t => !t.flags.cf && holds 3 0xFFFFFFFFFFFFFFFF t) = true := by
  decide +kernel
/-- V14c: the compare is unsigned. -/
theorem test_wcmp : after (.wcmp 1 2) (withW (withW blank 1 ones) 2 0) (fun t => t.flags.gt && !t.flags.lt && !t.flags.eq) = true := by
  decide +kernel
/-- V15a, V15b. -/
theorem test_wsel :
    after (.wsel 5 1 2) conf (holds 5 14) = true ∧
    after (.wsel 5 1 2) { conf with flags := { conf.flags with cf := true } } (holds 5 39) = true := by
  decide +kernel
/-- V16a. -/
theorem test_wmul :
    after (.wmul 3 1 2 4) (withW (withW blank 1 ones) 2 ones) (fun t => holds 3 1 t && holds 4 (ones - 1) t) = true := by
  decide +kernel
/-- V18b: all 1024 bits are written. -/
theorem test_wli : after (.wli 1 0xFFF) (withW blank 1 ones) (holds 1 4095) = true := by decide +kernel
theorem test_wmov : after (.wmov 6 2) conf (fun t => holds 6 39 t && holds 2 39 t) = true := by decide +kernel
/-- A command that reads a never-written register runs, and leaves a record (10 R32, 70 R471). -/
theorem test_unwritten : after (.wmov 6 5) conf (fun t => t.programFault && t.isWritten 6) = true := by decide +kernel

/-- V22a, V22f. -/
theorem test_fenc :
    after (.fenc 6 5) (withW conf 5 5) (holds 6 14) = true ∧ after (.fenc 6 5) (withW conf 5 98) (holds 6 61) = true := by
  decide +kernel
/-- V23c, V23f. -/
theorem test_fdec : after (.fdec 6 1) conf (holds 6 5) = true ∧ after (.fdec 6 3) conf (holds 6 62) = true := by decide +kernel
/-- V24a, V24d. -/
theorem test_fadd :
    after (.fadd 6 3 5) (withW conf 5 1) (holds 6 0) = true ∧ after (.fadd 6 3 3) conf (holds 6 95) = true := by
  decide +kernel
/-- V30a; V31a. -/
theorem test_fadd_faults : raises (.fadd 6 4 1) conf .nonCanonical = true ∧ raises (.fadd 6 4 1) blank .notConfigured = true := by
  decide +kernel
/-- V25a, V25c. -/
theorem test_fsub :
    after (.fsub 6 7 8) (withW (withW conf 7 0) 8 1) (holds 6 96) = true ∧
    after (.fsub 6 8 3) (withW conf 8 1) (holds 6 2) = true := by
  decide +kernel
/-- V26a, V26d. -/
theorem test_fmul : after (.fmul 6 1 2) conf (holds 6 1) = true ∧ after (.fmul 6 3 3) conf (holds 6 35) = true := by
  decide +kernel
/-- V27a, V27b. -/
theorem test_fneg :
    after (.fneg 6 7) (withW conf 7 0) (holds 6 0) = true ∧ after (.fneg 6 7) (withW conf 7 1) (holds 6 96) = true := by
  decide +kernel
/-- V28a, V28b. -/
theorem test_feq :
    after (.feq 2 2) conf (fun t => t.flags.veq) = true ∧ after (.feq 2 1) conf (fun t => !t.flags.veq) = true := by
  decide +kernel
/-- V29a. -/
theorem test_fzero : after (.fzero 2) conf (holds 2 0) = true := by decide +kernel
/-- V29b. -/
theorem test_fone : after (.fone 2) conf (holds 2 61) = true := by decide +kernel

theorem test_sclr : after .sclr staged (fun t => decide (t.slen = 0)) = true := by decide +kernel
/-- 42 R276: the operand need not be canonical; a full buffer overflows. -/
theorem test_spush :
    after (.spush 4) ring (fun t => decide (t.slen = 1 ∧ t.stage.getD 0 0 = 97)) = true ∧
    raises (.spush 4) staged .stagingOverflow = true := by
  decide +kernel
theorem test_sget : after (.sget 6 1) staged (holds 6 25) = true ∧ raises (.sget 6 2) staged .indexRange = true := by
  decide +kernel
/-- By hand: ζ = 22, 75 modulo 97, and 61 + 25·ζ is 29, 93. -/
theorem test_sntt : after (.sntt 1) staged (fun t => decide (t.stage = [29, 93])) = true := by decide +kernel
theorem test_sintt :
    after (.sintt 1) { staged with stage := [29, 93] } (fun t => decide (t.stage = [61, 25])) = true := by
  decide +kernel
/-- By hand: ψ = 28^(2^3) mod 97 = 22. -/
theorem test_ctxnew :
    after (.ctxnew 3 1) ring
      (fun t => decide ((t.cx.get 3).psi = 22 ∧ (t.cx.get 3).cid = 4 ∧ t.nextCid = 5 ∧ (t.cx.get 3).logn = 1)) = true := by
  decide +kernel
theorem test_ctxnew_faults :
    raises (.ctxnew 3 2) ring .constructionError = true ∧ raises (.ctxnew 1 1) ring .resourceBusy = true := by
  decide +kernel
/-- 42 R272: an unreferenced slot is freed; a referenced one stays valid. -/
theorem test_ctxrel :
    after (.ctxrel 2) ring (fun t => !(t.cx.get 2).valid) = true ∧
    after (.ctxrel 1) ring (fun t => (t.cx.get 1).valid && !(t.cx.get 1).hostref && decide ((t.cx.get 1).refcnt = 3)) = true := by
  decide +kernel

theorem test_rfromc : after (.rfromc 4 1) staged (slotIs 4 .coefficient [61, 25]) = true := by decide +kernel
theorem test_rfromn : after (.rfromn 4 1) staged (slotIs 4 .ntt [61, 25]) = true := by decide +kernel
/-- V67a: the construction of an element of the wrong length. -/
theorem test_rfromc_length : raises (.rfromc 4 2) staged .constructionError = true := by decide +kernel
theorem test_rzero : after (.rzero 0 1) ring (slotIs 0 .coefficient [0, 0]) = true := by decide +kernel
/-- V65a. -/
theorem test_rone : after (.rone 4 1) ring (slotIs 4 .coefficient [61, 0]) = true := by decide +kernel
/-- V68d: the slot moves to the other context. -/
theorem test_rcopy :
    after (.rcopy 0 3) ring (fun t => slotIs 0 .coefficient [0, 0] t &&
      decide ((t.re.get 0).cid = 1 ∧ (t.cx.get 0).refcnt = 2 ∧ (t.cx.get 1).refcnt = 2)) = true := by
  decide +kernel
/-- V69c; and the last reference frees a context the host has let go (42 R274). -/
theorem test_rfree :
    after (.rfree 0) ring (fun t => !(t.re.get 0).bound && (t.cx.get 1).valid) = true ∧
    after (.rfree 3) released (fun t => !(t.re.get 3).bound && !(t.cx.get 0).valid) = true := by
  decide +kernel
theorem test_rtontt :
    after (.rtontt 0) ring (slotIs 0 .ntt [29, 93]) = true ∧ raises (.rtontt 4) ring .invalidHandle = true := by
  decide +kernel
theorem test_rtocoef : after (.rtocoef 1) ring (slotIs 1 .coefficient [61, 25]) = true := by decide +kernel
/-- By hand: enc([1, 2]) + enc([3, 4]) = enc([4, 6]), also from mixed states. -/
theorem test_radd :
    after (.radd 4 0 2) ring (slotIs 4 .coefficient [50, 75]) = true ∧
    after (.radd 4 1 2) ring (slotIs 4 .coefficient [50, 75]) = true := by
  decide +kernel
/-- By hand: enc([1, 2]) − enc([3, 4]) = enc([−2, −2]); V68b's fault. -/
theorem test_rsub :
    after (.rsub 4 0 2) ring (slotIs 4 .coefficient [72, 72]) = true ∧
    raises (.rsub 4 0 3) ring .configurationMismatch = true := by
  decide +kernel
/-- By hand: (1 + 2X)(3 + 4X) = −5 + 10X modulo X² + 1, whose transform is [20, 49]. -/
theorem test_rmul : after (.rmul 4 0 2) ring (slotIs 4 .ntt [20, 49]) = true := by decide +kernel
theorem test_rneg : after (.rneg 4 0) ring (slotIs 4 .coefficient [36, 72]) = true := by decide +kernel
/-- By hand: 14 = enc(5), and enc([5, 10]) = [14, 28]; V64c's fault. -/
theorem test_rscale :
    after (.rscale 4 0 1) ring (slotIs 4 .coefficient [14, 28]) = true ∧ raises (.rscale 4 0 4) ring .nonCanonical = true := by
  decide +kernel
/-- 43 R337: the compare sees through the representation. -/
theorem test_req :
    after (.req 0 1) ring (fun t => t.flags.veq) = true ∧ after (.req 0 2) ring (fun t => !t.flags.veq) = true := by
  decide +kernel
/-- V66a, V66d. -/
theorem test_rgetc : after (.rgetc 6 2 1) ring (holds 6 50) = true ∧ raises (.rgetc 6 1 0) ring .invalidState = true := by
  decide +kernel
/-- V66b: INVALID_STATE comes before INDEX_RANGE. -/
theorem test_rgetn : after (.rgetn 6 1 1) ring (holds 6 93) = true ∧ raises (.rgetn 6 0 8) ring .invalidState = true := by
  decide +kernel

/-! ## The engine and the aperture, one step each -/

/-- `ok` holds of the state that a step leads to. -/
def stepsTo (s : State) (ok : State → Bool) : Bool :=
  match step s with
  | .next t => ok t
  | _ => false

/-- V86a: a CMD write while FAULT = 1 is dropped. -/
theorem test_drop :
    stepsTo (facing (faulted conf) (.write 0x028 8 0)) (fun t => t.status.drop && decide (t.cmdcount = conf.cmdcount)) = true := by
  decide +kernel
/-- V87c: a narrow CMD write executes nothing. -/
theorem test_narrow_write :
    stepsTo (facing conf (.write 0x028 4 0)) (fun t => t.status.buserr && decide (t.cmdcount = conf.cmdcount)) = true := by
  decide +kernel
/-- V89d, V87b. -/
theorem test_reads :
    stepsTo (facing State.reset (.read 0x008 8)) (fun t => decide (t.reply = some ⟨false, some 0x8040810⟩)) = true ∧
    stepsTo (facing State.reset (.read 0x004 8)) (fun t => decide (t.reply = some ⟨true, some 0⟩)) = true := by
  decide +kernel
/-- The code bytes of 60 R411, as STATUS shows them with FAULT = 1. -/
theorem test_error_codes :
    ([ErrCode.illegalCommand, .configurationMismatch, .invalidState, .constructionError, .notConfigured, .invalidHandle,
      .nonCanonical, .indexRange, .lengthMismatch, .stagingOverflow, .configInvalid, .resourceBusy].map
      fun e => (blank.recordFault e 0).readReg .status) =
    [0x101, 0x201, 0x301, 0x401, 0x501, 0x601, 0x701, 0x801, 0x901, 0xA01, 0xB01, 0xC01] ∧ blank.readReg .status = 0 := by
  decide +kernel
/-- 70 R461. -/
theorem test_soft_reset :
    stepsTo (facing (faulted ring) (.write 0x010 8 2))
      (fun t => !t.status.fault && !(t.re.get 0).bound && decide (t.nextCid = 1)) = true := by
  decide +kernel
/-- The placed word is what the next step runs. -/
theorem test_fetch : stepsTo (State.reset.withFetchWord 32 0x15100FFF) (holds 1 4095) = true := by decide +kernel

/-! ## Witnesses: states and operands that meet the hypotheses of each statement, clause by clause -/

theorem next_of_stepsTo {s : State} {ok : State → Bool} (h : stepsTo s ok = true) : ∃ t, step s = .next t ∧ ok t = true := by
  unfold stepsTo at h
  split at h
  · exact ⟨_, ‹_›, h⟩
  · cases h

theorem next_of_after {i : Instr} {s : State} {ok : State → Bool} (h : after i s ok = true) :
    ∃ t, exec i s = .next t ∧ t.cmdcount = s.cmdcount + 1 := by
  unfold after at h
  split at h
  · simp only [Bool.and_eq_true, decide_eq_true_eq] at h
    exact ⟨_, ‹_›, h.2⟩
  · cases h

/-- A statement about every member of a list, by evaluating it on each. -/
theorem forall_of_all {α : Type} {l : List α} {p : α → Prop} [DecidablePred p] (h : (l.all fun x => decide (p x)) = true) :
    ∀ x ∈ l, p x := fun x hx => of_decide_eq_true (List.all_eq_true.1 h x hx)

theorem inv_blank : blank.Inv := State.inv_resetWith (by decide) 0

theorem cfg97_ok : cfgOk cfg97 = true := by decide +kernel

theorem inv_conf : conf.Inv :=
  ((((inv_blank.configure (fun _ => inv_blank.none_valid rfl _) cfg97 true fun _ => cfg97_ok).writeW 1 14).writeW 2 39).writeW
    3 96).writeW 4 97

theorem inv_ctxs : ctxs.Inv := by
  have h0 : (conf.newCtx 0 1).Inv :=
    inv_conf.newCtx rfl (by decide +kernel) (by decide +kernel) (by decide +kernel) (by decide +kernel) (by decide +kernel)
  have h1 : ((conf.newCtx 0 1).newCtx 1 1).Inv :=
    h0.newCtx rfl (by decide +kernel) (by decide +kernel) (by decide +kernel) (by decide +kernel) (by decide +kernel)
  exact h1.newCtx rfl (by decide +kernel) (by decide +kernel) (by decide +kernel) (by decide +kernel) (by decide +kernel)

/-- Binding a slot keeps the invariant, on checks a test can evaluate. -/
theorem inv_bind {s : State} (h : s.Inv) {rd c : Idx} {st : Rep} {d : List Word}
    (hok : ((s.cx.get c).valid && decide (d.length = s.degree c) && decide (rd.toNat < s.params.nring) &&
      d.all fun x => decide (x.toNat < s.cfg.q.toNat)) = true) : (bind s rd c st d).Inv := by
  simp only [Bool.and_eq_true, decide_eq_true_eq, List.all_eq_true] at hok
  exact h.binds (s.bindRing_binds [] rd c st d fun hb hc => h.refcnt_ne_zero hb hc) hok.1.1.1 hok.1.1.2 hok.2 hok.1.2

theorem inv_ring : ring.Inv :=
  inv_bind (inv_bind (inv_bind (inv_bind inv_ctxs (by decide +kernel)) (by decide +kernel)) (by decide +kernel)) (by decide +kernel)

theorem inv_staged : staged.Inv := (inv_ring.pushStage 61 (by decide +kernel)).pushStage 25 (by decide +kernel)

theorem inv_released : released.Inv := inv_ring.dropHold (by decide +kernel)

theorem inv_facing {s : State} (h : s.Inv) (e : HostEvent) : (facing s e).Inv := h.same rfl rfl rfl rfl rfl rfl rfl rfl

theorem witness_decodeOfEncode :
    (Instr.wmul 15 0 15 0).wf Params.default = true ∧ (Instr.rscale 7 0 15).wf Params.default = true ∧
    (Instr.ctxnew 3 0xFFF).wf Params.default = true ∧
    (Instr.wli 0 0).wf { nw := 1, nring := 1, nctx := 1, lognmax := 0, base := 0 } = true := by decide

theorem witness_acceptedWordsAreUnique :
    decode Params.default 0x14412500 = .ok (.wmul 4 1 2 5) ∧
    (conf.status.fault = false ∧ ∃ r, rowOf 0x10 = some r ∧ r.fmt.unusedZero ⟨0x10, 3, 1, 2, 1⟩ = false) :=
  ⟨by decide, rfl, _, rfl, by decide⟩

/-- The two ends of each reserved range. -/
theorem witness_reservedOpcodesFault :
    conf.status.fault = false ∧
    ∀ op ∈ [0x05, 0x0F, 0x17, 0x1F, 0x29, 0x2F, 0x35, 0x37, 0x3A, 0x3F, 0x50, 0xFF],
      ((BitVec.ofNat 64 (op * 2 ^ 24)).extractLsb' 24 8).toNat = op := by decide +kernel

theorem witness_illegalCommandForms :
    conf.status.fault = false ∧ (0x100000000 : BitVec 64).extractLsb' 32 32 ≠ 0 ∧
    (Instr.rfree 8).wf conf.params = false ∧ (Instr.wmul 1 2 3 1).wf conf.params = false ∧
    (((0x01010006 : BitVec 64).extractLsb' 24 8).toNat = 0x01 ∧ 5 < ((0x01010006 : BitVec 64).extractLsb' 0 12).toNat) ∧
    (((0x02100FFF : BitVec 64).extractLsb' 24 8).toNat = 0x02 ∧ 5 < ((0x02100FFF : BitVec 64).extractLsb' 0 12).toNat) := by
  decide +kernel

theorem witness_stepRunsDecodedCommand :
    let s := facing conf (.write 0x028 8 0x16610000)
    s.rstn = true ∧ s.status.fault = false ∧ s.host = .write (s.params.base + 0x028) 8 0x16610000 :: [] ∧
    decode s.params 0x16610000 = .ok (.wmov 6 1) ∧ (Instr.wmov 6 1).wf s.params = true := by decide +kernel

theorem witness_stepDropsOrRecordsCmdWrites :
    let s := facing conf (.write 0x028 8 0x05000000)
    let t := facing (faulted conf) (.write 0x028 8 0)
    (s.rstn = true ∧ s.host = .write (s.params.base + 0x028) 8 0x05000000 :: [] ∧ s.status.fault = false ∧
      decode s.params 0x05000000 = .error .reservedOpcode) ∧
    (t.rstn = true ∧ t.host = .write (t.params.base + 0x028) 8 0 :: [] ∧ t.status.fault = true) := by decide +kernel

/-- Both ends of the aperture, with the base at 8192. -/
theorem witness_idleAndForeignAccesses :
    let p : Params := { small with base := 0x2000 }
    ring.host = [] ∧ (0x1FFF < p.base ∧ (facing { conf with params := p } (.read 0x1FFF 8)).host = .read 0x1FFF 8 :: []) ∧
    (p.base + 0x2000 ≤ 0x4000 ∧ (facing { conf with params := p } (.write 0x4000 8 0)).host = .write 0x4000 8 0 :: []) := by
  decide +kernel

theorem witness_readsReturnTheRegister :
    ∀ off ∈ [0x000, 0x1000, 0x1FF8],
      let s := facing conf (.read off 8)
      s.rstn = true ∧ off < 0x2000 ∧ off % 8 = 0 ∧ s.host = .read (s.params.base + off) 8 :: [] := by decide +kernel

/-- Slots on both sides of NCTX = 4 and NRING = 8, valid and free, bound and unbound. -/
theorem witness_registerValues :
    ring.Inv ∧ ((1 : Idx).toNat < ring.params.nctx ∧ ring.params.nctx ≤ (4 : Idx).toNat ∧ (ring.cx.get 3).valid = false) ∧
    ((0 : Idx).toNat < ring.params.nring ∧ ring.params.nring ≤ (8 : Idx).toNat ∧ (ring.re.get 7).bound = false) :=
  ⟨inv_ring, by decide +kernel, by decide +kernel⟩

/-- First and last limb of the window, and the first and last byte past it. -/
theorem witness_wWindow :
    (∀ x ∈ [((0 : Idx), 0), (15, 15)],
      let s := facing conf (.write (0x1000 + 0x80 * x.1.toNat + 8 * x.2) 8 7)
      let t := facing conf (.read (0x1000 + 0x80 * x.1.toNat + 8 * x.2) 8)
      x.1.toNat < s.params.nw ∧ x.2 < 16 ∧
      (s.rstn = true ∧ s.host = .write (s.params.base + 0x1000 + 0x80 * x.1.toNat + 8 * x.2) 8 7 :: []) ∧
      (t.rstn = true ∧ t.host = .read (t.params.base + 0x1000 + 0x80 * x.1.toNat + 8 * x.2) 8 :: [])) ∧
    (Params.default.nw ≤ 16 ∧ ∀ off ∈ [0x1800, 0x1FFF], 0x1000 + 0x80 * Params.default.nw ≤ off ∧ off < 0x2000) := by
  decide +kernel

theorem witness_wByteOrder :
    (4 : Idx).toNat < conf.params.nw ∧ (0 < 128 ∧ 127 < 128) ∧ conf.isWritten 4 = true := by decide +kernel

/-- A misaligned and a narrow access, at both ends of the aperture. -/
theorem witness_busErrors :
    ∀ x ∈ [(0x000, 4), (0x004, 8), (0x1FFF, 8), (0x1FF8, 1)],
      let s := facing conf (.read x.1 x.2)
      let t := facing conf (.write x.1 x.2 0)
      s.rstn = true ∧ t.rstn = true ∧ x.1 < 0x2000 ∧ ¬(x.2 = 8 ∧ x.1 % 8 = 0) ∧
      s.host = .read (s.params.base + x.1) x.2 :: [] ∧ t.host = .write (t.params.base + x.1) x.2 0 :: [] := by decide +kernel

theorem witness_reservedOffsets :
    ∀ off ∈ [0x058, 0x0F8, 0x300, 0xFF8, 0x1800, 0x1FF8],
      let s := facing conf (.read off 8)
      let t := facing conf (.write off 8 1)
      s.rstn = true ∧ t.rstn = true ∧ off < 0x2000 ∧ off % 8 = 0 ∧
      (0x058 ≤ off ∧ off < 0x100 ∨ 0x300 ≤ off ∧ off < 0x1000 ∨ 0x1000 + 0x80 * s.params.nw ≤ off) ∧
      s.host = .read (s.params.base + off) 8 :: [] ∧ t.host = .write (t.params.base + off) 8 1 :: [] := by decide +kernel

theorem witness_readOnlyOffsets :
    ∀ off ∈ [0x000, 0x008, 0x030, 0x050, 0x100, 0x2F8],
      let t := facing conf (.write off 8 1)
      t.rstn = true ∧ off < 0x2000 ∧ off % 8 = 0 ∧
      (off = 0x000 ∨ off = 0x008 ∨ 0x030 ≤ off ∧ off ≤ 0x050 ∨ 0x100 ≤ off ∧ off < 0x300) ∧
      t.host = .write (t.params.base + off) 8 1 :: [] := by decide +kernel

theorem witness_controlRegisterWrites :
    (∀ off ∈ [0x018, 0x020, 0x010],
      let s := facing (faulted conf) (.write off 8 1)
      s.rstn = true ∧ s.host = .write (s.params.base + off) 8 1 :: []) ∧ (1 : Limb).getLsbD 1 = false := by decide +kernel

theorem witness_resets :
    (let s := facing ring (.write 0x010 8 3);
      s.rstn = true ∧ (3 : Limb).getLsbD 1 = true ∧ s.host = .write (s.params.base + 0x010) 8 3 :: []) ∧
    (let s := facing { ring with rstn := false } (.rstn true);
      s.rstn = false ∧ s.host = .rstn true :: []) ∧
    (facing ring (.rstn false)).host = .rstn false :: [] ∧
    (let s := facing { ring with rstn := false } (.read 0x028 8);
      s.rstn = false ∧ s.host = .read 0x028 8 :: []) := by decide +kernel

/-- For StepKeepsInvariant, ContextDataIsImmutable and CidsAreNeverReused: a step that binds a ring slot, one that constructs a
context, and one that frees one. -/
theorem witness_steps :
    ∀ e ∈ [HostEvent.write 0x028 8 0x4A402000, .write 0x028 8 0x38300001, .write 0x028 8 0x39200000],
      (facing ring e).Inv ∧ ∃ t, step (facing ring e) = .next t ∧ decide (t.cmdcount = ring.cmdcount + 1) = true := by
  intro e he
  refine ⟨inv_facing inv_ring e, next_of_stepsTo (ok := fun t => decide (t.cmdcount = ring.cmdcount + 1)) ?_⟩
  revert e
  decide +kernel

theorem witness_committedConfigurationIsLocked :
    (facing ring (.write 0x028 8 0x01010000)).status.cfgv = true ∧
    ∃ t, step (facing ring (.write 0x028 8 0x01010000)) = .next t ∧ decide (t.status.err = .resourceBusy) = true :=
  ⟨by decide +kernel, next_of_stepsTo (ok := fun t => decide (t.status.err = .resourceBusy)) (by decide +kernel)⟩

theorem witness_faultRecordStands :
    (facing (faulted ring) (.write 0x018 8 1)).status.fault = true ∧
    ∃ t, step (facing (faulted ring) (.write 0x018 8 1)) = .next t ∧ decide (t.status.err = .none) = true :=
  ⟨by decide +kernel, next_of_stepsTo (ok := fun t => decide (t.status.err = .none)) (by decide +kernel)⟩

/-- `conf` with every flag set. -/
def flagged : State := { conf with flags := ⟨true, true, true, true, true⟩ }

/-- WADD writes CF, NOP no flag; both run whatever the flags are. -/
theorem witness_flagWritersAndReaders :
    (∃ t, exec (.wadd 6 1 2) conf = .next t ∧ t.cmdcount = conf.cmdcount + 1) ∧
    (∃ t, exec .nop conf = .next t ∧ t.cmdcount = conf.cmdcount + 1) ∧
    (∃ t, exec .nop flagged = .next t ∧ t.cmdcount = flagged.cmdcount + 1) ∧
    (Instr.nop ≠ .wadd 0 0 0 ∧ Instr.nop ≠ .wcmp 0 0 ∧ Instr.nop ≠ .feq 0 0 ∧ Instr.nop ≠ .wsel 0 0 0) :=
  ⟨next_of_after (ok := fun _ => true) (by decide +kernel),
    next_of_after (ok := fun _ => true) (by decide +kernel), next_of_after (ok := fun _ => true) (by decide +kernel), by decide⟩

/-- A ring command that completes, one that faults, and an unbound slot. -/
theorem witness_ringSlotsChangeOnlyAsTabled :
    (∃ t, exec (.rmul 4 0 2) ring = .next t ∧ t.cmdcount = ring.cmdcount + 1) ∧
    (∃ t, exec (.rfree 4) ring = .next t ∧ t.cmdcount = ring.cmdcount) ∧ (ring.re.get 4).bound = false :=
  ⟨next_of_after (ok := fun _ => true) (by decide +kernel), ⟨_, rfl, by decide +kernel⟩, by decide +kernel⟩

theorem witness_redcProperties :
    cfgOk cfg97 = true ∧ (2 ^ 2048 - 1 < 2 ^ 2048 ∧ cfg97.q.toNat * radix - 1 < cfg97.q.toNat * radix) ∧
    (canonical cfg97 0 = true ∧ canonical cfg97 96 = true) := ⟨cfg97_ok, by decide +kernel, by decide +kernel⟩

theorem witness_fieldLaws :
    cfgOk cfg97 = true ∧ (canonical cfg97 0 = true ∧ canonical cfg97 96 = true) ∧ 96 < cfg97.q.toNat :=
  ⟨cfg97_ok, by decide +kernel, by decide +kernel⟩

/-- For TransformsInvertEachOther, ForwardTransformEvaluates and ProductLaw: a context of degree 2 and one of degree 1. -/
theorem witness_transforms :
    ring.Inv ∧
    ((ring.cx.get 1).valid = true ∧ [61, 25].length = ring.degree 1 ∧ [86, 50].length = ring.degree 1 ∧ 1 < ring.degree 1) ∧
    ((ring.cx.get 2).valid = true ∧ [96].length = ring.degree 2 ∧ 0 < ring.degree 2) ∧
    (∀ x ∈ [(61 : Word), 25], canonical ring.cfg x = true) ∧ (∀ x ∈ [(86 : Word), 50], canonical ring.cfg x = true) ∧
    (∀ x ∈ [(96 : Word)], canonical ring.cfg x = true) :=
  ⟨inv_ring, by decide +kernel, by decide +kernel, forall_of_all (by decide +kernel), forall_of_all (by decide +kernel),
    forall_of_all (by decide +kernel)⟩

theorem witness_cfgwCfgr : conf.status.cfgv = true ∧ blank.status.cfgv = false ∧ CfgSel.q ≠ .s := by decide +kernel

theorem witness_cfgcommitCfginv :
    (conf.status.cfgv = true ∧ ∀ c, (conf.cx.get c).valid = false) ∧
    (blank.status.cfgv = false ∧ cfgOk blank.cfg = false) ∧
    (let s : State := { blank with cfg := cfg97 };
      s.status.cfgv = false ∧ cfgOk s.cfg = true) ∧
    ∃ c, (ring.cx.get c).valid = true := ⟨by decide +kernel, by decide +kernel, by decide +kernel, 1, by decide +kernel⟩

theorem witness_wmul : (4 : Idx) ≠ 5 := by decide

/-- For FencFdecEffect, FaddFsubFnegEffect, FmulEffect, FeqEffect and FzeroFoneEffect: the operands q − 1 = 96 and q = 97 on
either side of the canonical range, configured and not. -/
theorem witness_field :
    blank.status.cfgv = false ∧ conf.status.cfgv = true ∧ cfgOk conf.cfg = true ∧
    (conf.readW 3).toNat < conf.cfg.q.toNat ∧ (conf.readW 1).toNat < conf.cfg.q.toNat ∧
    conf.cfg.q.toNat ≤ (conf.readW 4).toNat := by decide +kernel

theorem witness_sclrSpushSget :
    staged.slen = staged.params.nmax ∧ (ring.slen < ring.params.nmax ∧ ring.stage.length = ring.params.nmax) ∧
    staged.slen ≤ (2 : Imm12).toNat ∧ (1 : Imm12).toNat < staged.slen := by decide +kernel

/-- A free slot, a slot the host has let go, a wrong length, a non-canonical entry, and a complete sequence; for
SnttSinttEffect and RfromcRfromnEffect. -/
theorem witness_stagedSequences :
    (staged.Inv ∧ (staged.cx.get 3).valid = false) ∧
    (released.Inv ∧ (released.cx.get 0).valid = true ∧ (released.cx.get 0).hostref = false) ∧
    (ring.Inv ∧ ((ring.cx.get 1).valid = true ∧ (ring.cx.get 1).hostref = true) ∧ ring.slen ≠ ring.degree 1) ∧
    (let s := (ring.pushStage 61).pushStage 97;
      s.Inv ∧ ((s.cx.get 1).valid = true ∧ (s.cx.get 1).hostref = true) ∧ s.slen = s.degree 1 ∧
      ¬∀ x ∈ s.stage.take (s.degree 1), x.toNat < s.cfg.q.toNat) ∧
    (staged.Inv ∧ ((staged.cx.get 1).valid = true ∧ (staged.cx.get 1).hostref = true) ∧ staged.slen = staged.degree 1 ∧
      ∀ x ∈ staged.stage.take (staged.degree 1), x.toNat < staged.cfg.q.toNat) :=
  ⟨⟨inv_staged, by decide +kernel⟩, ⟨inv_released, by decide +kernel⟩, ⟨inv_ring, by decide +kernel⟩,
    ⟨(inv_ring.pushStage 61 (by decide +kernel)).pushStage 97 (by decide +kernel), by decide +kernel,
      by decide +kernel, fun h => absurd (h 97 (by decide +kernel)) (by decide +kernel)⟩,
    ⟨inv_staged, by decide +kernel, by decide +kernel, forall_of_all (by decide +kernel)⟩⟩

/-- Each fault of CTXNEW at its boundary: a log-degree above LOGNMAX, root data of order 2^1, the last identity; and the largest
log-degree that both allow. -/
theorem witness_ctxnew :
    let short : State := { conf with cfg := { cfg97 with root := 96, s := 1 } }
    ring.params.legal = true ∧ blank.status.cfgv = false ∧
    (ring.status.cfgv = true ∧ cfgOk ring.cfg = true ∧ (ring.cx.get 1).valid = true ∧ (ring.cx.get 3).valid = false) ∧
    ring.params.lognmax < (2 : Imm12).toNat ∧
    (short.status.cfgv = true ∧ cfgOk short.cfg = true ∧ (short.cx.get 3).valid = false ∧
      short.cfg.s.toNat < (1 : Imm12).toNat + 1 ∧ (0 : Imm12).toNat + 1 ≤ short.cfg.s.toNat) ∧
    (BitVec.allOnes 64).toNat = 2 ^ 64 - 1 ∧ ring.nextCid.toNat ≠ 2 ^ 64 - 1 ∧
    (1 : Imm12).toNat ≤ ring.params.lognmax ∧ (1 : Imm12).toNat + 1 ≤ ring.cfg.s.toNat := by decide +kernel

theorem witness_ctxrel :
    (ring.cx.get 3).valid = false ∧ ((released.cx.get 0).valid = true ∧ (released.cx.get 0).hostref = false) ∧
    ((ring.cx.get 1).valid = true ∧ (ring.cx.get 1).hostref = true ∧ (ring.cx.get 1).refcnt ≠ 0) ∧
    ((ring.cx.get 2).valid = true ∧ (ring.cx.get 2).hostref = true ∧ (ring.cx.get 2).refcnt = 0) := by decide +kernel

/-- For RcopyEffect, RfreeEffect, RtonttRtocoefEffect, RaddRsubEffect, RmulEffect, RnegRscaleEffect, ReqEffect and
RgetcRgetnEffect: bound and unbound slots, in either state, on one context and on two; indices on both sides of the degree; a
canonical and a non-canonical scalar. -/
theorem witness_ringSlots :
    ring.Inv ∧ (ring.re.get 4).bound = false ∧
    ((ring.re.get 0).bound = true ∧ (ring.re.get 0).st = .coefficient) ∧
    ((ring.re.get 1).bound = true ∧ (ring.re.get 1).st = .ntt) ∧
    ((ring.re.get 2).bound = true ∧ (ring.re.get 2).cid = (ring.re.get 0).cid) ∧
    ((ring.re.get 3).bound = true ∧ (ring.re.get 3).cid ≠ (ring.re.get 0).cid) ∧
    ((1 : Imm12).toNat < ring.ringDegree 0 ∧ ring.ringDegree 0 ≤ (2 : Imm12).toNat) ∧
    ((1 : Imm12).toNat < ring.ringDegree 1 ∧ ring.ringDegree 1 ≤ (2 : Imm12).toNat) ∧
    ((ring.readW 3).toNat < ring.cfg.q.toNat ∧ ring.cfg.q.toNat ≤ (ring.readW 4).toNat) :=
  ⟨inv_ring, by decide +kernel⟩

/-- For RZERO and RONE: a context the host may not name, and one it may. -/
theorem witness_rzeroRone :
    ring.Inv ∧ (ring.cx.get 3).valid = false ∧ ((ring.cx.get 1).valid = true ∧ (ring.cx.get 1).hostref = true) :=
  ⟨inv_ring, by decide +kernel⟩

end Sys2Proof.Tests
end

section
/-! The reset state (spec 10 R57): what it holds, for all parameters and every draw of unspecified contents. -/
namespace Sys2Proof.Proofs
open Sys2Proof Sys2Proof.Machine

theorem resetWith_written (p : Params) (draw : Nat) (i : Idx) : (State.resetWith p draw).written.get i = 0 :=
  Bank.get_tabulate _ _

theorem resetWith_context_isFree (p : Params) (draw : Nat) (c : Idx) : ((State.resetWith p draw).cx.get c).IsFree := by
  rw [State.resetWith_cx]; exact Ctx.cleared_isFree _ _ _

theorem resetWith_ring_isUnbound (p : Params) (draw : Nat) (r : Idx) :
    ((State.resetWith p draw).re.get r).IsUnbound := by
  rw [State.resetWith_re]; exact Ring.cleared_isUnbound _ _ _

/-- The table of 10 R57; both resets of 70 R460 and R461 go through this state. -/
theorem atReset_resetWith (p : Params) (draw : Nat) : AtReset (State.resetWith p draw) where
  written := resetWith_written p draw
  flags := rfl
  cmdcount := rfl
  status := rfl
  irqen := rfl
  faultcmd := rfl
  faultseq := rfl
  cfg := rfl
  contexts := resetWith_context_isFree p draw
  nextCid := rfl
  rings := resetWith_ring_isUnbound p draw
  slen := rfl
  irq := rfl

/-- 10 R41: ID stands at offset 0 and is one constant in every state. -/
theorem readReg_id (s : State) (p : Params) : s.readReg (regAt p 0x000) = idWord := rfl

/-- 10 R42: PARAMS stands at offset 8 and packs the sizes of the implementation. -/
theorem readReg_params (s : State) (p : Params) : s.readReg (regAt p 0x008) = Params.word s.params := rfl

theorem default_params_word : Params.word Params.default = 0x08040810 := by decide

/-- Settles O17: the reset state is the reset with the default parameters, whose sizes PARAMS packs. -/
theorem resetValues : Obligations.ResetValues :=
  ⟨atReset_resetWith Params.default 0, readReg_id _ _, (readReg_params _ _).trans default_params_word⟩

end Sys2Proof.Proofs
end

section
/-! The MMIO aperture (spec 20): the map of its offsets, what one access of the host does in one step, and the statements on the
W window, bus errors, and reserved and read-only offsets. -/
namespace Sys2Proof.Proofs
open Sys2Proof Sys2Proof.Machine

/-! ## The address map (20 R81, R82, R85 to R87) -/

theorem inAperture_base_add (p : Params) {off : Nat} (h : off < 0x2000) : inAperture p (p.base + off) = true := by
  simp [inAperture, h]

theorem accessOk_iff (off width : Nat) : accessOk off width = true ↔ width = 8 ∧ off % 8 = 0 := by
  simp [accessOk]

/-- 20 R83: limb `k` of W[`i`] stands at one offset of the window. -/
theorem regAt_wlimb (p : Params) (i : Idx) {k : Nat} (hi : i.toNat < p.nw) (hk : k < 16) :
    regAt p (0x1000 + 0x80 * i.toNat + 8 * k) = .wlimb i k := by
  have hwindow : 0x1000 + 0x80 * i.toNat + 8 * k < 0x1000 + 0x80 * p.nw := by omega
  have hreg : (0x1000 + 0x80 * i.toNat + 8 * k - 0x1000) / 0x80 = i.toNat := by omega
  have hlimb : (0x1000 + 0x80 * i.toNat + 8 * k - 0x1000) % 0x80 / 8 = k := by omega
  have hi16 : i.toNat < 16 := i.isLt
  unfold regAt
  rw [hreg, hlimb, BitVec.ofNat_toNat, BitVec.setWidth_eq]
  repeat rw [if_neg (by omega)]
  rw [if_pos (by omega)]

/-- Every limb of the window can be accessed: it is inside the aperture and aligned. -/
theorem wlimb_offset_aligned (i : Idx) {k : Nat} (hk : k < 16) :
    0x1000 + 0x80 * i.toNat + 8 * k < 0x2000 ∧ (0x1000 + 0x80 * i.toNat + 8 * k) % 8 = 0 := by
  have hi16 : i.toNat < 16 := i.isLt
  omega

theorem wlimb_address (base i k : Nat) :
    base + 0x1000 + 0x80 * i + 8 * k = base + (0x1000 + 0x80 * i + 8 * k) := by omega

/-- The three reserved ranges of 20 R82 and R83. -/
theorem regAt_reserved (p : Params) {off : Nat}
    (h : 0x058 ≤ off ∧ off < 0x100 ∨ 0x300 ≤ off ∧ off < 0x1000 ∨ 0x1000 + 0x80 * p.nw ≤ off) :
    regAt p off = .reserved := by
  unfold regAt
  repeat rw [if_neg (by omega)]

/-- A host write leaves these registers and all else alone (20 R89). CMD is not among them: its write runs the engine. -/
def ignoresWrites : Reg → Bool
  | .ctrl | .status | .flags | .cmd | .wlimb _ _ => false
  | _ => true

theorem writeReg_of_ignoresWrites (s : State) (v : Limb) {r : Reg} (h : ignoresWrites r = true) : s.writeReg v r = s := by
  cases r with
  | ctrl | status | flags | cmd | wlimb => cases h
  | _ => rfl

theorem ne_cmd_of_ignoresWrites {r : Reg} (h : ignoresWrites r = true) : r ≠ .cmd := by
  rintro rfl; cases h

/-- The read-only registers stand at the offsets that 20 R82 gives them. -/
theorem ignoresWrites_regAt (p : Params) {off : Nat}
    (h : off = 0x000 ∨ off = 0x008 ∨ 0x030 ≤ off ∧ off ≤ 0x050 ∨ 0x100 ≤ off ∧ off < 0x300) :
    ignoresWrites (regAt p off) = true := by
  have hctrl : off ≠ 0x010 := by omega
  have hstatus : off ≠ 0x018 := by omega
  have hflags : off ≠ 0x020 := by omega
  have hcmd : off ≠ 0x028 := by omega
  have hwindow : ¬(0x1000 ≤ off ∧ off < 0x1000 + 0x80 * p.nw) := by omega
  simp only [regAt, hctrl, hstatus, hflags, hcmd, hwindow, if_false, apply_ite ignoresWrites]
  simp only [ignoresWrites, ite_self]

/-! ## One access is one step (20 R88, R92, R95, R96) -/

theorem step_of_host {s : State} {e : HostEvent} {rest : List HostEvent} (h : s.host = e :: rest) :
    step s = handle e { s with host := rest } := by
  simp [step, serve, h]

section
variable {s : State} {off width : Nat} {rest : List HostEvent}

/-- 20 R95: an aligned 64-bit read answers the register's value. -/
theorem step_read (hr : s.rstn = true) (hoff : off < 0x2000) (hal : off % 8 = 0)
    (hh : s.host = .read (s.params.base + off) 8 :: rest) :
    step s = .next ((State.noteRegRead { s with host := rest } (regAt s.params off)).answer
      (some ⟨false, some (s.readReg (regAt s.params off))⟩)) := by
  have hacc : accessOk off 8 = true := (accessOk_iff off 8).mpr ⟨rfl, hal⟩
  rw [step_of_host hh]
  simp only [handle, busRead, inAperture_base_add s.params hoff, Nat.add_sub_cancel_left, hr, hacc, Bool.true_eq_false, if_false]
  cases regAt s.params off <;> rfl

/-- 20 R96: an aligned 64-bit write to a register other than CMD has that register's effect. -/
theorem step_write {v : Limb} (hr : s.rstn = true) (hoff : off < 0x2000) (hal : off % 8 = 0)
    (hh : s.host = .write (s.params.base + off) 8 v :: rest) (hcmd : regAt s.params off ≠ .cmd) :
    step s = .next ((State.writeReg { s with host := rest } v (regAt s.params off)).answer (some ⟨false, none⟩)) := by
  have hacc : accessOk off 8 = true := (accessOk_iff off 8).mpr ⟨rfl, hal⟩
  rw [step_of_host hh]
  simp only [handle, busWrite, inAperture_base_add s.params hoff, Nat.add_sub_cancel_left, hr, hacc, Bool.true_eq_false, if_false]

/-- 20 R88: a misaligned or narrow read is a bus error that returns 0. -/
theorem step_read_busError (hr : s.rstn = true) (hoff : off < 0x2000) (hbad : ¬(width = 8 ∧ off % 8 = 0))
    (hh : s.host = .read (s.params.base + off) width :: rest) :
    step s = .next ((State.busError { s with host := rest }).answer (some ⟨true, some 0⟩)) := by
  have hacc : accessOk off width = false := Bool.eq_false_iff.mpr (mt (accessOk_iff off width).mp hbad)
  rw [step_of_host hh]
  simp only [handle, busRead, inAperture_base_add s.params hoff, Nat.add_sub_cancel_left, hr, hacc, Bool.true_eq_false, if_false,
    if_true]

/-- 20 R88: a misaligned or narrow write is a bus error, whatever register it names. -/
theorem step_write_busError {v : Limb} (hr : s.rstn = true) (hoff : off < 0x2000) (hbad : ¬(width = 8 ∧ off % 8 = 0))
    (hh : s.host = .write (s.params.base + off) width v :: rest) :
    step s = .next ((State.busError { s with host := rest }).answer (some ⟨true, none⟩)) := by
  have hacc : accessOk off width = false := Bool.eq_false_iff.mpr (mt (accessOk_iff off width).mp hbad)
  rw [step_of_host hh]
  simp only [handle, busWrite, inAperture_base_add s.params hoff, Nat.add_sub_cancel_left, hr, hacc, Bool.true_eq_false, if_false,
    if_true]

/-- 20 R89: a write to a read-only or reserved register is answered and ignored. -/
theorem step_write_ignored {v : Limb} (hr : s.rstn = true) (hoff : off < 0x2000) (hal : off % 8 = 0)
    (hh : s.host = .write (s.params.base + off) 8 v :: rest) (hro : ignoresWrites (regAt s.params off) = true) :
    step s = .next { s with host := rest, reply := some { error := false, data := none } } := by
  rw [step_write hr hoff hal hh (ne_cmd_of_ignoresWrites hro), writeReg_of_ignoresWrites _ _ hro]
  rfl

end

/-! ## The limbs of the W registers (10 R32, 20 R83) -/

theorem written_writeLimb_getLsbD (s : State) (i : Idx) (k : Nat) (v : Limb) {j : Nat} (hj : j < 16) :
    ((s.writeLimb i k v).written.get i).getLsbD j = ((s.written.get i).getLsbD j || decide (j = k)) := by
  have hbit : (1#16 <<< k).getLsbD j = decide (j = k) := by
    rw [Bool.eq_iff_iff, BitVec.getLsbD_shiftLeft, BitVec.getLsbD_one]
    simp only [Bool.and_eq_true, Bool.not_eq_true', decide_eq_true_eq, decide_eq_false_iff_not]
    omega
  rw [State.writeLimb_written, Bank.get_put_same, BitVec.getLsbD_or, hbit]

/-- The limb just written is read back, and counts as written. -/
theorem readLimb_writeLimb_same (s : State) (i : Idx) {k : Nat} (hk : k < 16) (v : Limb) :
    (s.writeLimb i k v).readLimb i k = v := by
  have hw : ((s.writeLimb i k v).written.get i).getLsbD k = true := by
    rw [written_writeLimb_getLsbD s i k v hk, decide_eq_true rfl, Bool.or_true]
  rw [State.readLimb, if_pos hw, State.writeLimb_w, Bank.get_put_same, limb_putLimb_same _ hk]

/-- The other limbs of the register read as before, written or not. -/
theorem readLimb_writeLimb_ne (s : State) (i : Idx) {j k : Nat} (hj : j < 16) (hjk : j ≠ k) (v : Limb) :
    (s.writeLimb i k v).readLimb i j = s.readLimb i j := by
  have hw : ((s.writeLimb i k v).written.get i).getLsbD j = (s.written.get i).getLsbD j := by
    rw [written_writeLimb_getLsbD s i k v hj, decide_eq_false hjk, Bool.or_false]
  rw [State.readLimb, hw, State.writeLimb_w, Bank.get_put_same, limb_putLimb_ne _ hj hjk, State.writeLimb_wDraw]
  rfl

/-- 10 R32: a limb that has been written reads as the stored bits. -/
theorem readLimb_of_written {s : State} {i : Idx} {k : Nat} (h : (s.written.get i).getLsbD k = true) :
    s.readLimb i k = (s.w.get i).extractLsb' (64 * k) 64 := if_pos h

/-- Settles O12: each limb of the window has its own offset, so an access there is one limb read or one limb write. -/
theorem wWindow : Obligations.WWindow := by
  refine ⟨?_, ?_, ?_⟩
  · intro s i k v rest hr hi hk hh
    have hreg := regAt_wlimb s.params i hi hk
    obtain ⟨hoff, hal⟩ := wlimb_offset_aligned i hk
    rw [wlimb_address] at hh
    have hstep := step_write hr hoff hal hh (by rw [hreg]; exact Reg.noConfusion)
    rw [hreg] at hstep
    refine ⟨_, hstep, ?_, ?_, ?_, ?_, rfl⟩
    · exact readLimb_writeLimb_same { s with host := rest } i hk v
    · exact Bank.get_put_same _ _ _
    · exact fun j hj hjk => readLimb_writeLimb_ne { s with host := rest } i hj hjk v
    · exact fun i' hne => ⟨Bank.get_put_ne _ _ hne, Bank.get_put_ne _ _ hne⟩
  · intro s i k rest hr hi hk hh
    have hreg := regAt_wlimb s.params i hi hk
    obtain ⟨hoff, hal⟩ := wlimb_offset_aligned i hk
    rw [wlimb_address] at hh
    refine ⟨readLimb_of_written, ?_⟩
    rw [step_read hr hoff hal hh, hreg]
    rfl
  · exact fun p off _ hoff _ => regAt_reserved p (.inr (.inr hoff))

/-- Settles O14: the access rules are checked before the register is looked at. -/
theorem busErrors : Obligations.BusErrors := fun _ _ _ _ _ hr hoff hbad =>
  ⟨fun hh => step_read_busError hr hoff hbad hh, fun hh => step_write_busError hr hoff hbad hh⟩

/-! ## The bits of a control register that a write looks at (20 R89, R96) -/

theorem getLsbD_and_of_mask (v : Limb) {mask : Limb} {k : Nat} (h : mask.getLsbD k = true) :
    (v &&& mask).getLsbD k = v.getLsbD k := by
  rw [BitVec.getLsbD_and, h, Bool.and_true]

/-- A CTRL write looks at SRST and IRQEN only. -/
theorem writeCtrl_mask (s : State) (v : Limb) : s.writeCtrl (v &&& 0x3) = s.writeCtrl v := by
  have hirqen : (v &&& 0x3).getLsbD 0 = v.getLsbD 0 := getLsbD_and_of_mask v (by decide)
  have hsrst : (v &&& 0x3).getLsbD 1 = v.getLsbD 1 := getLsbD_and_of_mask v (by decide)
  rw [State.writeCtrl, hirqen, hsrst, State.writeCtrl]

/-- A STATUS write looks at FAULT, DROP and BUSERR only. -/
theorem writeStatus_mask (s : State) (v : Limb) : s.writeStatus (v &&& 0x7) = s.writeStatus v := by
  have hfault : (v &&& 0x7).getLsbD 0 = v.getLsbD 0 := getLsbD_and_of_mask v (by decide)
  have hdrop : (v &&& 0x7).getLsbD 1 = v.getLsbD 1 := getLsbD_and_of_mask v (by decide)
  have hbuserr : (v &&& 0x7).getLsbD 2 = v.getLsbD 2 := getLsbD_and_of_mask v (by decide)
  rw [State.writeStatus, hfault, hdrop, hbuserr, State.writeStatus]

/-- A FLAGS write looks at the five flags only. -/
theorem flagsOfWord_mask (v : Limb) : Flags.ofWord (v &&& 0x1F) = Flags.ofWord v := by
  have hbit : ∀ k < 5, (v &&& 0x1F).getLsbD k = v.getLsbD k := fun k hk =>
    getLsbD_and_of_mask v (by revert k; decide)
  simp only [Flags.ofWord, hbit, Nat.reduceLT]

/-- Settles O15: the reserved ranges and the read-only registers of the address map take no write. -/
theorem reservedAndReadOnlyOffsets : Obligations.ReservedAndReadOnlyOffsets := by
  intro s off v rest hr hoff hal
  refine ⟨fun hres => ?_, fun hro hh => ?_, ?_, ?_, ?_⟩
  · have hreg := regAt_reserved s.params hres
    refine ⟨fun hh => ?_, fun hh => ?_⟩
    · rw [step_read hr hoff hal hh, hreg]
      rfl
    · exact step_write_ignored hr hoff hal hh (by rw [hreg]; rfl)
  · exact step_write_ignored hr hoff hal hh (ignoresWrites_regAt s.params hro)
  · exact (writeCtrl_mask s v).symm
  · exact (writeStatus_mask s v).symm
  · exact congrArg (fun f => { s with flags := f }) (flagsOfWord_mask v).symm

end Sys2Proof.Proofs
end

section
/-! The encoding (spec 30): what the decoder accepts, that each row of the opcode map makes the instruction whose word its fields
are, and the two ways a command word is illegal by its operation code or its must-be-zero bits. -/
namespace Sys2Proof.Proofs
open Sys2Proof Sys2Proof.Machine

/-! ## A word and its fields (30 R120, R121) -/

/-- The five fields cover the word: packing them again gives it back. -/
theorem pack_fieldsOf (w : BitVec 32) :
    pack (fieldsOf w).opc (fieldsOf w).d (fieldsOf w).a (fieldsOf w).b (fieldsOf w).imm = w := by
  simp only [pack, fieldsOf]
  rw [BitVec.extractLsb'_append_extractLsb'_eq_extractLsb' (by rfl), BitVec.extractLsb'_append_extractLsb'_eq_extractLsb' (by rfl),
    BitVec.extractLsb'_append_extractLsb'_eq_extractLsb' (by rfl), BitVec.extractLsb'_append_extractLsb'_eq_extractLsb' (by rfl)]
  exact BitVec.extractLsb'_eq_self

/-- A CMD value with a zero upper half is its lower half, extended (30 R120). -/
theorem zero_append_low {v : BitVec 64} (hv : v.extractLsb' 32 32 = 0) : (0 : BitVec 32) ++ v.extractLsb' 0 32 = v := by
  rw [← hv, BitVec.extractLsb'_append_extractLsb'_eq_extractLsb' (by rfl)]
  exact BitVec.extractLsb'_eq_self

/-- The operation code of a CMD value is bits 31 to 24 of the whole value. -/
theorem fieldsOf_low_opc (v : BitVec 64) : (fieldsOf (v.extractLsb' 0 32)).opc = v.extractLsb' 24 8 :=
  BitVec.extractLsb'_extractLsb'_of_le (by decide)

/-- The fields that a format uses, with 0 in all the others (30 R122). -/
def usedFields (f : Fields) : Format → Fields
  | .N => { f with d := 0, a := 0, b := 0, imm := 0 }
  | .D => { f with a := 0, b := 0, imm := 0 }
  | .A => { f with d := 0, b := 0, imm := 0 }
  | .DA => { f with b := 0, imm := 0 }
  | .AB => { f with d := 0, imm := 0 }
  | .DAB => { f with imm := 0 }
  | .DABE => { f with imm := f.e ++ 0#8 }
  | .DI => { f with a := 0, b := 0 }
  | .AI => { f with d := 0, b := 0 }
  | .DAI => { f with b := 0 }

/-- The immediate of a DABE word is E above eight must-be-zero bits (30 R121, R122). -/
theorem e_append_zero {f : Fields} (h : f.imm.extractLsb' 0 8 = 0) : f.e ++ 0#8 = f.imm := by
  have hlow : (0#8 : BitVec 8) = f.imm.extractLsb' 0 8 := h.symm
  rw [hlow, Fields.e, BitVec.extractLsb'_append_extractLsb'_eq_extractLsb' (by rfl)]
  exact BitVec.extractLsb'_eq_self

/-- A word whose must-be-zero bits are 0 is made of the fields its format uses (30 R122, R123). -/
theorem usedFields_of_unusedZero {fmt : Format} {f : Fields} (h : fmt.unusedZero f = true) : usedFields f fmt = f := by
  obtain ⟨opc, d, a, b, imm⟩ := f
  cases fmt
  case DABE => exact congrArg (Fields.mk opc d a b) (e_append_zero (of_decide_eq_true h))
  all_goals simp_all [Format.unusedZero, usedFields]

/-! ## The checks of the decoder, inverted (30 R129) -/

/-- An accepted row has passed its four checks. -/
theorem checks_of_row_decode_ok {r : Row} {p : Params} {f : Fields} {i : Instr} (h : r.decode p f = .ok i) :
    r.fmt.unusedZero f = true ∧ r.indicesOk p f = true ∧ r.make f = some i ∧ i.sameDestination = false := by
  unfold Row.decode at h
  split at h
  · cases h
  next hzero =>
    split at h
    · cases h
    next hidx =>
      split at h
      · cases h
      next j hmake =>
        split at h
        · cases h
        next hdest =>
          cases h
          exact ⟨eq_true_of_ne_false hzero, eq_true_of_ne_false hidx, hmake, eq_false_of_ne_true hdest⟩

section
variable {p : Params} {v : BitVec 64}

/-- 30 R120: a nonzero upper half stands for no instruction. -/
theorem decode_of_high_ne_zero (hv : v.extractLsb' 32 32 ≠ 0) : decode p v = .error .upperHalf :=
  if_pos hv

/-- 30 R127: an operation code outside the opcode map stands for no instruction. -/
theorem decode_of_no_row (hv : v.extractLsb' 32 32 = 0) (hr : rowOf (fieldsOf (v.extractLsb' 0 32)).opc = none) :
    decode p v = .error .reservedOpcode := by
  rw [decode, if_neg (not_not_intro hv)]
  simp only [hr]

/-- The row of the operation code decides about the fields. -/
theorem decode_of_row {r : Row} (hv : v.extractLsb' 32 32 = 0) (hr : rowOf (fieldsOf (v.extractLsb' 0 32)).opc = some r) :
    decode p v = r.decode p (fieldsOf (v.extractLsb' 0 32)) := by
  rw [decode, if_neg (not_not_intro hv)]
  simp only [hr]

/-- An accepted value has a zero upper half and a row that accepts its fields. -/
theorem row_of_decode_ok {i : Instr} (h : decode p v = .ok i) :
    v.extractLsb' 32 32 = 0 ∧ ∃ r, rowOf (fieldsOf (v.extractLsb' 0 32)).opc = some r ∧
      r.decode p (fieldsOf (v.extractLsb' 0 32)) = .ok i := by
  by_cases hv : v.extractLsb' 32 32 = 0
  · cases hr : rowOf (fieldsOf (v.extractLsb' 0 32)).opc with
    | none => cases (decode_of_no_row hv hr).symm.trans h
    | some r => exact ⟨hv, r, rfl, (decode_of_row hv hr).symm.trans h⟩
  · cases (decode_of_high_ne_zero hv).symm.trans h

end

theorem mem_opcodeMap_of_rowOf {opc : BitVec 8} {r : Row} (h : rowOf opc = some r) : r ∈ opcodeMap :=
  List.mem_of_find?_eq_some h

theorem opc_of_rowOf {opc : BitVec 8} {r : Row} (h : rowOf opc = some r) : r.opc = opc := by
  simpa using List.find?_some h

/-! ## The rows of the opcode map (30 R126) -/

/-- The row makes the instruction whose word its fields are, and checks what makes that instruction well-formed
(30 R121 to R124, R128). -/
def FaithfulRow (r : Row) : Prop :=
  ∀ (f : Fields) (i : Instr), r.fmt.unusedZero f = true → r.make f = some i →
    encode i = pack r.opc f.d f.a f.b f.imm ∧ ∀ p, i.wf p = (r.indicesOk p f && !i.sameDestination)

/-- Rows whose fields always make an instruction: it is enough to look at words made of the fields used. -/
theorem faithfulRow_of_make {r : Row} {mk : Fields → Instr} (hmake : r.make = fun f => some (mk f))
    (henc : ∀ f, encode (mk f) =
      pack r.opc (usedFields f r.fmt).d (usedFields f r.fmt).a (usedFields f r.fmt).b (usedFields f r.fmt).imm)
    (hwf : ∀ p f, (mk f).wf p = (r.indicesOk p f && !(mk f).sameDestination)) : FaithfulRow r := by
  intro f i hzero hi
  obtain rfl : mk f = i := by simpa [hmake] using hi
  have hword := henc f
  rw [usedFields_of_unusedZero hzero] at hword
  exact ⟨hword, fun p => hwf p f⟩

/-- A selector is named by one immediate only (30 R133). -/
theorem toImm_of_ofImm {imm : Imm12} {sel : CfgSel} (h : CfgSel.ofImm imm = some sel) : sel.toImm = imm := by
  unfold CfgSel.ofImm at h
  split at h <;> cases h <;> exact BitVec.eq_of_toNat_eq (by simp [*, CfgSel.toImm])

/-- CFGW and CFGR: fields with a good selector make an instruction (30 R133). -/
theorem faithfulRow_of_selector {r : Row} {mk : CfgSel → Fields → Instr}
    (hmake : r.make = fun f => (CfgSel.ofImm f.imm).map fun sel => mk sel f)
    (henc : ∀ sel f, encode (mk sel f) =
      pack r.opc (usedFields f r.fmt).d (usedFields f r.fmt).a (usedFields f r.fmt).b sel.toImm)
    (hwf : ∀ p sel f, (mk sel f).wf p = (r.indicesOk p f && !(mk sel f).sameDestination)) : FaithfulRow r := by
  intro f i hzero hi
  rw [hmake] at hi
  obtain ⟨sel, hsel, rfl⟩ := Option.map_eq_some_iff.mp hi
  have hword := henc sel f
  rw [usedFields_of_unusedZero hzero, toImm_of_ofImm hsel] at hword
  exact ⟨hword, fun p => hwf p sel f⟩

/-- Every row of the opcode map is faithful; CFGW and CFGR are the two whose fields may make no instruction. -/
theorem faithfulRow_of_mem : ∀ r ∈ opcodeMap, FaithfulRow r := by
  simp only [opcodeMap, rowsLow, rowsField, rowsNtt, rowsRing, List.cons_append, List.nil_append, List.forall_mem_cons,
    List.not_mem_nil, false_implies, implies_true, and_true]
  refine ⟨?_, ?cfgw, ?cfgr, ?_⟩
  case cfgw | cfgr =>
    refine faithfulRow_of_selector rfl (fun _ _ => rfl) fun p _ f => ?_
    simp [Instr.wf, Row.indicesOk, Params.fieldOk, Instr.sameDestination]
  all_goals and_intros
  all_goals
    refine faithfulRow_of_make rfl (fun _ => rfl) fun p f => ?_
    simp [Instr.wf, Row.indicesOk, Params.fieldOk, Instr.sameDestination]

/-- 30 R123: an accepted value decodes to a well-formed instruction, and is that instruction's CMD value. -/
theorem wf_and_eq_cmdValue_of_decode_ok {p : Params} {v : BitVec 64} {i : Instr} (h : decode p v = .ok i) :
    i.wf p = true ∧ v = i.cmdValue := by
  obtain ⟨hv, r, hr, hdec⟩ := row_of_decode_ok h
  obtain ⟨hzero, hidx, hmake, hdest⟩ := checks_of_row_decode_ok hdec
  obtain ⟨henc, hwf⟩ := faithfulRow_of_mem r (mem_opcodeMap_of_rowOf hr) _ i hzero hmake
  rw [opc_of_rowOf hr, pack_fieldsOf] at henc
  exact ⟨by simp [hwf, hidx, hdest], by rw [Instr.cmdValue, henc, zero_append_low hv]⟩

/-! ## Values that decode to nothing (30 R123, R127; 44 R400; 60 R411, R412) -/

/-- While FAULT = 0, a value that decodes to nothing is recorded as ILLEGAL_COMMAND. -/
theorem executeCommand_of_decode_error {s : State} {v : BitVec 64} {e : DecodeError} (hf : s.status.fault = false)
    (he : decode s.params v = .error e) : executeCommand v s = .next (s.recordFault .illegalCommand v) := by
  simp [executeCommand, hf, he, illegalCommand]

/-- 30 R123: a set must-be-zero bit of the row's format is the first thing its checks refuse. -/
theorem decode_of_mustBeZero (p : Params) {f : Fields} {r : Row} (hr : rowOf f.opc = some r)
    (hz : r.fmt.unusedZero f = false) :
    decode p ((0 : BitVec 32) ++ pack f.opc f.d f.a f.b f.imm) = .error .mustBeZero := by
  have hhigh : ((0 : BitVec 32) ++ pack f.opc f.d f.a f.b f.imm).extractLsb' 32 32 = 0 := BitVec.extractLsb'_append_eq_left
  have hfields : fieldsOf (((0 : BitVec 32) ++ pack f.opc f.d f.a f.b f.imm).extractLsb' 0 32) = f := by
    rw [BitVec.extractLsb'_append_eq_right, fieldsOf_pack]
  rw [decode_of_row hhigh (by rwa [hfields]), hfields, Row.decode, if_pos hz]

/-- The operation codes of the opcode map lie between the reserved ranges (30 R126, R127). -/
theorem opc_mem_ranges : ∀ r ∈ opcodeMap,
    r.opc.toNat ≤ 0x04 ∨ 0x10 ≤ r.opc.toNat ∧ r.opc.toNat ≤ 0x16 ∨ 0x20 ≤ r.opc.toNat ∧ r.opc.toNat ≤ 0x28 ∨
      0x30 ≤ r.opc.toNat ∧ r.opc.toNat ≤ 0x34 ∨ 0x38 ≤ r.opc.toNat ∧ r.opc.toNat ≤ 0x39 ∨
      0x40 ≤ r.opc.toNat ∧ r.opc.toNat ≤ 0x4F := by
  decide

/-- 30 R127: no row of the opcode map has a reserved operation code. -/
theorem rowOf_eq_none_of_reserved {opc : BitVec 8}
    (h : 0x05 ≤ opc.toNat ∧ opc.toNat ≤ 0x0F ∨ 0x17 ≤ opc.toNat ∧ opc.toNat ≤ 0x1F ∨ 0x29 ≤ opc.toNat ∧ opc.toNat ≤ 0x2F ∨
      0x35 ≤ opc.toNat ∧ opc.toNat ≤ 0x37 ∨ 0x3A ≤ opc.toNat ∧ opc.toNat ≤ 0x3F ∨
      0x50 ≤ opc.toNat ∧ opc.toNat ≤ 0xFF) : rowOf opc = none := by
  refine Option.eq_none_iff_forall_ne_some.mpr fun r hr => ?_
  have hrange := opc_mem_ranges r (mem_opcodeMap_of_rowOf hr)
  rw [opc_of_rowOf hr] at hrange
  omega

/-- A value whose operation code has no row is refused, for its upper half or for its code (30 R129). -/
theorem decode_error_of_no_row (p : Params) {v : BitVec 64} (hr : rowOf (v.extractLsb' 24 8) = none) :
    ∃ e, decode p v = .error e := by
  rw [← fieldsOf_low_opc] at hr
  by_cases hv : v.extractLsb' 32 32 = 0
  · exact ⟨_, decode_of_no_row hv hr⟩
  · exact ⟨_, decode_of_high_ne_zero hv⟩

/-- Settles O2: the rows of the opcode map are faithful, and their first check is that of the must-be-zero bits. -/
theorem acceptedWordsAreUnique : Obligations.AcceptedWordsAreUnique :=
  ⟨fun _ _ _ h => wf_and_eq_cmdValue_of_decode_ok h,
    fun s _ _ hf hr hz => executeCommand_of_decode_error hf (decode_of_mustBeZero s.params hr hz)⟩

/-- Settles O3: a reserved operation code has no row, so the value decodes to nothing. -/
theorem reservedOpcodesFault : Obligations.ReservedOpcodesFault := by
  intro s v hf op hop
  obtain ⟨e, he⟩ := decode_error_of_no_row s.params (rowOf_eq_none_of_reserved hop)
  exact executeCommand_of_decode_error hf he

end Sys2Proof.Proofs
end

section
/-! The BigInt commands (spec 40 R163 to R169): the limbs of a sum and of a difference, the state each command answers, and what
that state holds. -/
namespace Sys2Proof.Proofs
open Sys2Proof Sys2Proof.Machine

/-! ## The limb chains of the adder and the subtractor (40 R161, R162) -/

/-- Dropping the multiples of 2^w from a number does not change its digits below 2^w. -/
theorem emod_ediv_emod_two_pow (x : Int) {m n w : Nat} (h : m + n ≤ w) :
    x % 2 ^ w / 2 ^ m % 2 ^ n = x / 2 ^ m % 2 ^ n := by
  obtain ⟨d, rfl⟩ := Nat.exists_eq_add_of_le h
  have hm : (2 : Int) ^ m ≠ 0 := by positivity
  have hx : x / 2 ^ m = x % 2 ^ (m + n + d) / 2 ^ m + 2 ^ n * (2 ^ d * (x / 2 ^ (m + n + d))) := by
    conv_lhs => rw [← Int.emod_add_mul_ediv x (2 ^ (m + n + d))]
    rw [← Int.add_mul_ediv_left _ _ hm]
    congr 2
    ring
  rw [hx, Int.add_mul_emod_self_left]

/-- A field of bits of an integer modulo 2^w, also of a negative one. -/
theorem extractLsb'_ofInt (x : Int) {m n w : Nat} (h : m + n ≤ w) :
    (BitVec.ofInt w x).extractLsb' m n = BitVec.ofInt n (x / 2 ^ m) := by
  have hpos : ∀ (y : Int) (j : Nat), 0 ≤ y % 2 ^ j := fun y j => Int.emod_nonneg _ (by positivity)
  apply BitVec.eq_of_toNat_eq
  apply Int.ofNat_inj.mp
  rw [BitVec.extractLsb'_toNat, Nat.shiftRight_eq_div_pow, BitVec.toNat_ofInt, BitVec.toNat_ofInt]
  push_cast
  rw [Int.toNat_of_nonneg (hpos _ _), Int.toNat_of_nonneg (hpos _ _), emod_ediv_emod_two_pow x h]

/-- The limbs of an integer modulo 2^1024 are its digits in base 2^64 (00 R12). -/
theorem limb_ofInt (x : Int) {k : Nat} (hk : k < 16) :
    limb (BitVec.ofInt 1024 x) k = BitVec.ofInt 64 (x / 2 ^ (64 * k)) :=
  extractLsb'_ofInt x (by omega)

/-- Words of integers that agree modulo the size of a word are equal. -/
theorem ofInt_congr {n : Nat} {x y : Int} (h : x % 2 ^ n = y % 2 ^ n) : BitVec.ofInt n x = BitVec.ofInt n y := by
  apply BitVec.eq_of_toNat_eq
  rw [BitVec.toNat_ofInt, BitVec.toNat_ofInt]
  push_cast
  rw [h]

/-- The high digits of a sum: those of the summands, and what their low digits carry over. -/
theorem add_ediv_eq (x y : Int) {P : Int} (hP : P ≠ 0) : (x + y) / P = x / P + y / P + (x % P + y % P) / P := by
  have hxy : x + y = x % P + y % P + P * (x / P + y / P) := by
    linear_combination -Int.emod_add_mul_ediv x P - Int.emod_add_mul_ediv y P
  rw [hxy, Int.add_mul_ediv_left _ _ hP]
  ring

/-- The high digits of a difference: those of the operands, and what their low digits borrow. -/
theorem sub_ediv_eq (x y : Int) {P : Int} (hP : P ≠ 0) : (x - y) / P = x / P - y / P + (x % P - y % P) / P := by
  have hxy : x - y = x % P - y % P + P * (x / P - y / P) := by
    linear_combination -Int.emod_add_mul_ediv x P + Int.emod_add_mul_ediv y P
  rw [hxy, Int.add_mul_ediv_left _ _ hP]
  ring

/-- What the low digits of a difference borrow: one unit of P if those of `x` are below those of `y`. -/
theorem emod_sub_emod_ediv (x y : Int) {P : Int} (hP : 0 < P) :
    (x % P - y % P) / P = if x % P < y % P then -1 else 0 := by
  have hx := Int.emod_nonneg x hP.ne'
  have hy := Int.emod_nonneg y hP.ne'
  have hx' := Int.emod_lt_of_pos x hP
  have hy' := Int.emod_lt_of_pos y hP
  split
  · rw [Int.ediv_eq_iff_of_pos hP]; omega
  · exact Int.ediv_eq_zero_of_lt (by omega) (by omega)

/-- Limb `k` as a digit of an integer. -/
theorem limbNat_cast (v : Word) (k : Nat) : (limbNat v k : Int) = (v.toNat : Int) / 2 ^ (64 * k) % 2 ^ 64 := by
  rw [limbNat_eq]; push_cast; rfl

/-- 40 R161: the sum has the limbs of the carry chain. -/
theorem limb_carryingAdd (a b : Word) {k : Nat} (hk : k < 16) : limb (carryingAdd a b).1 k = sumLimb a b k := by
  have hsum : (carryingAdd a b).1 = BitVec.ofInt 1024 (a.toNat + b.toNat) := by
    simp [carryingAdd, BitVec.ofInt_add]
  have hcarry : (carryAt a b k : Int) =
      ((a.toNat : Int) % 2 ^ (64 * k) + (b.toNat : Int) % 2 ^ (64 * k)) / 2 ^ (64 * k) := by
    rw [carryAt_eq]; push_cast; rfl
  rw [hsum, limb_ofInt _ hk, add_ediv_eq _ _ (by positivity), ← hcarry, sumLimb, ← BitVec.ofInt_natCast]
  apply ofInt_congr
  push_cast
  rw [limbNat_cast, limbNat_cast]
  omega

/-- 40 R162: the difference has the limbs of the borrow chain. -/
theorem limb_borrowingSub (a b : Word) {k : Nat} (hk : k < 16) : limb (borrowingSub a b).1 k = diffLimb a b k := by
  have hdiff : (borrowingSub a b).1 = BitVec.ofInt 1024 (a.toNat - b.toNat) := by
    simp [borrowingSub, Int.sub_eq_add_neg, BitVec.ofInt_add, BitVec.ofInt_neg, BitVec.sub_eq_add_neg]
  have hborrow : ((a.toNat : Int) % 2 ^ (64 * k) - (b.toNat : Int) % 2 ^ (64 * k)) / 2 ^ (64 * k) = -(borrowAt a b k : Int) := by
    rw [emod_sub_emod_ediv _ _ (by positivity), borrowAt_eq]
    norm_cast
    split <;> rfl
  rw [hdiff, limb_ofInt _ hk, sub_ediv_eq _ _ (by positivity), hborrow, diffLimb, diffAt]
  apply ofInt_congr
  rw [limbNat_cast, limbNat_cast]
  omega

/-- The lowest sixteen limbs are the whole word. -/
theorem toNat_mod_sixteen_limbs (v : Word) : v.toNat % 2 ^ (64 * 16) = v.toNat := Nat.mod_eq_of_lt v.isLt

/-- 40 R161: the carry of the whole sum is the one out of limb 15. -/
theorem carryingAdd_carry (a b : Word) : (carryingAdd a b).2 = decide (carryAt a b 16 = 1) := by
  have ha := word_lt_radix a
  have hb := word_lt_radix b
  have hcarry : carryAt a b 16 = 1 ↔ radix ≤ a.toNat + b.toNat := by
    rw [carryAt_eq, toNat_mod_sixteen_limbs, toNat_mod_sixteen_limbs, ← radix, Nat.div_eq_iff radix_pos]
    omega
  simp [carryingAdd, hcarry]

/-- 40 R162: the borrow of the whole difference is the one out of limb 15. -/
theorem borrowingSub_borrow (a b : Word) : (borrowingSub a b).2 = decide (borrowAt a b 16 = 1) := by
  rw [borrowAt_eq, toNat_mod_sixteen_limbs, toNat_mod_sixteen_limbs]
  simp [borrowingSub]

/-! ## What the commands answer (40 R163 to R169; 44 R400) -/

/-- A command without fault conditions has its effect, and counts. -/
theorem command_unchecked (i : Instr) (rs : List Idx) (eff : State → State) (s : State) :
    command i [] rs [] eff s = .next (eff (s.noteReads rs)).complete :=
  command_ok rfl rfl

theorem exec_wadd (s : State) (wd wa wb : Idx) : exec (.wadd wd wa wb) s =
    .next (((s.noteReads [wa, wb]).writeW wd (carryingAdd (s.readW wa) (s.readW wb)).1).setCF
      (carryingAdd (s.readW wa) (s.readW wb)).2).complete :=
  show execWadd wd wa wb s = _ from command_unchecked _ _ _ _

theorem exec_wsub (s : State) (wd wa wb : Idx) : exec (.wsub wd wa wb) s =
    .next (((s.noteReads [wa, wb]).writeW wd (borrowingSub (s.readW wa) (s.readW wb)).1).setCF
      (borrowingSub (s.readW wa) (s.readW wb)).2).complete :=
  show execWsub wd wa wb s = _ from command_unchecked _ _ _ _

theorem exec_wcmp (s : State) (wa wb : Idx) : exec (.wcmp wa wb) s =
    .next ((s.noteReads [wa, wb]).setCompare (s.readW wa) (s.readW wb)).complete :=
  show execWcmp wa wb s = _ from command_unchecked _ _ _ _

theorem exec_wsel (s : State) (wd wa wb : Idx) : exec (.wsel wd wa wb) s =
    .next ((s.noteReads [wa, wb]).writeW wd (selectWord s.flags.cf (s.readW wa) (s.readW wb))).complete :=
  show execWsel wd wa wb s = _ from command_unchecked _ _ _ _

theorem exec_wmul (s : State) (wlo wa wb whi : Idx) : exec (.wmul wlo wa wb whi) s =
    .next (((s.noteReads [wa, wb]).writeW wlo (BitVec.ofNat 1024 (wideProduct (s.readW wa) (s.readW wb)))).writeW whi
      (BitVec.ofNat 1024 (wideProduct (s.readW wa) (s.readW wb) / radix))).complete :=
  show execWmul wlo wa wb whi s = _ from command_unchecked _ _ _ _

theorem exec_wli (s : State) (wd : Idx) (imm : Imm12) : exec (.wli wd imm) s =
    .next ((s.noteReads []).writeW wd (imm.setWidth 1024)).complete :=
  show execWli wd imm s = _ from command_unchecked _ _ _ _

theorem exec_wmov (s : State) (wd wa : Idx) : exec (.wmov wd wa) s =
    .next ((s.noteReads [wa]).writeW wd (s.readW wa)).complete :=
  show execWmov wd wa s = _ from command_unchecked _ _ _ _

/-! ## Frames -/

/-- The frame of a command with one destination register and a carry or borrow. -/
theorem writesW_one_setCF (s : State) (rs : List Idx) (d : Idx) (v : Word) (b : Bool) :
    WritesW s (((s.noteReads rs).writeW d v).setCF b).complete [d] rs { s.flags with cf := b } :=
  writesW_one s rs d v _

/-- One more register written adds a destination to the frame. -/
theorem writesW_writeW {s t : State} {ds rs : List Idx} {fl : Flags} (h : WritesW s t ds rs fl) (d : Idx) (v : Word) :
    WritesW s (t.writeW d v) (ds ++ [d]) rs fl where
  dests := by
    intro d' hd
    rw [State.writeW_isWritten]
    rcases List.mem_append.mp hd with hold | hnew
    · simp [h.dests d' hold]
    · simp [List.mem_singleton.mp hnew]
  others := by
    intro i hi
    have hne : i ≠ d := fun e => hi (by simp [e])
    have hold := h.others i fun hm => hi (List.mem_append_left _ hm)
    rw [State.writeW_w, State.writeW_written, Bank.get_put_ne _ _ hne, Bank.get_put_ne _ _ hne]
    exact hold
  frame := congrArg (fun u : State => u.writeW d v) h.frame

/-! ## WADD, WSUB, WCMP and WSEL -/

/-- Settles O37: the words written are the sum and the difference, whose limbs and last carry or borrow are those of the chains. -/
theorem waddWsubEffect : Obligations.WaddWsubEffect := by
  intro s wd wa wb
  refine ⟨fieldsOf_pack _ _ _ _ _, fieldsOf_pack _ _ _ _ _, ⟨_, exec_wadd s wd wa wb, ?_, fun k hk => ?_⟩,
    ⟨_, exec_wsub s wd wa wb, ?_, fun k hk => ?_⟩⟩
  · rw [← carryingAdd_carry]
    exact writesW_one_setCF _ _ _ _ _
  · simp [limb_carryingAdd _ _ hk]
  · rw [← borrowingSub_borrow]
    exact writesW_one_setCF _ _ _ _ _
  · simp [limb_borrowingSub _ _ hk]

/-- Of two words exactly one of the three comparisons holds. -/
theorem one_comparison_holds (a b : Word) :
    (decide (a.toNat < b.toNat)).toNat + (decide (a = b)).toNat + (decide (b.toNat < a.toNat)).toNat = 1 := by
  rcases Nat.lt_trichotomy a.toNat b.toNat with h | h | h
  · simp [← BitVec.toNat_inj, h, h.ne, h.le]
  · simp [← BitVec.toNat_inj, h]
  · simp [← BitVec.toNat_inj, h, h.ne', h.le]

/-- Settles O38: the flags are the three comparisons, of which exactly one holds. -/
theorem wcmpEffect : Obligations.WcmpEffect := by
  intro s wa wb
  refine ⟨fieldsOf_pack _ _ _ _ _, _, exec_wcmp s wa wb, ?lt, ?eq, ?gt, one_comparison_holds _ _, rfl⟩
  case lt | gt => exact decide_eq_true_iff
  case eq => exact decide_eq_true_iff.trans BitVec.toNat_inj.symm

/-- Settles O39: the masked select is the choice that CF makes between the operands. -/
theorem wselEffect : Obligations.WselEffect := by
  intro s wd wa wb
  exact ⟨fieldsOf_pack _ _ _ _ _, _, exec_wsel s wd wa wb, writesW_one_same _ _ _ _, by simp [selectWord_eq]⟩

/-! ## WMUL -/

/-- The two halves make up the product (40 R167). -/
theorem wideProduct_halves (a b : Word) :
    (BitVec.ofNat 1024 (wideProduct a b)).toNat + radix * (BitVec.ofNat 1024 (wideProduct a b / radix)).toNat =
      a.toNat * b.toNat := by
  have hhigh : wideProduct a b / radix < radix :=
    Nat.div_lt_of_lt_mul (Nat.mul_lt_mul'' (word_lt_radix a) (word_lt_radix b))
  rw [BitVec.toNat_ofNat, BitVec.toNat_ofNat, ← radix, Nat.mod_eq_of_lt hhigh, Nat.mod_add_div, wideProduct]

/-- 30 R128: the word of an instruction whose two destinations are one register is refused. -/
theorem decode_error_of_sameDestination (p : Params) {i : Instr} (hi : Laws.FieldsRoundTrip.Statement i)
    (hd : i.sameDestination = true) : ∃ e, decode p i.cmdValue = .error e := by
  obtain ⟨r, hr, _, hmake⟩ := hi
  cases hdec : decode p i.cmdValue with
  | error e => exact ⟨e, rfl⟩
  | ok j =>
    rw [decode_cmdValue p i hr] at hdec
    obtain ⟨_, _, hmake', hdest⟩ := checks_of_row_decode_ok hdec
    obtain rfl : i = j := Option.some.inj (hmake.symm.trans hmake')
    simp [hd] at hdest

/-- Settles O40: with distinct destinations both halves of the product are read back; a word with one destination passes not all
checks of its row. -/
theorem wmulEffect : Obligations.WmulEffect := by
  intro s wlo wa wb whi
  refine ⟨fieldsOf_pack _ _ _ _ _, fun hne => ⟨_, exec_wmul s wlo wa wb whi, ?frame, ?product⟩, fun p => ?refused⟩
  case frame => exact writesW_writeW (writesW_one_same s [wa, wb] wlo _) whi _
  case product =>
    rw [State.complete_readW, State.complete_readW, State.readW_writeW_same, State.readW_writeW_ne _ hne,
      State.readW_writeW_same]
    exact wideProduct_halves _ _
  case refused =>
    exact decode_error_of_sameDestination p (Laws.FieldsRoundTrip.wmul wlo wa wb wlo) (decide_eq_true rfl)

/-! ## WLI and WMOV -/

/-- Settles O41: the values written are the extended immediate and the operand. -/
theorem wliWmovEffect : Obligations.WliWmovEffect := by
  intro s wd wa imm
  refine ⟨fieldsOf_pack _ _ _ _ _, fieldsOf_pack _ _ _ _ _, ⟨_, exec_wli s wd imm, writesW_one_same _ _ _ _, ?_⟩,
    ⟨_, exec_wmov s wd wa, writesW_one_same _ _ _ _, ?_⟩⟩
  · rw [State.complete_readW, State.readW_writeW_same]
    exact BitVec.toNat_setWidth_of_le (by decide)
  · simp

end Sys2Proof.Proofs
end

section
/-! The fault clauses of an instruction statement (spec 60 R412 to R414), and the field configuration (41 R206 to R210): what
the legality check says, and what CFGW, CFGR, CFGCOMMIT and CFGINV answer. -/
namespace Sys2Proof.Proofs
open Sys2Proof Sys2Proof.Machine

/-! ## Which command faults, and with what record (60 R412, R413) -/

section
variable {i : Instr} {s : State} {pre post : List Check} {rs : List Idx} {eff : State → State} {code : ErrCode}

/-- A condition met before the reads: the fault is recorded, and no operand has been read. -/
theorem faults_of_pre (hi : exec i s = command i pre rs post eff s) (hpre : firstFault pre = some code) :
    Faults i s code [] := by
  show exec i s = .next ((s.noteReads []).recordFault code i.cmdValue)
  rw [State.noteReads_nil, hi, command_pre_fault hpre]

/-- A condition met on what was read: the fault is recorded, and so are the reads of unwritten operands (93 I1; log 15). -/
theorem faults_of_post (hi : exec i s = command i pre rs post eff s) (hpre : firstFault pre = none)
    (hpost : firstFault post = some code) : Faults i s code rs :=
  hi.trans (command_post_fault hpre hpost)

end

theorem firstFault_of_met {b : Bool} (h : b = true) (code : ErrCode) : firstFault [⟨b, code⟩] = some code := if_pos h

theorem firstFault_of_not_met {b : Bool} (h : b = false) (code : ErrCode) : firstFault [⟨b, code⟩] = none :=
  if_neg (ne_true_of_eq_false h)

/-! ## The legality check (41 R206) -/

/-- Settles O30: the check of ROOT squares S − 1 times, which gives the power 2^(S−1); the other conditions stand as written. -/
theorem cfgOkIsTheConjunction : Obligations.CfgOkIsTheConjunction := by
  intro c
  have hroot := squareTimes_eq c.q.toNat c.root.toNat (c.s.toNat - 1)
  simp only [cfgOk, hroot, Bool.and_eq_true, decide_eq_true_eq, and_assoc]

/-! ## CFGW and CFGR (41 R207, R208) -/

/-- The configuration registers after one of them is replaced. -/
theorem get_put_cfg (c : FieldCfg) (sel sel' : CfgSel) (v : Word) :
    (c.put sel v).get sel' = if sel' = sel then v else c.get sel' := by
  cases sel <;> cases sel' <;> rfl

theorem exec_cfgw (s : State) (sel : CfgSel) (wa : Idx) : exec (.cfgw sel wa) s =
    command (.cfgw sel wa) [⟨s.status.cfgv, .resourceBusy⟩] [wa] []
      (fun t => { t with cfg := t.cfg.put sel (t.readW wa) }) s := rfl

theorem exec_cfgr (s : State) (wd : Idx) (sel : CfgSel) : exec (.cfgr wd sel) s =
    .next ((s.noteReads []).writeW wd (s.cfg.get sel)).complete :=
  show execCfgr wd sel s = _ from command_unchecked _ _ _ _

/-- CFGW with CFGV = 0: the selected register takes the operand. -/
theorem exec_cfgw_of_uncommitted {s : State} (h : s.status.cfgv = false) (sel : CfgSel) (wa : Idx) :
    exec (.cfgw sel wa) s = .next (State.complete { s.noteReads [wa] with cfg := s.cfg.put sel (s.readW wa) }) := by
  rw [exec_cfgw, command_ok (firstFault_of_not_met h _) rfl]
  rfl

/-- Settles O35: CFGW puts the operand into the selected register of an uncommitted configuration, CFGR gets it from there. -/
theorem cfgwCfgrEffect : Obligations.CfgwCfgrEffect := by
  intro s sel x
  refine ⟨fieldsOf_pack _ _ _ _ _, fieldsOf_pack _ _ _ _ _, ⟨rfl, rfl, rfl, rfl, rfl, rfl⟩, ⟨rfl, rfl, rfl, rfl, rfl, rfl⟩,
    fun h => ?busy, fun h => ⟨_, exec_cfgw_of_uncommitted h sel x, ?selected, fun sel' hne => ?others, rfl⟩,
    ⟨_, exec_cfgr s x sel, writesW_one_same _ _ _ _, ?read⟩⟩
  case busy => exact faults_of_pre (exec_cfgw s sel x) (firstFault_of_met h _)
  case selected => exact (get_put_cfg _ _ _ _).trans (if_pos rfl)
  case others => exact (get_put_cfg _ _ _ _).trans (if_neg hne)
  case read => rw [State.complete_readW, State.readW_writeW_same]

/-! ## CFGCOMMIT and CFGINV (41 R209, R210) -/

theorem exec_cfgcommit (s : State) : exec .cfgcommit s =
    command .cfgcommit [⟨!s.status.cfgv && !cfgOk s.cfg, .configInvalid⟩] [] []
      (fun t => { t with status := { t.status with cfgv := true } }) s := rfl

theorem exec_cfginv (s : State) : exec .cfginv s =
    command .cfginv [⟨s.anyCtxValid, .resourceBusy⟩] [] []
      (fun t => { t with status := { t.status with cfgv := false } }) s := rfl

/-- CFGCOMMIT completes on a committed configuration and on a legal one, and leaves CFGV at 1. -/
theorem exec_cfgcommit_ok {s : State} (h : s.status.cfgv = true ∨ cfgOk s.cfg = true) : exec .cfgcommit s =
    .next { s with status := { s.status with cfgv := true }, cmdcount := s.cmdcount + 1 } := by
  have hpass : (!s.status.cfgv && !cfgOk s.cfg) = false := by
    rcases h with h | h <;> simp [h]
  rw [exec_cfgcommit, command_ok (firstFault_of_not_met hpass _) rfl, State.noteReads_nil]
  rfl

/-- The model's search over the context slots finds a valid one if there is one. -/
theorem anyCtxValid_iff (s : State) : s.anyCtxValid = true ↔ ∃ c : Idx, (s.cx.get c).valid = true := by
  constructor
  · intro h
    obtain ⟨c, -, hc⟩ := List.any_eq_true.mp h
    exact ⟨_, hc⟩
  · rintro ⟨c, hc⟩
    refine eq_true_of_ne_false fun hnone => ?_
    rw [State.anyCtxValid_eq_false hnone c] at hc
    cases hc

/-- Settles O36: each of the two commands has one condition, on CFGV and the legality check, or on the valid contexts. -/
theorem cfgcommitCfginvEffect : Obligations.CfgcommitCfginvEffect := by
  intro s
  refine ⟨by decide, by decide, fun h => ?again, fun _ hok => exec_cfgcommit_ok (.inr hok), fun h hok => ?illegal,
    fun hvalid => ?busy, fun hfree => ?uncommit⟩
  case again =>
    have hstatus : { s.status with cfgv := true } = s.status := by rw [← h]
    rw [exec_cfgcommit_ok (.inl h), hstatus]
  case illegal => exact faults_of_pre (exec_cfgcommit s) (firstFault_of_met (by rw [h, hok]; rfl) _)
  case busy => exact faults_of_pre (exec_cfginv s) (firstFault_of_met ((anyCtxValid_iff s).mpr hvalid) _)
  case uncommit =>
    have hnone : s.anyCtxValid = false := by
      refine eq_false_of_ne_true fun hany => ?_
      obtain ⟨c, hc⟩ := (anyCtxValid_iff s).mp hany
      rw [hfree c] at hc
      cases hc
    rw [exec_cfginv, command_ok (firstFault_of_not_met hnone _) rfl, State.noteReads_nil]
    rfl

end Sys2Proof.Proofs
end

section
/-! The field commands (spec 41 R214 to R222): the natural numbers that the Montgomery datapath computes, the two conditions
that all field commands share (41 R211), and the command statements. -/
namespace Sys2Proof.Proofs
open Sys2Proof Sys2Proof.Machine

/-! ## Results of the datapath as natural numbers (41 R214, R215, R217, R218) -/

/-- A canonical word is the remainder of any number with its residue. -/
theorem toNat_of_val {c : FieldCfg} {x : Word} {n : Nat} (hx : x.toNat < c.q.toNat) (h : val c x = (n : ZMod c.q.toNat)) :
    x.toNat = n % c.q.toNat := by
  rw [← Nat.mod_eq_of_lt hx]
  exact (ZMod.natCast_eq_natCast_iff' _ _ _).mp h

theorem fenc_toNat {c : FieldCfg} (h : cfgOk c = true) (x : Word) : (fenc c x).toNat = x.toNat * radix % c.q.toNat :=
  toNat_of_val (fenc_lt h x) (by rw [val_fenc h, Nat.cast_mul])

theorem fdec_toNat {c : FieldCfg} (h : cfgOk c = true) (a : Word) : (fdec c a).toNat = decNat c.q.toNat a.toNat :=
  toNat_of_val (fdec_lt h a) (by rw [val_fdec h, Nat.cast_mul]; rfl)

theorem fmul_toNat {c : FieldCfg} (h : cfgOk c = true) {a : Word} (ha : a.toNat < c.q.toNat) (b : Word) :
    (fmul c a b).toNat = a.toNat * b.toNat * radixInv c.q.toNat % c.q.toNat :=
  toNat_of_val (fmul_lt ha b) (by rw [val_fmul h, Nat.cast_mul, Nat.cast_mul]; rfl)

/-- FSUB in the form of 41 R217: the remainder of the integer difference. -/
theorem fsub_toNat_cast {c : FieldCfg} {a b : Word} (ha : a.toNat < c.q.toNat) (hb : b.toNat < c.q.toNat) :
    ((fsub c a b).toNat : Int) = ((a.toNat : Int) - b.toNat) % c.q.toNat := by
  have hshift : (a.toNat : Int) + (c.q.toNat - b.toNat) = (a.toNat - b.toNat) + c.q.toNat := by ring
  rw [fsub_toNat ha hb, Int.natCast_emod, Nat.cast_add, Nat.cast_sub hb.le, hshift, Int.add_emod_right]

/-- Encoding a number and encoding its remainder are one (00 R14). -/
theorem encNat_mod (q x : Nat) : encNat q (x % q) = x * radix % q := (Nat.mod_modEq x q).mul_right radix

/-- Decoded words agree exactly when the values agree (41 R220). -/
theorem fdec_eq_iff {c : FieldCfg} (h : cfgOk c = true) (a b : Word) :
    fdec c a = fdec c b ↔ decNat c.q.toNat a.toNat = decNat c.q.toNat b.toNat := by
  rw [← BitVec.toNat_inj, fdec_toNat h, fdec_toNat h]

/-! ## The two conditions of the field commands (41 R211) -/

theorem firstFault_unconfigured {s : State} (h : s.status.cfgv = false) :
    firstFault [s.checkConfigured] = some .notConfigured :=
  firstFault_of_met (by rw [h]; rfl) _

theorem firstFault_configured {s : State} (h : s.status.cfgv = true) : firstFault [s.checkConfigured] = none :=
  firstFault_of_not_met (by rw [h]; rfl) _

theorem checkCanonical_fails_iff (s : State) (i : Idx) :
    (s.checkCanonical i).fails = true ↔ s.cfg.q.toNat ≤ (s.readW i).toNat := by
  simp [State.checkCanonical, canonical]

theorem firstFault_canonical {s : State} {cs : List Idx} (h : ∀ i ∈ cs, (s.readW i).toNat < s.cfg.q.toNat) :
    firstFault (cs.map s.checkCanonical) = none := by
  refine firstFault_eq_none.mpr fun c hc => ?_
  obtain ⟨i, hi, rfl⟩ := List.mem_map.mp hc
  exact eq_false_of_ne_true (mt (checkCanonical_fails_iff s i).mp (Nat.not_le.mpr (h i hi)))

/-- Whichever operand fails first, the code is the same. -/
theorem firstFault_nonCanonical {s : State} {cs : List Idx} (h : ∃ i ∈ cs, s.cfg.q.toNat ≤ (s.readW i).toNat) :
    firstFault (cs.map s.checkCanonical) = some .nonCanonical := by
  induction cs with
  | nil => simp at h
  | cons i cs ih =>
    by_cases hi : (s.checkCanonical i).fails = true
    · exact if_pos hi
    · rw [List.map_cons, firstFault, if_neg hi]
      obtain ⟨j, hj, hle⟩ := h
      rcases List.mem_cons.mp hj with rfl | hj
      · exact absurd ((checkCanonical_fails_iff s j).mpr hle) hi
      · exact ih ⟨j, hj, hle⟩

/-! ## What a field command answers: `rs` are the operands it reads, `cs` those that must be canonical -/

section
variable {i : Instr} {s : State} {rs cs : List Idx} {post : List Check} {eff : State → State}

theorem faults_notConfigured (hi : exec i s = command i [s.checkConfigured] rs post eff s) (h : s.status.cfgv = false) :
    Faults i s .notConfigured [] :=
  faults_of_pre hi (firstFault_unconfigured h)

theorem faults_nonCanonical (hi : exec i s = command i [s.checkConfigured] rs (cs.map s.checkCanonical) eff s)
    (h : s.status.cfgv = true) (hc : ∃ x ∈ cs, s.cfg.q.toNat ≤ (s.readW x).toNat) : Faults i s .nonCanonical rs :=
  faults_of_post hi (firstFault_configured h) (firstFault_nonCanonical hc)

theorem exec_field_ok (hi : exec i s = command i [s.checkConfigured] rs (cs.map s.checkCanonical) eff s)
    (h : s.status.cfgv = true) (hc : ∀ x ∈ cs, (s.readW x).toNat < s.cfg.q.toNat) :
    exec i s = .next (eff (s.noteReads rs)).complete :=
  hi.trans (command_ok (firstFault_configured h) (firstFault_canonical hc))

/-- A field command that writes its result `f` to W[`wd`]: the frame, and the result read back. -/
theorem exec_field_writes {wd : Idx} {f : State → Word}
    (hi : exec i s = command i [s.checkConfigured] rs (cs.map s.checkCanonical) (fun t => t.writeW wd (f t)) s)
    (h : s.status.cfgv = true) (hc : ∀ x ∈ cs, (s.readW x).toNat < s.cfg.q.toNat) :
    ∃ t, exec i s = .next t ∧ WritesW s t [wd] rs s.flags ∧ t.readW wd = f (s.noteReads rs) :=
  ⟨_, exec_field_ok hi h hc, writesW_one_same _ _ _ _, by rw [State.complete_readW, State.readW_writeW_same]⟩

end

section
variable (s : State) (wd wa wb : Idx)

theorem exec_fenc : exec (.fenc wd wa) s = command (.fenc wd wa) [s.checkConfigured] [wa] (List.map s.checkCanonical [])
    (fun t => t.writeW wd (fenc t.cfg (t.readW wa))) s := rfl

theorem exec_fdec : exec (.fdec wd wa) s = command (.fdec wd wa) [s.checkConfigured] [wa] ([wa].map s.checkCanonical)
    (fun t => t.writeW wd (fdec t.cfg (t.readW wa))) s := rfl

theorem exec_fadd : exec (.fadd wd wa wb) s =
    command (.fadd wd wa wb) [s.checkConfigured] [wa, wb] ([wa, wb].map s.checkCanonical)
      (fun t => t.writeW wd (fadd t.cfg (t.readW wa) (t.readW wb))) s := rfl

theorem exec_fsub : exec (.fsub wd wa wb) s =
    command (.fsub wd wa wb) [s.checkConfigured] [wa, wb] ([wa, wb].map s.checkCanonical)
      (fun t => t.writeW wd (fsub t.cfg (t.readW wa) (t.readW wb))) s := rfl

theorem exec_fmul : exec (.fmul wd wa wb) s =
    command (.fmul wd wa wb) [s.checkConfigured] [wa, wb] ([wa, wb].map s.checkCanonical)
      (fun t => t.writeW wd (fmul t.cfg (t.readW wa) (t.readW wb))) s := rfl

theorem exec_fneg : exec (.fneg wd wa) s = command (.fneg wd wa) [s.checkConfigured] [wa] ([wa].map s.checkCanonical)
    (fun t => t.writeW wd (fneg t.cfg (t.readW wa))) s := rfl

theorem exec_feq : exec (.feq wa wb) s =
    command (.feq wa wb) [s.checkConfigured] [wa, wb] ([wa, wb].map s.checkCanonical)
      (fun t => t.setVEQ (decide (fdec t.cfg (t.readW wa) = fdec t.cfg (t.readW wb)))) s := rfl

theorem exec_fzero : exec (.fzero wd) s = command (.fzero wd) [s.checkConfigured] [] (List.map s.checkCanonical [])
    (fun t => t.writeW wd 0) s := rfl

theorem exec_fone : exec (.fone wd) s = command (.fone wd) [s.checkConfigured] [] (List.map s.checkCanonical [])
    (fun t => t.writeW wd t.cfg.r1) s := rfl

end

/-! ## The commands -/

/-- Settles O42: multiplying by R² and reducing encodes, reducing alone decodes. -/
theorem fencFdecEffect : Obligations.FencFdecEffect := by
  intro s wd wa
  refine ⟨fieldsOf_pack _ _ _ _ _, fieldsOf_pack _ _ _ _ _,
    fun h => ⟨faults_notConfigured (exec_fenc s wd wa) h, faults_notConfigured (exec_fdec s wd wa) h⟩,
    fun h ha => faults_nonCanonical (exec_fdec s wd wa) h (by simpa using ha), fun h hok => ?fenc, fun h hok ha => ?fdec⟩
  case fenc =>
    obtain ⟨t, hexec, hframe, hread⟩ := exec_field_writes (exec_fenc s wd wa) h (by simp)
    have hvalue := (congrArg BitVec.toNat hread).trans (fenc_toNat hok (s.readW wa))
    exact ⟨t, hexec, hframe, hvalue, hvalue.trans (encNat_mod _ _).symm⟩
  case fdec =>
    obtain ⟨t, hexec, hframe, hread⟩ := exec_field_writes (exec_fdec s wd wa) h (by simpa using ha)
    exact ⟨t, hexec, hframe, (congrArg BitVec.toNat hread).trans (fdec_toNat hok (s.readW wa))⟩

/-- Settles O43: the corrected sum, difference and negation of canonical operands are those modulo q. -/
theorem faddFsubFnegEffect : Obligations.FaddFsubFnegEffect := by
  intro s wd wa wb
  refine ⟨fieldsOf_pack _ _ _ _ _, fieldsOf_pack _ _ _ _ _, fieldsOf_pack _ _ _ _ _,
    fun h => ⟨faults_notConfigured (exec_fadd s wd wa wb) h, faults_notConfigured (exec_fsub s wd wa wb) h,
      faults_notConfigured (exec_fneg s wd wa) h⟩,
    fun h hab => ?nonCanonical, fun h ha => faults_nonCanonical (exec_fneg s wd wa) h (by simpa using ha),
    fun h ha hb => ?fadd, fun h ha hb => ?fsub, fun h ha => ?fneg⟩
  case nonCanonical =>
    have hbad : ∃ x ∈ [wa, wb], s.cfg.q.toNat ≤ (s.readW x).toNat := by simpa using hab
    exact ⟨faults_nonCanonical (exec_fadd s wd wa wb) h hbad, faults_nonCanonical (exec_fsub s wd wa wb) h hbad⟩
  case fadd =>
    obtain ⟨t, hexec, hframe, hread⟩ := exec_field_writes (exec_fadd s wd wa wb) h (by simpa using And.intro ha hb)
    exact ⟨t, hexec, hframe, (congrArg BitVec.toNat hread).trans (fadd_toNat ha hb)⟩
  case fsub =>
    obtain ⟨t, hexec, hframe, hread⟩ := exec_field_writes (exec_fsub s wd wa wb) h (by simpa using And.intro ha hb)
    exact ⟨t, hexec, hframe, by rw [hread]; exact fsub_toNat_cast ha hb⟩
  case fneg =>
    obtain ⟨t, hexec, hframe, hread⟩ := exec_field_writes (exec_fneg s wd wa) h (by simpa using ha)
    exact ⟨t, hexec, hframe, (congrArg BitVec.toNat hread).trans (fneg_toNat ha)⟩

/-- Settles O44: one Montgomery reduction of the product. -/
theorem fmulEffect : Obligations.FmulEffect := by
  intro s wd wa wb
  refine ⟨fieldsOf_pack _ _ _ _ _, faults_notConfigured (exec_fmul s wd wa wb),
    fun h hab => faults_nonCanonical (exec_fmul s wd wa wb) h (by simpa using hab), fun h hok ha hb => ?_⟩
  obtain ⟨t, hexec, hframe, hread⟩ := exec_field_writes (exec_fmul s wd wa wb) h (by simpa using And.intro ha hb)
  exact ⟨t, hexec, hframe, (congrArg BitVec.toNat hread).trans (fmul_toNat hok ha _)⟩

/-- Settles O45: the words compared are the decoded operands. -/
theorem feqEffect : Obligations.FeqEffect := by
  intro s wa wb
  refine ⟨fieldsOf_pack _ _ _ _ _, faults_notConfigured (exec_feq s wa wb),
    fun h hab => faults_nonCanonical (exec_feq s wa wb) h (by simpa using hab), fun h hok ha hb => ?_⟩
  rw [exec_field_ok (exec_feq s wa wb) h (by simpa using And.intro ha hb), ← decide_eq_decide.mpr (fdec_eq_iff hok _ _)]
  rfl

/-- Settles O46: FZERO and FONE have no operands; R1 of a legal configuration is R mod q. -/
theorem fzeroFoneEffect : Obligations.FzeroFoneEffect := by
  intro s wd
  refine ⟨fieldsOf_pack _ _ _ _ _, fieldsOf_pack _ _ _ _ _,
    fun h => ⟨faults_notConfigured (exec_fzero s wd) h, faults_notConfigured (exec_fone s wd) h⟩, fun h => ⟨?fzero, ?fone⟩⟩
  case fzero => exact exec_field_writes (exec_fzero s wd) h (by simp)
  case fone =>
    obtain ⟨t, hexec, hframe, hread⟩ := exec_field_writes (exec_fone s wd) h (by simp)
    exact ⟨t, hexec, hframe, hread, fun hok => (congrArg BitVec.toNat hread).trans (cfgOk_r1 hok)⟩

end Sys2Proof.Proofs
end

section
/-! The forward and the inverse transform in Zq (spec 42 R266, R267), and why each undoes the other (42 R269). -/
namespace Sys2Proof.Proofs
open Sys2Proof Sys2Proof.Machine

/-! ## The transforms of a sequence, in Zq -/

section
variable {c : FieldCfg} {logn : Nat} {a : List Word}

theorem nttFwd_val (h : cfgOk c = true) (zeta : List Word) (hlen : a.length = 2 ^ logn) (ha : AllCanonical c a) :
    (nttFwd c zeta logn a).map (val c) = Network.fwd (twiddle c zeta) logn 1 (a.map (val c)) := by
  rw [nttFwd_eq_tree c zeta logn hlen, fwdTree_val h zeta logn 1 ha]

/-- The last step of the inverse transform divides by n: NINV is 2^(-logn) in Montgomery form (42 R263). -/
theorem nttInv_val (h : cfgOk c = true) (zetainv : List Word) (hlen : a.length = 2 ^ logn) (ha : AllCanonical c a) :
    (nttInv c zetainv (ninvOf c logn) logn a).map (val c) =
      (Network.inv (twiddle c zetainv) logn 1 (a.map (val c))).map (half c ^ logn * ·) := by
  have hscale (x : Word) : val c (fmul c x (ninvOf c logn)) = half c ^ logn * val c x := by
    rw [val_fmul h, mul_assoc, val_ninv h, mul_comm]
  rw [nttInv_eq_tree c zetainv _ logn hlen, ← invTree_val h zetainv logn 1 ha, List.map_map, List.map_map]
  exact List.map_congr_left fun x _ => hscale x

/-- The factor that the network leaves over and the scaling cancel (42 R269). -/
theorem half_pow_mul_two_pow (h : cfgOk c = true) (logn : Nat) : half c ^ logn * 2 ^ logn = 1 := by
  rw [← mul_pow, mul_comm (half c), two_mul_half h, one_pow]

theorem map_half_pow_map_two_pow (h : cfgOk c = true) (logn : Nat) (l : List (ZMod c.q.toNat)) :
    (l.map (2 ^ logn * ·)).map (half c ^ logn * ·) = l := by
  rw [List.map_map]
  refine (List.map_congr_left fun x _ => ?_).trans l.map_id
  show half c ^ logn * (2 ^ logn * x) = x
  rw [← mul_assoc, half_pow_mul_two_pow h, one_mul]

/-- At every node of the network, in the form that `Network.inv_fwd` and `Network.fwd_inv` ask for (42 R262). -/
theorem twiddles_inverse (h : cfgOk c = true) (hs : logn + 1 ≤ c.s.toNat) (j : Nat) (hj : 2 * j < (1 + 1) * 2 ^ logn)
    (_ : 1 ≤ j) : twiddle c (zetaTable c logn) j * twiddle c (zetainvTable c logn) j = 1 :=
  twiddle_inverse h hs (by omega)

theorem nttInv_nttFwd (h : cfgOk c = true) (hs : logn + 1 ≤ c.s.toNat) (hlen : a.length = 2 ^ logn)
    (ha : AllCanonical c a) :
    nttInv c (zetainvTable c logn) (ninvOf c logn) logn (nttFwd c (zetaTable c logn) logn a) = a := by
  have hflen := nttFwd_length c (zetaTable c logn) logn hlen
  have hf := nttFwd_canonical (zetaTable c logn) hlen ha
  refine map_val_inj (nttInv_canonical _ _ hflen hf) ha ?_
  rw [nttInv_val h _ hflen hf, nttFwd_val h _ hlen ha,
    Network.inv_fwd logn 1 (twiddles_inverse h hs) (by rw [List.length_map, hlen]), map_half_pow_map_two_pow h]

theorem nttFwd_nttInv (h : cfgOk c = true) (hs : logn + 1 ≤ c.s.toNat) (hlen : a.length = 2 ^ logn)
    (ha : AllCanonical c a) :
    nttFwd c (zetaTable c logn) logn (nttInv c (zetainvTable c logn) (ninvOf c logn) logn a) = a := by
  have hilen := nttInv_length c (zetainvTable c logn) (ninvOf c logn) logn hlen
  have hi := nttInv_canonical (zetainvTable c logn) (ninvOf c logn) hlen ha
  refine map_val_inj (nttFwd_canonical _ hilen hi) ha ?_
  rw [nttFwd_val h _ hilen hi, nttInv_val h _ hlen ha, Network.fwd_smul,
    Network.fwd_inv logn 1 (twiddles_inverse h hs) (by rw [List.length_map, hlen]), map_half_pow_map_two_pow h]

end

/-! ## The transforms of a context slot -/

section
variable {s : State} {c : Idx}

/-- The invariant lets a valid context's transform be computed from its log-degree (42 R264). -/
theorem fwd_of_valid (hinv : s.Inv) (hv : (s.cx.get c).valid = true) (a : List Word) :
    s.fwd c a = nttFwd s.cfg (zetaTable s.cfg (s.logDegree c)) (s.logDegree c) a := by
  obtain ⟨-, hzeta, -, -⟩ := hinv.built c hv
  rw [State.fwd, hzeta, State.logDegree]

theorem inv_of_valid (hinv : s.Inv) (hv : (s.cx.get c).valid = true) (a : List Word) :
    s.inv c a =
      nttInv s.cfg (zetainvTable s.cfg (s.logDegree c)) (ninvOf s.cfg (s.logDegree c)) (s.logDegree c) a := by
  obtain ⟨-, -, hzetainv, hninv⟩ := hinv.built c hv
  rw [State.inv, hzetainv, hninv, State.logDegree]

end

/-- Settles O31: in Zq the two networks undo each other up to the factor n, which NINV takes away; canonical sequences with the
same residues are the same. -/
theorem transformsInvertEachOther : Obligations.TransformsInvertEachOther := by
  intro s c a hinv hv hlen ha
  have hcfg := hinv.cfgOk_of_valid hv
  have hs : s.logDegree c + 1 ≤ s.cfg.s.toNat := (hinv.degrees c hv).2
  have hcan : AllCanonical s.cfg a := fun x hx => (canonical_iff s.cfg x).mp (ha x hx)
  simp only [fwd_of_valid hinv hv, inv_of_valid hinv hv]
  exact ⟨nttInv_nttFwd hcfg hs hlen hcan, nttFwd_nttInv hcfg hs hlen hcan⟩

end Sys2Proof.Proofs
end

section
/-! The staging, raw-transform and context commands (spec 42 R271, R272, R275 to R279): their checks, in the order the spec lists
them, and what each command answers. -/
namespace Sys2Proof.Proofs
open Sys2Proof Sys2Proof.Machine

/-! ## The first condition met (60 R414) -/

theorem firstFault_cons_met {k : Check} (h : k.fails = true) (ks : List Check) : firstFault (k :: ks) = some k.code :=
  if_pos h

theorem firstFault_cons_unmet {k : Check} (h : k.fails = false) (ks : List Check) : firstFault (k :: ks) = firstFault ks :=
  if_neg (ne_true_of_eq_false h)

/-- Among conditions with one code it does not matter which is met first. -/
theorem firstFault_of_one_code {ks : List Check} {code : ErrCode} (hcode : ∀ k ∈ ks, k.code = code)
    (hmet : ∃ k ∈ ks, k.fails = true) : firstFault ks = some code := by
  induction ks with
  | nil => simp at hmet
  | cons k ks ih =>
    by_cases hk : k.fails = true
    · rw [firstFault_cons_met hk, hcode k List.mem_cons_self]
    · rw [firstFault_cons_unmet (eq_false_of_ne_true hk)]
      refine ih (fun j hj => hcode j (List.mem_cons_of_mem k hj)) ?_
      obtain ⟨j, hj, hfails⟩ := hmet
      rcases List.mem_cons.mp hj with rfl | hj
      · exact absurd hfails hk
      · exact ⟨j, hj, hfails⟩

/-- A command that reads no W register and meets no condition has its effect, and counts. -/
theorem exec_of_unmet {i : Instr} {s : State} {pre : List Check} {eff : State → State}
    (hi : exec i s = command i pre [] [] eff s) (hpre : firstFault pre = none) : exec i s = .next (eff s).complete := by
  rw [hi, command_ok hpre rfl, State.noteReads_nil]

/-! ## Conditions on a context and on the staged sequence (42 R274, R278; 43 R324) -/

section
variable (s : State) (c : Idx)

theorem checkHostCtx_unmet_iff :
    (s.checkHostCtx c).fails = false ↔ (s.cx.get c).valid = true ∧ (s.cx.get c).hostref = true := by
  simp [State.checkHostCtx, State.hostCtx]

theorem checkStageLength_unmet_iff (code : ErrCode) :
    (s.checkStageLength c code).fails = false ↔ s.slen = s.degree c := by
  simp [State.checkStageLength]

theorem checkStageCanonical_unmet_iff :
    (s.checkStageCanonical c).fails = false ↔ ∀ x ∈ s.stage.take (s.degree c), x.toNat < s.cfg.q.toNat := by
  simp [State.checkStageCanonical, State.staged, canonical]

end

section
variable {s : State} {c : Idx}

theorem firstFault_notHeld (h : ¬((s.cx.get c).valid = true ∧ (s.cx.get c).hostref = true)) (ks : List Check) :
    firstFault (s.checkHostCtx c :: ks) = some .invalidHandle :=
  firstFault_cons_met (eq_true_of_ne_false (mt (checkHostCtx_unmet_iff s c).mp h)) ks

theorem firstFault_held (h : (s.cx.get c).valid = true ∧ (s.cx.get c).hostref = true) (ks : List Check) :
    firstFault (s.checkHostCtx c :: ks) = firstFault ks :=
  firstFault_cons_unmet ((checkHostCtx_unmet_iff s c).mpr h) ks

theorem firstFault_wrongLength (h : s.slen ≠ s.degree c) (code : ErrCode) (ks : List Check) :
    firstFault (s.checkStageLength c code :: ks) = some code :=
  firstFault_cons_met (eq_true_of_ne_false (mt (checkStageLength_unmet_iff s c code).mp h)) ks

theorem firstFault_rightLength (h : s.slen = s.degree c) (code : ErrCode) (ks : List Check) :
    firstFault (s.checkStageLength c code :: ks) = firstFault ks :=
  firstFault_cons_unmet ((checkStageLength_unmet_iff s c code).mpr h) ks

theorem firstFault_stage_nonCanonical (h : ¬∀ x ∈ s.stage.take (s.degree c), x.toNat < s.cfg.q.toNat) :
    firstFault [s.checkStageCanonical c] = some .nonCanonical :=
  firstFault_cons_met (eq_true_of_ne_false (mt (checkStageCanonical_unmet_iff s c).mp h)) []

theorem firstFault_stage_canonical (h : ∀ x ∈ s.stage.take (s.degree c), x.toNat < s.cfg.q.toNat) :
    firstFault [s.checkStageCanonical c] = none :=
  firstFault_cons_unmet ((checkStageCanonical_unmet_iff s c).mpr h) []

end

/-! ## The staging buffer (42 R275 to R277) -/

section
variable (s : State) (x : Idx) (idx : Imm12)

theorem exec_sclr : exec .sclr s = command .sclr [] [] [] (fun t => { t with slen := 0 }) s := rfl

theorem exec_spush : exec (.spush x) s =
    command (.spush x) [⟨decide (s.slen = s.params.nmax), .stagingOverflow⟩] [x] [] (fun t => t.pushStage (t.readW x)) s := rfl

theorem exec_sget : exec (.sget x idx) s =
    command (.sget x idx) [⟨decide (s.slen ≤ idx.toNat), .indexRange⟩] [] []
      (fun t => t.writeW x (t.stage.getD idx.toNat 0)) s := rfl

end

/-- The entry just pushed is read back (42 R276). -/
theorem pushStage_getD_same (s : State) (v : Word) (h : s.slen < s.stage.length) :
    (s.pushStage v).stage.getD s.slen 0 = v := by
  simp [List.getD_eq_getElem?_getD, h]

theorem pushStage_getD_ne (s : State) (v : Word) {j : Nat} (h : j ≠ s.slen) :
    (s.pushStage v).stage.getD j 0 = s.stage.getD j 0 := by
  simp [List.getD_eq_getElem?_getD, List.getElem?_set_ne h.symm]

/-- Settles O47: SPUSH and SGET have one condition each, on SLEN; SCLR has none. -/
theorem sclrSpushSgetEffect : Obligations.SclrSpushSgetEffect := by
  intro s x idx
  refine ⟨by decide, fieldsOf_pack _ _ _ _ _, fieldsOf_pack _ _ _ _ _, exec_of_unmet (exec_sclr s) rfl,
    fun h => ?full, fun h hlen => ?push, fun h => ?outside, fun h => ?get⟩
  case full => exact faults_of_pre (exec_spush s x) (firstFault_of_met (decide_eq_true h) _)
  case push =>
    refine ⟨_, (exec_spush s x).trans (command_ok (firstFault_of_not_met (decide_eq_false h.ne) _) rfl), rfl, ?_,
      List.length_set, fun j hj => pushStage_getD_ne (s.noteReads [x]) _ hj, rfl⟩
    exact pushStage_getD_same (s.noteReads [x]) _ (hlen ▸ h)
  case outside => exact faults_of_pre (exec_sget s x idx) (firstFault_of_met (decide_eq_true h) _)
  case get =>
    refine ⟨_, exec_of_unmet (exec_sget s x idx) (firstFault_of_not_met (decide_eq_false (Nat.not_le.mpr h)) _), ?_, ?_⟩
    · have hframe := writesW_one_same s [] x (s.stage.getD idx.toNat 0)
      rwa [State.noteReads_nil] at hframe
    · rw [State.complete_readW, State.readW_writeW_same]

/-! ## The raw transforms (42 R278, R279) -/

theorem take_overwrite (old d : List Word) : (overwrite old d).take d.length = d := List.take_left

theorem drop_overwrite (old d : List Word) : (overwrite old d).drop d.length = old.drop d.length := List.drop_left

theorem exec_sntt (s : State) (c : Idx) : exec (.sntt c) s =
    command (.sntt c) [s.checkHostCtx c, s.checkStageLength c .lengthMismatch, s.checkStageCanonical c] [] []
      (fun t => t.putStage (t.fwd c (t.stage.take (t.degree c)))) s := rfl

theorem exec_sintt (s : State) (c : Idx) : exec (.sintt c) s =
    command (.sintt c) [s.checkHostCtx c, s.checkStageLength c .lengthMismatch, s.checkStageCanonical c] [] []
      (fun t => t.putStage (t.inv c (t.stage.take (t.degree c)))) s := rfl

/-- The invariant gives a valid context a whole sequence in the staging buffer (10 R54, 42 R260). -/
theorem length_take_stage {s : State} {c : Idx} (hinv : s.Inv) (hv : (s.cx.get c).valid = true) :
    (s.stage.take (s.degree c)).length = s.degree c := by
  rw [List.length_take, hinv.stage_length, Nat.min_eq_left (hinv.degree_le hv)]

/-! A raw transform is a command `i` with these three conditions that replaces the staged sequence by `f` of it. -/

section
variable {i : Instr} {s : State} {c : Idx} {f : State → List Word}
  (hi : exec i s = command i [s.checkHostCtx c, s.checkStageLength c .lengthMismatch, s.checkStageCanonical c] [] []
    (fun t => t.putStage (f t)) s)
include hi

theorem rawTransform_invalidHandle (h : ¬((s.cx.get c).valid = true ∧ (s.cx.get c).hostref = true)) :
    Faults i s .invalidHandle [] :=
  faults_of_pre hi (firstFault_notHeld h _)

theorem rawTransform_lengthMismatch (hheld : (s.cx.get c).valid = true ∧ (s.cx.get c).hostref = true)
    (h : s.slen ≠ s.degree c) : Faults i s .lengthMismatch [] :=
  faults_of_pre hi ((firstFault_held hheld _).trans (firstFault_wrongLength h _ _))

theorem rawTransform_nonCanonical (hheld : (s.cx.get c).valid = true ∧ (s.cx.get c).hostref = true)
    (hlen : s.slen = s.degree c) (h : ¬∀ x ∈ s.stage.take (s.degree c), x.toNat < s.cfg.q.toNat) :
    Faults i s .nonCanonical [] :=
  faults_of_pre hi ((firstFault_held hheld _).trans
    ((firstFault_rightLength hlen _ _).trans (firstFault_stage_nonCanonical h)))

/-- A completing raw transform replaces the first n staged entries, and no other. -/
theorem rawTransform_ok (hheld : (s.cx.get c).valid = true ∧ (s.cx.get c).hostref = true)
    (hlen : s.slen = s.degree c) (hcan : ∀ x ∈ s.stage.take (s.degree c), x.toNat < s.cfg.q.toNat)
    (hf : (f s).length = s.degree c) :
    ∃ t, exec i s = .next t ∧ t.stage.take (s.degree c) = f s ∧ t.stage.drop (s.degree c) = s.stage.drop (s.degree c) ∧
      t = { s with stage := t.stage, cmdcount := s.cmdcount + 1 } := by
  have hpass := (firstFault_held hheld _).trans
    ((firstFault_rightLength hlen .lengthMismatch _).trans (firstFault_stage_canonical hcan))
  refine ⟨_, exec_of_unmet hi hpass, ?_, ?_, rfl⟩
  · rw [← hf]; exact take_overwrite s.stage (f s)
  · rw [← hf]; exact drop_overwrite s.stage (f s)

end

/-- Settles O48: the two commands differ only in the transform, and both transforms keep the length n. -/
theorem snttSinttEffect : Obligations.SnttSinttEffect := by
  intro s c hinv
  refine ⟨fieldsOf_pack _ _ _ _ _, fieldsOf_pack _ _ _ _ _,
    fun h => ⟨rawTransform_invalidHandle (exec_sntt s c) h, rawTransform_invalidHandle (exec_sintt s c) h⟩,
    fun hheld h => ⟨rawTransform_lengthMismatch (exec_sntt s c) hheld h, rawTransform_lengthMismatch (exec_sintt s c) hheld h⟩,
    fun hheld hlen h =>
      ⟨rawTransform_nonCanonical (exec_sntt s c) hheld hlen h, rawTransform_nonCanonical (exec_sintt s c) hheld hlen h⟩,
    fun hheld hlen hcan => ?_⟩
  have hstaged := length_take_stage hinv hheld.1
  exact ⟨rawTransform_ok (exec_sntt s c) hheld hlen hcan (nttFwd_length _ _ _ hstaged),
    rawTransform_ok (exec_sintt s c) hheld hlen hcan (nttInv_length _ _ _ _ hstaged)⟩

/-! ## CTXNEW (42 R271) -/

theorem exec_ctxnew (s : State) (c : Idx) (logn : Imm12) : exec (.ctxnew c logn) s =
    command (.ctxnew c logn)
      [s.checkConfigured, ⟨(s.cx.get c).valid, .resourceBusy⟩,
        ⟨decide (s.params.lognmax < logn.toNat), .constructionError⟩,
        ⟨decide (s.cfg.s.toNat < logn.toNat + 1), .constructionError⟩,
        ⟨decide (s.nextCid = BitVec.allOnes 64), .constructionError⟩] [] []
      (fun t => t.newCtx c logn.toNat) s := rfl

/-- The squarings give the power of 42 R261. -/
theorem psiOf_eq (c : FieldCfg) (logn : Nat) :
    psiOf c logn = c.root.toNat ^ 2 ^ (c.s.toNat - 1 - logn) % c.q.toNat :=
  squareTimes_eq _ _ _

theorem psiWord_toNat {c : FieldCfg} (h : cfgOk c = true) (logn : Nat) :
    (BitVec.ofNat 1024 (psiOf c logn)).toNat = psiOf c logn := by
  have hlt : psiOf c logn < c.q.toNat := by
    rw [psiOf_eq]
    exact Nat.mod_lt _ (cfgOk_q_pos h)
  rw [BitVec.toNat_ofNat]
  exact Nat.mod_eq_of_lt (hlt.trans (word_lt_radix c.q))

theorem zetaTable_length (c : FieldCfg) (logn : Nat) : (zetaTable c logn).length = 2 ^ logn := by
  rw [zetaTable, List.length_map, List.length_range]

theorem zetainvTable_length (c : FieldCfg) (logn : Nat) : (zetainvTable c logn).length = 2 ^ logn := by
  rw [zetainvTable, List.length_map, List.length_range]

theorem getD_map_range (f : Nat → Word) {n k : Nat} (hk : k < n) : ((List.range n).map f).getD k 0 = f k := by
  simp [List.getD_eq_getElem?_getD, hk]

theorem zetaTable_getD_toNat {c : FieldCfg} (h : cfgOk c = true) {logn k : Nat} (hk : k < 2 ^ logn) :
    ((zetaTable c logn).getD k 0).toNat = encNat c.q.toNat (psiOf c logn ^ brv logn k % c.q.toNat) := by
  rw [zetaTable, getD_map_range _ hk, encNat_toNat h]

theorem zetainvTable_getD_toNat {c : FieldCfg} (h : cfgOk c = true) {logn k : Nat} (hk : k < 2 ^ logn) :
    ((zetainvTable c logn).getD k 0).toNat =
      encNat c.q.toNat (psiOf c logn ^ ((2 * 2 ^ logn - brv logn k) % (2 * 2 ^ logn)) % c.q.toNat) := by
  rw [zetainvTable, getD_map_range _ hk, encNat_toNat h]

theorem ninvOf_lt {c : FieldCfg} (h : cfgOk c = true) (logn : Nat) : (ninvOf c logn).toNat < c.q.toNat := by
  rw [ninvOf, encNat_toNat h]
  exact encNat_lt h _

/-- NINV stands for the inverse of the degree (42 R263). -/
theorem ninvOf_mul_degree {c : FieldCfg} (h : cfgOk c = true) (logn : Nat) :
    (ninvOf c logn).toNat * 2 ^ logn % c.q.toNat = encNat c.q.toNat 1 := by
  rw [encNat, one_mul]
  refine (ZMod.natCast_eq_natCast_iff' _ _ _).mp ?_
  have hval : val c (ninvOf c logn) = half c ^ logn * ((radix : Nat) : ZMod c.q.toNat) := by
    rw [ninvOf, val_enc h, invDegree, ZMod.natCast_mod, Nat.cast_pow, half]
  calc (((ninvOf c logn).toNat * 2 ^ logn : Nat) : ZMod c.q.toNat)
      = val c (ninvOf c logn) * 2 ^ logn := by rw [Nat.cast_mul, Nat.cast_pow, Nat.cast_ofNat, val]
    _ = half c ^ logn * 2 ^ logn * ((radix : Nat) : ZMod c.q.toNat) := by rw [hval]; ring
    _ = ((radix : Nat) : ZMod c.q.toNat) := by
        rw [half_pow_mul_two_pow h, one_mul]

/-- The largest identity is the word of all ones (10 R52). -/
theorem eq_allOnes_iff (x : BitVec 64) : x = BitVec.allOnes 64 ↔ x.toNat = 2 ^ 64 - 1 := by
  rw [← BitVec.toNat_inj, BitVec.toNat_allOnes]

/-- A legal log-degree fits its field (00 R9, 10 R51). -/
theorem lognField_toNat {p : Params} (hp : p.legal = true) {b : Nat} (hb : b ≤ p.lognmax) : (BitVec.ofNat 8 b).toNat = b := by
  simp only [Params.legal, Bool.and_eq_true, decide_eq_true_eq] at hp
  obtain ⟨⟨-, hmax⟩, -⟩ := hp
  exact (BitVec.toNat_ofNat _ _).trans (Nat.mod_eq_of_lt (by omega))

/-- Settles O49: the conditions on CFGV and on the slot come first, then three with one code; the slot built is a `Ctx.build`. -/
theorem ctxnewEffect : Obligations.CtxnewEffect := by
  intro s c logn hlegal
  have hconf (h : s.status.cfgv = true) : s.checkConfigured.fails = false := by rw [State.checkConfigured, h]; rfl
  refine ⟨fieldsOf_pack _ _ _ _ _, fun h => ?unconfigured, fun h hbusy => ?busy, fun h hfree hbad => ?refused,
    fun h hok hfree hmax hroot hcid => ?built⟩
  case unconfigured =>
    exact faults_of_pre (exec_ctxnew s c logn) (firstFault_cons_met (by rw [State.checkConfigured, h]; rfl) _)
  case busy =>
    exact faults_of_pre (exec_ctxnew s c logn) ((firstFault_cons_unmet (hconf h) _).trans (firstFault_cons_met hbusy _))
  case refused =>
    refine faults_of_pre (exec_ctxnew s c logn) ((firstFault_cons_unmet (hconf h) _).trans
      ((firstFault_cons_unmet hfree _).trans (firstFault_of_one_code (by simp) ?_)))
    rw [← eq_allOnes_iff] at hbad
    simpa using hbad
  case built =>
    have hfresh : s.nextCid ≠ BitVec.allOnes 64 := mt (eq_allOnes_iff _).mp hcid
    have hexec := exec_of_unmet (exec_ctxnew s c logn)
      (firstFault_eq_none.mpr (by simpa [hconf h, hfree] using ⟨hmax, hroot, hfresh⟩))
    refine ⟨_, Ctx.build s.cfg s.nextCid logn.toNat, hexec, rfl,
      fun c' hne => Bank.get_put_ne _ _ hne, Bank.get_put_same _ _ _, rfl, rfl, rfl, rfl, lognField_toNat hlegal hmax,
      (psiWord_toNat hok _).trans (psiOf_eq _ _), zetaTable_length _ _, zetainvTable_length _ _, fun k hk => ?tables,
      ninvOf_lt hok _, ninvOf_mul_degree hok _⟩
    rw [← psiOf_eq]
    exact ⟨zetaTable_getD_toNat hok hk, zetainvTable_getD_toNat hok hk⟩

/-! ## CTXREL (42 R272, R273) -/

theorem exec_ctxrel (s : State) (c : Idx) : exec (.ctxrel c) s =
    command (.ctxrel c) [s.checkHostCtx c] [] [] (fun t => t.dropHold c) s := rfl

/-- Settles O50: the one condition is the host's hold; whether the slot is freed is decided by its reference count. -/
theorem ctxrelEffect : Obligations.CtxrelEffect := by
  intro s c
  refine ⟨fieldsOf_pack _ _ _ _ _, fun h => ?notHeld, fun hv hh => ?held⟩
  case notHeld =>
    exact faults_of_pre (exec_ctxrel s c) (firstFault_notHeld (by simpa [or_iff_not_imp_left] using h) _)
  case held =>
    obtain ⟨hframe, hothers, hslot⟩ := s.dropHold_frame c
    refine ⟨_, exec_of_unmet (exec_ctxrel s c) (firstFault_held ⟨hv, hh⟩ _), fun hrefs => ?_, fun hrefs => ?_, hothers,
      congrArg State.complete hframe⟩
    · rwa [if_neg hrefs] at hslot
    · rwa [if_pos hrefs] at hslot

end Sys2Proof.Proofs
end

section
/-! Ring elements (spec 43 R320 to R323): the conditions on ring slots in the order the spec lists them, the binding of a result
to a slot, and the sequences of n canonical elements that the commands read; and the commands that bind a slot to a new element
or to a copy (43 R324 to R328). -/
namespace Sys2Proof.Proofs
open Sys2Proof Sys2Proof.Machine

/-! ## Conditions on ring slots (43 R323) -/

section
variable {s : State} {r ra rb : Idx}

theorem firstFault_unbound (h : (s.re.get r).bound = false) (ks : List Check) :
    firstFault (s.checkBound r :: ks) = some .invalidHandle :=
  firstFault_cons_met (show (!(s.re.get r).bound) = true by rw [h]; rfl) ks

theorem firstFault_bound (h : (s.re.get r).bound = true) (ks : List Check) :
    firstFault (s.checkBound r :: ks) = firstFault ks :=
  firstFault_cons_unmet (show (!(s.re.get r).bound) = false by rw [h]; rfl) ks

/-- Whichever operand is unbound, the code is the same. -/
theorem firstFault_either_unbound (h : (s.re.get ra).bound = false ∨ (s.re.get rb).bound = false) (ks : List Check) :
    firstFault (s.checkBound ra :: s.checkBound rb :: ks) = some .invalidHandle := by
  by_cases ha : (s.re.get ra).bound = true
  · rw [firstFault_bound ha]
    exact firstFault_unbound (h.resolve_left (ne_false_of_eq_true ha)) ks
  · exact firstFault_unbound (eq_false_of_ne_true ha) _

theorem firstFault_both_bound (ha : (s.re.get ra).bound = true) (hb : (s.re.get rb).bound = true) (ks : List Check) :
    firstFault (s.checkBound ra :: s.checkBound rb :: ks) = firstFault ks :=
  (firstFault_bound ha _).trans (firstFault_bound hb ks)

theorem firstFault_cid_ne (h : (s.re.get ra).cid ≠ (s.re.get rb).cid) :
    firstFault [s.checkSameCid ra rb] = some .configurationMismatch :=
  firstFault_of_met (by rw [decide_eq_false h]; rfl) _

theorem firstFault_cid_eq (h : (s.re.get ra).cid = (s.re.get rb).cid) : firstFault [s.checkSameCid ra rb] = none :=
  firstFault_of_not_met (by rw [decide_eq_true h]; rfl) _

end

/-! ## Binding a result (43 R322) -/

/-- A command that meets no condition and whose effect is result binding does what `Binds` says: the invariant rules out the
slot that holds an unreferenced context. -/
theorem exec_binds {i : Instr} {s : State} {pre post : List Check} {rs : List Idx} {eff : State → State} {rd c : Idx}
    {st : Rep} {d : List Word} (hinv : s.Inv) (hi : exec i s = command i pre rs post eff s)
    (heff : eff (s.noteReads rs) = (s.noteReads rs).bindRing rd c st d)
    (hpre : firstFault pre = none) (hpost : firstFault post = none) :
    ∃ t, exec i s = .next t ∧ Binds s t rd c st d rs := by
  refine ⟨_, hi.trans (command_ok hpre hpost), ?_⟩
  rw [heff]
  exact s.bindRing_binds rs rd c st d hinv.refcnt_ne_zero

/-! ## Sequences of canonical elements (43 R320, R321) -/

/-- `x` is the data of an element of degree `n`: that many canonical representatives (00 R19, 10 R56 item 5). -/
structure Elements (c : FieldCfg) (n : Nat) (x : List Word) : Prop where
  length : x.length = n
  canonical : AllCanonical c x

section
variable {c : FieldCfg} {n j : Nat} {x y : List Word}

theorem Elements.getD_lt (hx : Elements c n x) (hj : j < n) : (x.getD j 0).toNat < c.q.toNat := by
  rw [← hx.length] at hj
  rw [List.getD_eq_getElem _ _ hj]
  exact hx.canonical _ (List.getElem_mem hj)

theorem Elements.length_map (hx : Elements c n x) (f : Word → Word) : (x.map f).length = n := by
  rw [List.length_map, hx.length]

theorem Elements.getD_map (hx : Elements c n x) (f : Word → Word) (hj : j < n) :
    (x.map f).getD j 0 = f (x.getD j 0) := by
  rw [← hx.length] at hj
  simp [List.getD_eq_getElem?_getD, hj]

theorem Elements.length_zipWith (hx : Elements c n x) (hy : Elements c n y) (f : Word → Word → Word) :
    (List.zipWith f x y).length = n := by
  rw [List.length_zipWith, hx.length, hy.length, Nat.min_self]

theorem Elements.getD_zipWith (hx : Elements c n x) (hy : Elements c n y) (f : Word → Word → Word) (hj : j < n) :
    (List.zipWith f x y).getD j 0 = f (x.getD j 0) (y.getD j 0) := by
  have hjx : j < x.length := hx.length ▸ hj
  have hjy : j < y.length := hy.length ▸ hj
  simp [List.getD_eq_getElem?_getD, hjx, hjy]

end

section
variable {s : State} {r ra rb : Idx} (hinv : s.Inv)
include hinv

theorem ringData_elements (h : (s.re.get r).bound = true) : Elements s.cfg (s.ringDegree r) (s.ringData r) :=
  ⟨hinv.ringData_length h, hinv.data_canonical r h⟩

theorem coefView_elements (h : (s.re.get r).bound = true) : Elements s.cfg (s.ringDegree r) (s.coefView r) :=
  ⟨(hinv.view_length h).1, (hinv.view_canonical h).1⟩

theorem nttView_elements (h : (s.re.get r).bound = true) : Elements s.cfg (s.ringDegree r) (s.nttView r) :=
  ⟨(hinv.view_length h).2, (hinv.view_canonical h).2⟩

theorem addend_elements (h : (s.re.get r).bound = true) : Elements s.cfg (s.ringDegree r) (s.addend ra rb r) := by
  rw [State.addend]
  split
  · exact ringData_elements hinv h
  · exact coefView_elements hinv h

/-- Elements of one context identity have one degree. -/
theorem ringDegree_eq_of_cid_eq (ha : (s.re.get ra).bound = true) (hb : (s.re.get rb).bound = true)
    (h : (s.re.get ra).cid = (s.re.get rb).cid) : s.ringDegree rb = s.ringDegree ra :=
  congrArg s.degree (hinv.same_ctx ha hb h)

/-- A bound slot's context was built from a legal configuration. -/
theorem cfgOk_of_bound (h : (s.re.get r).bound = true) : cfgOk s.cfg = true :=
  hinv.cfgOk_of_valid (hinv.bound_ctx r h).1

end

/-! ## RFROMC and RFROMN (43 R324, R325) -/

theorem exec_rfromc (s : State) (rd c : Idx) : exec (.rfromc rd c) s =
    command (.rfromc rd c) [s.checkHostCtx c, s.checkStageLength c .constructionError, s.checkStageCanonical c] [] []
      (fun t => t.bindRing rd c .coefficient (t.staged (t.degree c))) s := rfl

theorem exec_rfromn (s : State) (rd c : Idx) : exec (.rfromn rd c) s =
    command (.rfromn rd c) [s.checkHostCtx c, s.checkStageLength c .constructionError, s.checkStageCanonical c] [] []
      (fun t => t.bindRing rd c .ntt (t.staged (t.degree c))) s := rfl

section
variable {i : Instr} {s : State} {rd c : Idx} {st : Rep}
  (hi : exec i s = command i [s.checkHostCtx c, s.checkStageLength c .constructionError, s.checkStageCanonical c] [] []
    (fun t => t.bindRing rd c st (t.staged (t.degree c))) s)
include hi

theorem fromStage_invalidHandle (h : ¬((s.cx.get c).valid = true ∧ (s.cx.get c).hostref = true)) :
    Faults i s .invalidHandle [] :=
  faults_of_pre hi (firstFault_notHeld h _)

theorem fromStage_constructionError (hheld : (s.cx.get c).valid = true ∧ (s.cx.get c).hostref = true)
    (h : s.slen ≠ s.degree c) : Faults i s .constructionError [] :=
  faults_of_pre hi ((firstFault_held hheld _).trans (firstFault_wrongLength h _ _))

theorem fromStage_nonCanonical (hheld : (s.cx.get c).valid = true ∧ (s.cx.get c).hostref = true)
    (hlen : s.slen = s.degree c) (h : ¬∀ x ∈ s.stage.take (s.degree c), x.toNat < s.cfg.q.toNat) :
    Faults i s .nonCanonical [] :=
  faults_of_pre hi ((firstFault_held hheld _).trans
    ((firstFault_rightLength hlen _ _).trans (firstFault_stage_nonCanonical h)))

theorem fromStage_binds (hinv : s.Inv) (hheld : (s.cx.get c).valid = true ∧ (s.cx.get c).hostref = true)
    (hlen : s.slen = s.degree c) (hcan : ∀ x ∈ s.stage.take (s.degree c), x.toNat < s.cfg.q.toNat) :
    ∃ t, exec i s = .next t ∧ Binds s t rd c st (s.stage.take (s.degree c)) [] :=
  exec_binds hinv hi rfl ((firstFault_held hheld _).trans
    ((firstFault_rightLength hlen _ _).trans (firstFault_stage_canonical hcan))) rfl

end

/-- Settles O51: the two commands differ only in the state of the element they make. -/
theorem rfromcRfromnEffect : Obligations.RfromcRfromnEffect := by
  intro s rd c hinv
  exact ⟨fieldsOf_pack _ _ _ _ _, fieldsOf_pack _ _ _ _ _,
    fun h => ⟨fromStage_invalidHandle (exec_rfromc s rd c) h, fromStage_invalidHandle (exec_rfromn s rd c) h⟩,
    fun hheld h =>
      ⟨fromStage_constructionError (exec_rfromc s rd c) hheld h, fromStage_constructionError (exec_rfromn s rd c) hheld h⟩,
    fun hheld hlen h =>
      ⟨fromStage_nonCanonical (exec_rfromc s rd c) hheld hlen h, fromStage_nonCanonical (exec_rfromn s rd c) hheld hlen h⟩,
    fun hheld hlen hcan => ⟨length_take_stage hinv hheld.1,
      fromStage_binds (exec_rfromc s rd c) hinv hheld hlen hcan, fromStage_binds (exec_rfromn s rd c) hinv hheld hlen hcan⟩⟩

/-! ## RZERO, RONE and RCOPY (43 R326 to R328) -/

theorem exec_rzero (s : State) (rd c : Idx) : exec (.rzero rd c) s =
    command (.rzero rd c) [s.checkHostCtx c] [] []
      (fun t => t.bindRing rd c .coefficient (List.replicate (t.degree c) 0)) s := rfl

theorem exec_rone (s : State) (rd c : Idx) : exec (.rone rd c) s =
    command (.rone rd c) [s.checkHostCtx c] [] []
      (fun t => t.bindRing rd c .coefficient (t.cfg.r1 :: List.replicate (t.degree c - 1) 0)) s := rfl

theorem exec_rcopy (s : State) (rd ra : Idx) : exec (.rcopy rd ra) s =
    command (.rcopy rd ra) [s.checkBound ra] [] []
      (fun t => t.bindRing rd (t.re.get ra).ctx (t.re.get ra).st (t.ringData ra)) s := rfl

theorem degree_pos (s : State) (c : Idx) : 0 < s.degree c := Nat.two_pow_pos _

/-- The coefficients of a constant polynomial, behind the first. -/
theorem getD_cons_replicate_zero (x : Word) (n : Nat) {j : Nat} (h : j ≠ 0) :
    (x :: List.replicate n 0).getD j 0 = 0 := by
  obtain ⟨k, rfl⟩ := Nat.exists_eq_succ_of_ne_zero h
  rw [List.getD_cons_succ, List.getD_eq_getElem?_getD, List.getElem?_getD_replicate_default_eq]

/-- Settles O52: the one condition is the host's hold, and the degree is positive, so that RONE has a first coefficient. -/
theorem rzeroRoneEffect : Obligations.RzeroRoneEffect := by
  intro s rd c hinv
  refine ⟨fieldsOf_pack _ _ _ _ _, fieldsOf_pack _ _ _ _ _,
    fun h => ⟨faults_of_pre (exec_rzero s rd c) (firstFault_notHeld h _),
      faults_of_pre (exec_rone s rd c) (firstFault_notHeld h _)⟩,
    fun hheld => ⟨exec_binds hinv (exec_rzero s rd c) rfl (firstFault_held hheld _) rfl, ?rone⟩⟩
  case rone =>
    obtain ⟨t, hexec, hbinds⟩ := exec_binds hinv (exec_rone s rd c) rfl (firstFault_held hheld _) rfl
    refine ⟨t, _, hexec, hbinds, ?_, rfl, fun j hj => getD_cons_replicate_zero _ _ hj⟩
    rw [List.length_cons, List.length_replicate]
    exact Nat.sub_add_cancel (degree_pos s c)

/-- Settles O53: what is bound is read before the slot is rebound, so ra = rd is no special case. -/
theorem rcopyEffect : Obligations.RcopyEffect := by
  intro s rd ra hinv
  exact ⟨fieldsOf_pack _ _ _ _ _, fun h => faults_of_pre (exec_rcopy s rd ra) (firstFault_unbound h _),
    fun h => exec_binds hinv (exec_rcopy s rd ra) rfl (firstFault_bound h _) rfl⟩

end Sys2Proof.Proofs
end

section
/-! The destruction of a ring element (spec 43 R329) and the two transitions in place (43 R330, R331). -/
namespace Sys2Proof.Proofs
open Sys2Proof Sys2Proof.Machine

/-! ## RFREE (43 R329) -/

theorem exec_rfree (s : State) (rd : Idx) : exec (.rfree rd) s =
    command (.rfree rd) [s.checkBound rd] [] [] (fun t => t.unbindRing rd) s := rfl

theorem unbindRing_re (s : State) (rd : Idx) :
    (s.unbindRing rd).re = s.re.put rd (Ring.cleared s.params.nmax s.draws rd.toNat) :=
  State.release_re _ _

/-- Unbinding changes ring slots, contexts and the draw counter only, and of the contexts only the one it releases (42 R274). -/
theorem unbindRing_frame (s : State) (rd : Idx) :
    s.unbindRing rd =
      { s with re := (s.unbindRing rd).re, cx := (s.unbindRing rd).cx, draws := (s.unbindRing rd).draws } ∧
    (∀ c, c ≠ (s.re.get rd).ctx → (s.unbindRing rd).cx.get c = s.cx.get c) ∧
    Released (s.cx.get (s.re.get rd).ctx) ((s.unbindRing rd).cx.get (s.re.get rd).ctx) := by
  obtain ⟨hframe, hothers, hreleased⟩ := State.release_frame
    { s with re := s.re.put rd (Ring.cleared s.params.nmax s.draws rd.toNat), draws := s.draws + 1 } (s.re.get rd).ctx
  refine ⟨?_, hothers, hreleased⟩
  rw [unbindRing_re]
  exact hframe

/-- Settles O54: the slot is cleared and one reference to its context released; no invariant is needed. -/
theorem rfreeEffect : Obligations.RfreeEffect := by
  intro s rd
  refine ⟨fieldsOf_pack _ _ _ _ _, fun h => faults_of_pre (exec_rfree s rd) (firstFault_unbound h _), fun h => ?_⟩
  obtain ⟨hframe, hothers, hreleased⟩ := unbindRing_frame s rd
  refine ⟨_, exec_of_unmet (exec_rfree s rd) (firstFault_bound h _), ?_, fun r hr => ?_, hreleased, hothers,
    congrArg State.complete hframe⟩
  · rw [State.complete_re, unbindRing_re, Bank.get_put_same]
    exact Ring.cleared_isUnbound _ _ _
  · rw [State.complete_re, unbindRing_re, Bank.get_put_ne _ _ hr]

/-! ## RTONTT and RTOCOEF (43 R330, R331) -/

theorem exec_rtontt (s : State) (rd : Idx) : exec (.rtontt rd) s =
    command (.rtontt rd) [s.checkBound rd] [] [] (fun t => t.putData rd .ntt (t.nttView rd)) s := rfl

theorem exec_rtocoef (s : State) (rd : Idx) : exec (.rtocoef rd) s =
    command (.rtocoef rd) [s.checkBound rd] [] [] (fun t => t.putData rd .coefficient (t.coefView rd)) s := rfl

theorem nttView_of_ntt {s : State} {r : Idx} (h : (s.re.get r).st = .ntt) : s.nttView r = s.ringData r := by
  rw [State.nttView, h]

theorem nttView_of_coefficient {s : State} {r : Idx} (h : (s.re.get r).st = .coefficient) :
    s.nttView r = s.fwd (s.re.get r).ctx (s.ringData r) := by
  rw [State.nttView, h]

theorem coefView_of_coefficient {s : State} {r : Idx} (h : (s.re.get r).st = .coefficient) : s.coefView r = s.ringData r := by
  rw [State.coefView, h]

theorem coefView_of_ntt {s : State} {r : Idx} (h : (s.re.get r).st = .ntt) :
    s.coefView r = s.inv (s.re.get r).ctx (s.ringData r) := by
  rw [State.coefView, h]

/-- Writing back the first entries changes none. -/
theorem overwrite_take (l : List Word) (n : Nat) : overwrite l (l.take n) = l := by
  rw [overwrite, List.length_take]
  rcases Nat.le_total n l.length with h | h
  · rw [Nat.min_eq_left h, List.take_append_drop]
  · rw [Nat.min_eq_right h, List.drop_length, List.append_nil, List.take_of_length_le h]

theorem putData_ringData (s : State) (r : Idx) : s.putData r (s.re.get r).st (s.ringData r) = s := by
  rw [State.putData, State.ringData, overwrite_take]
  show { s with re := s.re.put r (s.re.get r) } = s
  rw [Bank.put_get]

/-! A transition is a command `i` that replaces the data of slot `rd` by the view `view` and its state by `st`. -/

section
variable {i : Instr} {s : State} {rd : Idx} {st : Rep} {view : State → List Word}
  (hi : exec i s = command i [s.checkBound rd] [] [] (fun t => t.putData rd st (view t)) s)
  (hb : (s.re.get rd).bound = true)
include hi hb

theorem transition_changes {d : List Word} (hview : view s = d) (hlen : (view s).length = s.ringDegree rd) :
    ∃ t, exec i s = .next t ∧
      t.re.get rd = { s.re.get rd with st := st, data := d ++ (s.re.get rd).data.drop (s.ringDegree rd) } ∧
      (∀ r, r ≠ rd → t.re.get r = s.re.get r) ∧ t = { s with re := t.re, cmdcount := s.cmdcount + 1 } := by
  refine ⟨_, exec_of_unmet hi (firstFault_bound hb _), ?_, fun r hr => Bank.get_put_ne _ _ hr, rfl⟩
  rw [State.complete_re, State.putData_re, Bank.get_put_same, ← hlen, ← hview]
  rfl

/-- A transition to the state the element is in. -/
theorem transition_idle (hst : (s.re.get rd).st = st) (hview : view s = s.ringData rd) :
    exec i s = .next { s with cmdcount := s.cmdcount + 1 } := by
  rw [exec_of_unmet hi (firstFault_bound hb _), hview, ← hst, putData_ringData]
  rfl

end

/-- Settles O55: the view a transition stores is the transform of the data in the other state, and the data itself in its own. -/
theorem rtonttRtocoefEffect : Obligations.RtonttRtocoefEffect := by
  intro s rd hinv
  refine ⟨fieldsOf_pack _ _ _ _ _, fieldsOf_pack _ _ _ _ _,
    fun h => ⟨faults_of_pre (exec_rtontt s rd) (firstFault_unbound h _),
      faults_of_pre (exec_rtocoef s rd) (firstFault_unbound h _)⟩,
    fun hb hst => ⟨?toNtt, transition_idle (exec_rtocoef s rd) hb hst (coefView_of_coefficient hst)⟩,
    fun hb hst => ⟨?toCoefficient, transition_idle (exec_rtontt s rd) hb hst (nttView_of_ntt hst)⟩⟩
  case toNtt =>
    exact transition_changes (exec_rtontt s rd) hb (nttView_of_coefficient hst) (nttView_elements hinv hb).length
  case toCoefficient =>
    exact transition_changes (exec_rtocoef s rd) hb (coefView_of_ntt hst) (coefView_elements hinv hb).length

end Sys2Proof.Proofs
end

section
/-! The arithmetic on ring elements (spec 43 R332 to R336), and the comparison and the two accessors (43 R337 to R339). -/
namespace Sys2Proof.Proofs
open Sys2Proof Sys2Proof.Machine

/-! ## RADD, RSUB and RMUL (43 R332 to R334) -/

theorem exec_radd (s : State) (rd ra rb : Idx) : exec (.radd rd ra rb) s =
    command (.radd rd ra rb) [s.checkBound ra, s.checkBound rb, s.checkSameCid ra rb] [] []
      (fun t => t.bindRing rd (t.re.get ra).ctx (t.commonRep ra rb)
        (List.zipWith (fadd t.cfg) (t.addend ra rb ra) (t.addend ra rb rb))) s := rfl

theorem exec_rsub (s : State) (rd ra rb : Idx) : exec (.rsub rd ra rb) s =
    command (.rsub rd ra rb) [s.checkBound ra, s.checkBound rb, s.checkSameCid ra rb] [] []
      (fun t => t.bindRing rd (t.re.get ra).ctx (t.commonRep ra rb)
        (List.zipWith (fsub t.cfg) (t.addend ra rb ra) (t.addend ra rb rb))) s := rfl

theorem exec_rmul (s : State) (rd ra rb : Idx) : exec (.rmul rd ra rb) s =
    command (.rmul rd ra rb) [s.checkBound ra, s.checkBound rb, s.checkSameCid ra rb] [] []
      (fun t => t.bindRing rd (t.re.get ra).ctx .ntt (List.zipWith (fmul t.cfg) (t.nttView ra) (t.nttView rb))) s := rfl

section
variable {i : Instr} {s : State} {ra rb : Idx} {eff : State → State}
  (hi : exec i s = command i [s.checkBound ra, s.checkBound rb, s.checkSameCid ra rb] [] [] eff s)
include hi

theorem pair_invalidHandle (h : (s.re.get ra).bound = false ∨ (s.re.get rb).bound = false) : Faults i s .invalidHandle [] :=
  faults_of_pre hi (firstFault_either_unbound h _)

theorem pair_configurationMismatch (ha : (s.re.get ra).bound = true) (hb : (s.re.get rb).bound = true)
    (h : (s.re.get ra).cid ≠ (s.re.get rb).cid) : Faults i s .configurationMismatch [] :=
  faults_of_pre hi ((firstFault_both_bound ha hb _).trans (firstFault_cid_ne h))

/-- A completing command on two elements binds its result, entry by entry the value of `f` on the entries of `x` and `y`. -/
theorem pair_binds {rd c : Idx} {st : Rep} {n : Nat} {f : Word → Word → Word} {x y : List Word} (hinv : s.Inv)
    (ha : (s.re.get ra).bound = true) (hb : (s.re.get rb).bound = true) (h : (s.re.get ra).cid = (s.re.get rb).cid)
    (heff : eff s = s.bindRing rd c st (List.zipWith f x y)) (hx : Elements s.cfg n x) (hy : Elements s.cfg n y) :
    ∃ t d, exec i s = .next t ∧ Binds s t rd c st d [] ∧ d.length = n ∧
      ∀ j < n, d.getD j 0 = f (x.getD j 0) (y.getD j 0) := by
  obtain ⟨t, hexec, hbinds⟩ := exec_binds hinv hi (by rw [State.noteReads_nil]; exact heff)
    ((firstFault_both_bound ha hb _).trans (firstFault_cid_eq h)) rfl
  exact ⟨t, _, hexec, hbinds, hx.length_zipWith hy f, fun j hj => hx.getD_zipWith hy f hj⟩

end

/-- Settles O56: the operands share a context, hence a degree, and their entries are canonical, as FADD and FSUB require. -/
theorem raddRsubEffect : Obligations.RaddRsubEffect := by
  intro s rd ra rb hinv
  refine ⟨fieldsOf_pack _ _ _ _ _, fieldsOf_pack _ _ _ _ _,
    fun h => ⟨pair_invalidHandle (exec_radd s rd ra rb) h, pair_invalidHandle (exec_rsub s rd ra rb) h⟩,
    fun ha hb h =>
      ⟨pair_configurationMismatch (exec_radd s rd ra rb) ha hb h, pair_configurationMismatch (exec_rsub s rd ra rb) ha hb h⟩,
    fun ha hb h => ?_⟩
  have hx : Elements s.cfg (s.ringDegree ra) (s.addend ra rb ra) := addend_elements hinv ha
  have hy : Elements s.cfg (s.ringDegree ra) (s.addend ra rb rb) :=
    ringDegree_eq_of_cid_eq hinv ha hb h ▸ addend_elements hinv hb
  refine ⟨?sum, ?difference⟩
  case sum =>
    obtain ⟨t, d, hexec, hbinds, hlen, hget⟩ := pair_binds (exec_radd s rd ra rb) hinv ha hb h rfl hx hy
    refine ⟨t, d, hexec, hbinds, hlen, fun j hj => ?_⟩
    rw [hget j hj]
    exact fadd_toNat (hx.getD_lt hj) (hy.getD_lt hj)
  case difference =>
    obtain ⟨t, d, hexec, hbinds, hlen, hget⟩ := pair_binds (exec_rsub s rd ra rb) hinv ha hb h rfl hx hy
    refine ⟨t, d, hexec, hbinds, hlen, fun j hj => ?_⟩
    rw [hget j hj]
    exact fsub_toNat_cast (hx.getD_lt hj) (hy.getD_lt hj)

/-- Settles O57: each entry is one Montgomery product of canonical entries of the two transforms. -/
theorem rmulEffect : Obligations.RmulEffect := by
  intro s rd ra rb hinv
  refine ⟨fieldsOf_pack _ _ _ _ _, pair_invalidHandle (exec_rmul s rd ra rb),
    pair_configurationMismatch (exec_rmul s rd ra rb), fun ha hb h => ?_⟩
  have hx : Elements s.cfg (s.ringDegree ra) (s.nttView ra) := nttView_elements hinv ha
  have hy : Elements s.cfg (s.ringDegree ra) (s.nttView rb) :=
    ringDegree_eq_of_cid_eq hinv ha hb h ▸ nttView_elements hinv hb
  obtain ⟨t, d, hexec, hbinds, hlen, hget⟩ := pair_binds (exec_rmul s rd ra rb) hinv ha hb h rfl hx hy
  refine ⟨t, d, hexec, hbinds, hlen, fun j hj => ?_⟩
  rw [hget j hj]
  exact fmul_toNat (cfgOk_of_bound hinv ha) (hx.getD_lt hj) _

/-! ## RNEG and RSCALE (43 R335, R336) -/

theorem exec_rneg (s : State) (rd ra : Idx) : exec (.rneg rd ra) s =
    command (.rneg rd ra) [s.checkBound ra] [] []
      (fun t => t.bindRing rd (t.re.get ra).ctx (t.re.get ra).st ((t.ringData ra).map (fneg t.cfg))) s := rfl

theorem exec_rscale (s : State) (rd ra wb : Idx) : exec (.rscale rd ra wb) s =
    command (.rscale rd ra wb) [s.checkBound ra] [wb] ([wb].map s.checkCanonical)
      (fun t => t.bindRing rd (t.re.get ra).ctx (t.re.get ra).st
        ((t.ringData ra).map (fun x => fmul t.cfg x (t.readW wb)))) s := rfl

/-- Settles O58: RNEG has one condition; RSCALE reads its scalar after it, and then requires it canonical. -/
theorem rnegRscaleEffect : Obligations.RnegRscaleEffect := by
  intro s rd ra wb hinv
  refine ⟨fieldsOf_pack _ _ _ _ _, fieldsOf_pack _ _ _ _ _,
    fun h => ⟨faults_of_pre (exec_rneg s rd ra) (firstFault_unbound h _),
      faults_of_pre (exec_rscale s rd ra wb) (firstFault_unbound h _)⟩,
    fun ha h => faults_of_post (exec_rscale s rd ra wb) (firstFault_bound ha _) (firstFault_nonCanonical (by simpa using h)),
    fun ha => ?negation, fun ha h => ?multiple⟩
  case negation =>
    have hx := ringData_elements hinv ha
    obtain ⟨t, hexec, hbinds⟩ := exec_binds hinv (exec_rneg s rd ra) rfl (firstFault_bound ha _) rfl
    refine ⟨t, _, hexec, hbinds, hx.length_map _, fun j hj => ?_⟩
    exact (congrArg BitVec.toNat (hx.getD_map _ hj)).trans (fneg_toNat (hx.getD_lt hj))
  case multiple =>
    have hx := ringData_elements hinv ha
    obtain ⟨t, hexec, hbinds⟩ := exec_binds hinv (exec_rscale s rd ra wb) rfl (firstFault_bound ha _)
      (firstFault_canonical (by simpa using h))
    refine ⟨t, _, hexec, hbinds, hx.length_map _, fun j hj => ?_⟩
    exact (congrArg BitVec.toNat (hx.getD_map _ hj)).trans (fmul_toNat (cfgOk_of_bound hinv ha) (hx.getD_lt hj) _)

/-! ## REQ (43 R337) -/

theorem exec_req (s : State) (ra rb : Idx) : exec (.req ra rb) s =
    command (.req ra rb) [s.checkBound ra, s.checkBound rb] [] []
      (fun t => t.setVEQ (decide ((t.re.get ra).cid = (t.re.get rb).cid) && decide (t.coefView ra = t.coefView rb))) s := rfl

/-- Settles O59: the identities decide first; only if they agree are the coefficient views compared. -/
theorem reqEffect : Obligations.ReqEffect := by
  intro s ra rb
  refine ⟨fieldsOf_pack _ _ _ _ _, fun h => faults_of_pre (exec_req s ra rb) (firstFault_either_unbound h _),
    fun ha hb h => ?different, fun ha hb h => ?same⟩
  case different =>
    rw [exec_of_unmet (exec_req s ra rb) (firstFault_both_bound ha hb _), decide_eq_false h, Bool.false_and]
    rfl
  case same =>
    rw [exec_of_unmet (exec_req s ra rb) (firstFault_both_bound ha hb _), decide_eq_true h, Bool.true_and]
    rfl

/-! ## RGETC and RGETN (43 R338, R339) -/

theorem exec_rgetc (s : State) (wd ra : Idx) (idx : Imm12) : exec (.rgetc wd ra idx) s =
    command (.rgetc wd ra idx)
      [s.checkBound ra, s.checkRep ra .coefficient, ⟨decide (s.ringDegree ra ≤ idx.toNat), .indexRange⟩] [] []
      (fun t => t.writeW wd ((t.re.get ra).data.getD idx.toNat 0)) s := rfl

theorem exec_rgetn (s : State) (wd ra : Idx) (idx : Imm12) : exec (.rgetn wd ra idx) s =
    command (.rgetn wd ra idx)
      [s.checkBound ra, s.checkRep ra .ntt, ⟨decide (s.ringDegree ra ≤ idx.toNat), .indexRange⟩] [] []
      (fun t => t.writeW wd ((t.re.get ra).data.getD idx.toNat 0)) s := rfl

theorem firstFault_wrongRep {s : State} {r : Idx} {st : Rep} (h : (s.re.get r).st ≠ st) (ks : List Check) :
    firstFault (s.checkRep r st :: ks) = some .invalidState :=
  firstFault_cons_met (show (!decide ((s.re.get r).st = st)) = true by rw [decide_eq_false h]; rfl) ks

theorem firstFault_rightRep {s : State} {r : Idx} {st : Rep} (h : (s.re.get r).st = st) (ks : List Check) :
    firstFault (s.checkRep r st :: ks) = firstFault ks :=
  firstFault_cons_unmet (show (!decide ((s.re.get r).st = st)) = false by rw [decide_eq_true h]; rfl) ks

/-! An accessor is a command `i` that reads one entry of an element in state `st`. -/

section
variable {i : Instr} {s : State} {wd ra : Idx} {st : Rep} {k : Nat}
  (hi : exec i s = command i [s.checkBound ra, s.checkRep ra st, ⟨decide (s.ringDegree ra ≤ k), .indexRange⟩] [] []
    (fun t => t.writeW wd ((t.re.get ra).data.getD k 0)) s)
include hi

theorem accessor_invalidHandle (h : (s.re.get ra).bound = false) : Faults i s .invalidHandle [] :=
  faults_of_pre hi (firstFault_unbound h _)

theorem accessor_invalidState (ha : (s.re.get ra).bound = true) (h : (s.re.get ra).st ≠ st) :
    Faults i s .invalidState [] :=
  faults_of_pre hi ((firstFault_bound ha _).trans (firstFault_wrongRep h _))

theorem accessor_indexRange (ha : (s.re.get ra).bound = true) (hst : (s.re.get ra).st = st) (h : s.ringDegree ra ≤ k) :
    Faults i s .indexRange [] :=
  faults_of_pre hi ((firstFault_bound ha _).trans
    ((firstFault_rightRep hst _).trans (firstFault_of_met (decide_eq_true h) _)))

theorem accessor_reads (ha : (s.re.get ra).bound = true) (hst : (s.re.get ra).st = st) (h : k < s.ringDegree ra) :
    ∃ t, exec i s = .next t ∧ WritesW s t [wd] [] s.flags ∧ t.readW wd = (s.re.get ra).data.getD k 0 := by
  have hpass := (firstFault_bound ha _).trans ((firstFault_rightRep hst _).trans
    (firstFault_of_not_met (decide_eq_false (Nat.not_le.mpr h)) .indexRange))
  have hframe := writesW_one_same s [] wd ((s.re.get ra).data.getD k 0)
  rw [State.noteReads_nil] at hframe
  exact ⟨_, exec_of_unmet hi hpass, hframe, by rw [State.complete_readW, State.readW_writeW_same]⟩

end

/-- Settles O60: the two accessors differ only in the state they require. -/
theorem rgetcRgetnEffect : Obligations.RgetcRgetnEffect := by
  intro s wd ra idx
  refine ⟨fieldsOf_pack _ _ _ _ _, fieldsOf_pack _ _ _ _ _,
    fun h => ⟨accessor_invalidHandle (exec_rgetc s wd ra idx) h, accessor_invalidHandle (exec_rgetn s wd ra idx) h⟩,
    fun ha => ⟨fun h => ?inNtt, fun h => ?inCoefficient, accessor_indexRange (exec_rgetc s wd ra idx) ha,
      accessor_indexRange (exec_rgetn s wd ra idx) ha, accessor_reads (exec_rgetc s wd ra idx) ha,
      accessor_reads (exec_rgetn s wd ra idx) ha⟩⟩
  case inNtt => exact accessor_invalidState (exec_rgetc s wd ra idx) ha (by rw [h]; decide)
  case inCoefficient => exact accessor_invalidState (exec_rgetn s wd ra idx) ha (by rw [h]; decide)

end Sys2Proof.Proofs
end

section
/-! The encoder and the decoder against each other (spec 30 R120 to R133): every well-formed instruction comes back from its CMD
value, and the values that stand for none. -/
namespace Sys2Proof.Proofs
open Sys2Proof Sys2Proof.Machine

/-! ## Decoding an encoded instruction (30 R129) -/

/-- The word of every instruction has a row, keeps its zero bits, and makes the instruction again. -/
theorem fieldsRoundTrip (i : Instr) : Laws.FieldsRoundTrip.Statement i := by
  open Laws.FieldsRoundTrip in
  cases i
  exacts [nop, cfgw _ _, cfgr _ _, cfgcommit, cfginv, wadd _ _ _, wsub _ _ _, wcmp _ _, wsel _ _ _, wmul _ _ _ _, wli _ _,
    wmov _ _, fenc _ _, fdec _ _, fadd _ _ _, fsub _ _ _, fmul _ _ _, fneg _ _, feq _ _, fzero _, fone _, sclr, spush _,
    sget _ _, sntt _, sintt _, ctxnew _ _, ctxrel _, rfromc _ _, rfromn _ _, rzero _ _, rone _ _, rcopy _ _, rfree _,
    rtontt _, rtocoef _, radd _ _ _, rsub _ _ _, rmul _ _ _, rneg _ _, rscale _ _ _, req _ _, rgetc _ _ _, rgetn _ _ _]

/-- A row whose checks pass accepts the fields. -/
theorem row_decode_ok {r : Row} {p : Params} {f : Fields} {i : Instr} (hzero : r.fmt.unusedZero f = true)
    (hidx : r.indicesOk p f = true) (hmake : r.make f = some i) (hdest : i.sameDestination = false) : r.decode p f = .ok i := by
  simp [Row.decode, hzero, hidx, hmake, hdest]

/-- 30 R124, R128: what the row checks is what makes the instruction well-formed. -/
theorem decode_cmdValue_of_wf {p : Params} {i : Instr} (h : i.wf p = true) : decode p i.cmdValue = .ok i := by
  obtain ⟨r, hr, hzero, hmake⟩ := fieldsRoundTrip i
  obtain ⟨-, hwf⟩ := faithfulRow_of_mem r (mem_opcodeMap_of_rowOf hr) _ i hzero hmake
  have hchecks : r.indicesOk p (fieldsOf (encode i)) = true ∧ i.sameDestination = false := by
    simpa using (hwf p).symm.trans h
  rw [decode_cmdValue p i hr]
  exact row_decode_ok hzero hchecks.1 hmake hchecks.2

/-- Settles O1: the row of the instruction's word makes it again, and accepts it. -/
theorem decodeOfEncode : Obligations.DecodeOfEncode := fun _ _ h => decode_cmdValue_of_wf h

/-- Settles O5: each word is the CMD value of its instruction, which is well-formed under the default parameters. -/
theorem sampleWordsDecode : Obligations.SampleWordsDecode := by
  have sample {v : BitVec 64} {i : Instr} (hv : i.cmdValue = v) (hi : i.wf Params.default = true) :
      decode Params.default v = .ok i := hv ▸ decode_cmdValue_of_wf hi
  exact ⟨sample (by decide) rfl, sample (by decide) rfl, sample (by decide) rfl, sample (by decide) rfl,
    sample (by decide) rfl, sample (by decide) rfl, sample (by decide) rfl⟩

/-! ## NOP (44 R401) -/

theorem exec_nop (s : State) : exec .nop s = .next (s.noteReads []).complete :=
  show execNop s = _ from command_unchecked _ _ _ _

theorem nop_cmdValue : Instr.nop.cmdValue = 0 := by decide

/-- Settles O34: NOP has no effect; a value that decodes to it is its CMD value. -/
theorem nopEffect : Obligations.NopEffect := by
  refine ⟨fun s => ?_, fun p v => ⟨fun h => ?_, fun h => ?_⟩⟩
  · rw [exec_nop, State.noteReads_nil]
    rfl
  · exact (wf_and_eq_cmdValue_of_decode_ok h).2.trans nop_cmdValue
  · rw [h, ← nop_cmdValue]
    exact decode_cmdValue_of_wf rfl

/-! ## Values that stand for no instruction (30 R120, R124, R128, R133) -/

/-- An encoded instruction decodes to itself or to nothing. -/
theorem eq_of_decode_cmdValue {p : Params} {i j : Instr} (h : decode p i.cmdValue = .ok j) : j = i := by
  obtain ⟨r, hr, -, hmake⟩ := fieldsRoundTrip i
  rw [decode_cmdValue p i hr] at h
  obtain ⟨-, -, hmake', -⟩ := checks_of_row_decode_ok h
  exact Option.some.inj (hmake'.symm.trans hmake)

/-- 30 R133: selectors above 5 name no register. -/
theorem ofImm_eq_none {imm : Imm12} (h : 5 < imm.toNat) : CfgSel.ofImm imm = none := by
  unfold CfgSel.ofImm
  split <;> simp_all

/-- The rows of CFGW and CFGR make no instruction of a bad selector. -/
theorem make_eq_none_of_badSelector {r : Row} {f : Fields} (hr : rowOf f.opc = some r)
    (hopc : f.opc.toNat = 0x01 ∨ f.opc.toNat = 0x02) (himm : 5 < f.imm.toNat) : r.make f = none := by
  have hopc' : f.opc = 0x01 ∨ f.opc = 0x02 := hopc.imp BitVec.eq_of_toNat_eq BitVec.eq_of_toNat_eq
  rcases hopc' with h | h
  all_goals
    rw [h] at hr
    obtain rfl := Option.some.inj hr
    exact congrArg (Option.map _) (ofImm_eq_none himm)

theorem fieldsOf_low_imm (v : BitVec 64) : (fieldsOf (v.extractLsb' 0 32)).imm = v.extractLsb' 0 12 :=
  BitVec.extractLsb'_extractLsb'_of_le (by decide)

/-- 30 R133: a CFGW or CFGR word with a bad selector decodes to nothing. -/
theorem decode_ne_ok_of_badSelector (p : Params) {v : BitVec 64}
    (hopc : (v.extractLsb' 24 8).toNat = 0x01 ∨ (v.extractLsb' 24 8).toNat = 0x02)
    (himm : 5 < (v.extractLsb' 0 12).toNat) (i : Instr) : decode p v ≠ .ok i := by
  intro h
  obtain ⟨-, r, hr, hdec⟩ := row_of_decode_ok h
  obtain ⟨-, -, hmake, -⟩ := checks_of_row_decode_ok hdec
  rw [← fieldsOf_low_opc] at hopc
  rw [← fieldsOf_low_imm] at himm
  cases (make_eq_none_of_badSelector hr hopc himm).symm.trans hmake

/-- While FAULT = 0, a value that stands for no instruction is recorded as ILLEGAL_COMMAND. -/
theorem executeCommand_of_decode_ne_ok {s : State} {v : BitVec 64} (hf : s.status.fault = false)
    (h : ∀ i, decode s.params v ≠ .ok i) : executeCommand v s = .next (s.recordFault .illegalCommand v) := by
  cases hdec : decode s.params v with
  | error e => exact executeCommand_of_decode_error hf hdec
  | ok i => exact absurd hdec (h i)

/-- Settles O4: none of the three forms of a value stands for an instruction. -/
theorem illegalCommandForms : Obligations.IllegalCommandForms := by
  intro s v hf hform
  refine executeCommand_of_decode_ne_ok hf fun i hdec => ?_
  rcases hform with hhigh | ⟨j, hwf, rfl⟩ | ⟨hopc, himm⟩
  · cases (decode_of_high_ne_zero hhigh).symm.trans hdec
  · obtain rfl := eq_of_decode_cmdValue hdec
    rw [(wf_and_eq_cmdValue_of_decode_ok hdec).1] at hwf
    cases hwf
  · exact decode_ne_ok_of_badSelector s.params hopc himm i hdec

end Sys2Proof.Proofs
end

section
/-! What one access of the host does (spec 20, 44 R400, 70): the command write, the reads, the control registers and the resets, and
what each register of the aperture reads as. -/
namespace Sys2Proof.Proofs
open Sys2Proof Sys2Proof.Machine

/-! ## The write to CMD (44 R400) -/

/-- An aligned 64-bit write to CMD is the engine's. -/
theorem step_write_cmd {s : State} {v : BitVec 64} {rest : List HostEvent} (hr : s.rstn = true)
    (hh : s.host = .write (s.params.base + 0x028) 8 v :: rest) :
    step s = executeCommand v { s with host := rest, reply := some ⟨false, none⟩ } := by
  have hap := inAperture_base_add s.params (off := 0x028) (by decide)
  have hacc : accessOk 0x028 8 = true := (accessOk_iff _ _).mpr ⟨rfl, rfl⟩
  rw [step_of_host hh]
  simp only [handle, busWrite, hap, Nat.add_sub_cancel_left, hr, hacc, Bool.true_eq_false, if_false]
  rfl

section
variable {s : State} {v : BitVec 64}

theorem executeCommand_of_fault (hf : s.status.fault = true) :
    executeCommand v s = .next { s with status := { s.status with drop := true } } := if_pos hf

theorem executeCommand_of_decode_ok {i : Instr} (hf : s.status.fault = false) (hdec : decode s.params v = .ok i) :
    executeCommand v s = exec i s := by
  simp [executeCommand, hf, hdec]

end

/-- Settles O6: the engine runs the decoded instruction. -/
theorem stepRunsDecodedCommand : Obligations.StepRunsDecodedCommand := by
  intro s v rest i hr hf hh hdec _
  rw [step_write_cmd hr hh]
  exact executeCommand_of_decode_ok hf hdec

/-- Settles O7: the engine looks at FAULT first, and then at the value. -/
theorem stepDropsOrRecordsCmdWrites : Obligations.StepDropsOrRecordsCmdWrites := by
  intro s v rest hr hh
  rw [step_write_cmd hr hh]
  refine ⟨fun hf => executeCommand_of_fault hf, fun hf hdec => ?_⟩
  obtain ⟨e, he⟩ := hdec
  exact executeCommand_of_decode_error hf he

/-! ## Accesses that do not reach LMC, and reads (20 R81, R90, R95) -/

theorem inAperture_eq_false {p : Params} {addr : Nat} (h : addr < p.base ∨ p.base + 0x2000 ≤ addr) :
    inAperture p addr = false := by
  rw [inAperture, Bool.and_eq_false_iff, decide_eq_false_iff_not, decide_eq_false_iff_not]
  omega

/-- Settles O9: with no event nothing is served; the aperture is checked before all else. -/
theorem idleAndForeignAccessesChangeNothing : Obligations.IdleAndForeignAccessesChangeNothing := by
  refine ⟨fun s hh => ?_, fun s addr width v rest haddr hh => ?_⟩
  · simp [step, serve, hh]
  · have hap : inAperture s.params addr = false := inAperture_eq_false haddr
    rcases hh with hh | hh
    · rw [step_of_host hh, handle, busRead, if_pos hap]
      rfl
    · rw [step_of_host hh, handle, busWrite, if_pos hap]
      rfl

/-- 20 R90, 93 I1: the record that a register read may leave. -/
theorem noteRegRead_eq (s : State) (r : Reg) :
    ∃ b : Bool, (b = true → ∃ i k, r = .wlimb i k ∧ (s.written.get i).getLsbD k = false) ∧
      s.noteRegRead r = { s with programFault := s.programFault || b } := by
  cases r with
  | wlimb i k => exact ⟨_, fun h => ⟨i, k, rfl, by simpa using h⟩, rfl⟩
  | _ => exact ⟨false, nofun, by rw [Bool.or_false]; rfl⟩

/-- Settles O10: a read answers the register, and only a read of a W limb may leave a record. -/
theorem readsReturnTheRegister : Obligations.ReadsReturnTheRegister := by
  intro s off rest hr hoff hal hh
  obtain ⟨b, hb, hnote⟩ := noteRegRead_eq { s with host := rest } (regAt s.params off)
  refine ⟨b, hb, ?_⟩
  rw [step_read hr hoff hal hh, hnote]
  rfl

/-! ## The bytes of a W register (20 R84) -/

/-- A field of bits of a field of bits. -/
theorem extractLsb'_extractLsb' {n : Nat} (x : BitVec n) {a b k l : Nat} (h : b + l ≤ k) :
    (x.extractLsb' a k).extractLsb' b l = x.extractLsb' (a + b) l := by
  apply BitVec.eq_of_getLsbD_eq
  intro j hj
  have hin : b + j < k := by omega
  simp only [BitVec.getLsbD_extractLsb', hin, decide_true, Bool.true_and, Nat.add_assoc]

/-- Settles O13: byte m lies in limb m / 8, whose 64 bits stand at bit 64 (m / 8) of the register. -/
theorem wByteOrder : Obligations.WByteOrder := by
  intro s i m hi hm hw
  have hlane : (0x1000 + 0x80 * i.toNat + m) % 8 = m % 8 := by omega
  have hbase : 0x1000 + 0x80 * i.toNat + m - m % 8 = 0x1000 + 0x80 * i.toNat + 8 * (m / 8) := by omega
  have hlimb : s.readLimb i (m / 8) = (s.w.get i).extractLsb' (64 * (m / 8)) 64 := by
    rw [← s.limb_readW i (by omega), State.readW_of_written hw, limb]
  have hbits : 64 * (m / 8) + 8 * (m % 8) = 8 * m := by omega
  rw [State.apertureByte, hlane, hbase, regAt_wlimb s.params i hi (by omega), State.readReg, hlimb,
    extractLsb'_extractLsb' _ (by omega), hbits]

/-! ## Control registers and resets (20 R96, 10 R55; 70 R460, R461) -/

/-- 10 R39: the bits of STATUS after a write, each on its own. -/
theorem writeStatus_eq (s : State) (v : Limb) : s.writeStatus v = { s with status :=
    { fault := s.status.fault && !v.getLsbD 0
      drop := s.status.drop && !v.getLsbD 1
      buserr := s.status.buserr && !v.getLsbD 2
      cfgv := s.status.cfgv
      err := if v.getLsbD 0 then .none else s.status.err } } := by
  rw [State.writeStatus]
  cases v.getLsbD 0 <;> cases v.getLsbD 1 <;> cases v.getLsbD 2 <;> simp [State.clearFault]

/-- 10 R55: IRQ while the reset is not held. -/
theorem irq_iff {s : State} (hr : s.rstn = true) : s.irq = true ↔ s.status.fault = true ∧ s.irqen = true := by
  simp [State.irq, hr]

/-- Settles O16: each write is that of its register. -/
theorem controlRegisterWrites : Obligations.ControlRegisterWrites := by
  intro s v rest hr
  refine ⟨fun hh => ?status, fun hh => ?flags, fun hh hsrst => ?ctrl, irq_iff hr⟩
  case status =>
    have hreg : regAt s.params 0x018 = .status := rfl
    rw [step_write hr (by decide) (by decide) hh (by rw [hreg]; exact Reg.noConfusion), hreg, State.writeReg, writeStatus_eq]
    rfl
  case flags =>
    have hreg : regAt s.params 0x020 = .flags := rfl
    rw [step_write hr (by decide) (by decide) hh (by rw [hreg]; exact Reg.noConfusion), hreg]
    rfl
  case ctrl =>
    have hreg : regAt s.params 0x010 = .ctrl := rfl
    rw [step_write hr (by decide) (by decide) hh (by rw [hreg]; exact Reg.noConfusion), hreg, State.writeReg,
      State.writeCtrl, if_neg (ne_true_of_eq_false hsrst)]
    rfl

/-- Both resets put every piece of state at its value of 10 R57; what they keep is none of it. -/
theorem atReset_toReset (s : State) (r : Option Reply) : AtReset (s.toReset.answer r) :=
  { atReset_resetWith s.params s.draws with }

/-- Settles O18: both resets are `State.toReset`; while the reset is held, accesses are ignored. -/
theorem resets : Obligations.Resets := by
  refine ⟨fun s v rest hr hsrst hh => ?soft, fun s rest hr hh => ?hard, fun s rest hh => step_of_host hh,
    fun s addr width v rest hr hh => ?ignored, fun s hr => ?irq⟩
  case soft =>
    have hreg : regAt s.params 0x010 = .ctrl := rfl
    refine ⟨_, ?_, atReset_toReset { s with host := rest } (some ⟨false, none⟩), rfl, rfl, rfl⟩
    rw [step_write hr (by decide) (by decide) hh (by rw [hreg]; exact Reg.noConfusion), hreg, State.writeReg,
      State.writeCtrl, if_pos hsrst]
  case hard =>
    refine ⟨_, ?_, atReset_toReset { s with host := rest } s.reply, rfl, rfl, rfl⟩
    rw [step_of_host hh, handle, State.driveReset, if_pos rfl, if_neg (ne_true_of_eq_false hr)]
    rfl
  case ignored =>
    cases hap : inAperture s.params addr with
    | false =>
      refine ⟨none, s.draws, ?_⟩
      rcases hh with hh | hh
      · rw [step_of_host hh, handle, busRead, if_pos hap]
        rfl
      · rw [step_of_host hh, handle, busWrite, if_pos hap]
        rfl
    | true =>
      refine ⟨Config.replyInReset s.draws, s.draws + 1, ?_⟩
      rcases hh with hh | hh
      · rw [step_of_host hh, handle, busRead, if_neg (ne_false_of_eq_true hap), if_pos hr]
        rfl
      · rw [step_of_host hh, handle, busWrite, if_neg (ne_false_of_eq_true hap), if_pos hr]
        rfl
  case irq => rw [State.irq, hr, Bool.false_and]

/-- Settles O19: the default parameters are legal, and with legal ones the reset values have the invariant. -/
theorem resetHasInvariant : Obligations.ResetHasInvariant := State.inv_resetWith (by decide) 0

end Sys2Proof.Proofs
end

section
/-! What every register of the aperture but the W limbs reads as, bit by bit (spec 10 R33 to R49, 20 R82). -/
namespace Sys2Proof.Proofs
open Sys2Proof Sys2Proof.Machine

/-! ## Bits of packed words -/

theorem getLsbD_bitAt (b : Bool) {j k : Nat} (hk : k < 64) : (bitAt b j).getLsbD k = if k = j then b else false := by
  rw [bitAt, BitVec.getLsbD_shiftLeft, BitVec.getLsbD_setWidth, BitVec.getLsbD_ofBool]
  by_cases hkj : k = j
  · simp [hkj, hkj ▸ hk]
  · rw [if_neg hkj]
    by_cases hlt : k < j
    · simp [hlt]
    · simp [show k - j ≠ 0 by omega]

/-- A field of `w` bits placed at bit `j`. -/
theorem getLsbD_fieldAt {w : Nat} (x : BitVec w) {j k : Nat} (hk : k < 64) :
    (x.setWidth 64 <<< j).getLsbD k = if j ≤ k ∧ k < j + w then x.getLsbD (k - j) else false := by
  rw [BitVec.getLsbD_shiftLeft, BitVec.getLsbD_setWidth]
  split
  next hin => simp [hk, show ¬k < j by omega, show k - j < 64 by omega]
  next hout =>
    by_cases hlt : k < j
    · simp [hlt]
    · simp [BitVec.getLsbD_of_ge x (k - j) (by omega)]

section
variable {k : Nat} (hk : k < 64)
include hk

/-- 10 R34. -/
theorem getLsbD_flagsWord (f : Flags) : f.word.getLsbD k =
    if k = 0 then f.cf else if k = 1 then f.lt else if k = 2 then f.eq else if k = 3 then f.gt
    else if k = 4 then f.veq else false := by
  simp only [Flags.word, BitVec.getLsbD_or, getLsbD_bitAt _ hk]
  grind

/-- 10 R39. -/
theorem getLsbD_statusWord (t : Status) : t.word.getLsbD k =
    if k = 0 then t.fault else if k = 1 then t.drop else if k = 2 then t.buserr else if k = 3 then t.cfgv
    else if 8 ≤ k ∧ k < 16 then t.err.code.getLsbD (k - 8) else false := by
  simp only [Status.word, BitVec.getLsbD_or, getLsbD_bitAt _ hk, getLsbD_fieldAt _ hk]
  grind

/-- 10 R48. -/
theorem getLsbD_ctxInfoWord (x : Ctx) : x.infoWord.getLsbD k =
    if k = 0 then x.valid else if k = 1 then x.hostref else if 8 ≤ k ∧ k < 16 then x.logn.getLsbD (k - 8)
    else if 16 ≤ k ∧ k < 32 then x.refcnt.getLsbD (k - 16) else false := by
  simp only [Ctx.infoWord, BitVec.getLsbD_or, getLsbD_bitAt _ hk, getLsbD_fieldAt _ hk]
  grind

/-- 10 R49. -/
theorem getLsbD_ringInfoWord (x : Ring) : x.infoWord.getLsbD k =
    if k = 0 then x.bound else if k = 1 then decide (x.st = .ntt)
    else if 8 ≤ k ∧ k < 12 then x.ctx.getLsbD (k - 8) else false := by
  simp only [Ring.infoWord, BitVec.getLsbD_or, getLsbD_bitAt _ hk, getLsbD_fieldAt _ hk]
  grind

end

/-- 10 R42: the sizes of legal parameters fit the bytes of PARAMS, and the upper half is 0. -/
theorem paramsWord_bytes {p : Params} (hp : p.legal = true) :
    ((Params.word p).extractLsb' 0 8).toNat = p.nw ∧ ((Params.word p).extractLsb' 8 8).toNat = p.nring ∧
    ((Params.word p).extractLsb' 16 8).toNat = p.nctx ∧ ((Params.word p).extractLsb' 24 8).toNat = p.lognmax ∧
    (Params.word p).extractLsb' 32 32 = 0 := by
  simp only [Params.legal, Bool.and_eq_true, decide_eq_true_eq] at hp
  obtain ⟨⟨⟨⟨⟨-, hnw⟩, -, hnring⟩, -, hnctx⟩, hlog⟩, -⟩ := hp
  have hword : (Params.word p).toNat = p.nw + p.nring * 2 ^ 8 + p.nctx * 2 ^ 16 + p.lognmax * 2 ^ 24 :=
    (BitVec.toNat_ofNat _ _).trans (Nat.mod_eq_of_lt (by omega))
  have hbyte (k w : Nat) : ((Params.word p).extractLsb' k w).toNat =
      (p.nw + p.nring * 2 ^ 8 + p.nctx * 2 ^ 16 + p.lognmax * 2 ^ 24) / 2 ^ k % 2 ^ w := by
    rw [BitVec.extractLsb'_toNat, hword, Nat.shiftRight_eq_div_pow]
  refine ⟨?_, ?_, ?_, ?_, BitVec.eq_of_toNat_eq ?_⟩
  all_goals rw [hbyte]
  · omega
  · omega
  · omega
  · omega
  · rw [Nat.div_eq_of_lt (by omega)]; rfl

/-! ## The registers of the slots (20 R82) -/

section
variable (p : Params) {off : Nat} (i : Idx)

theorem regAt_ctxSlot (h : 0x100 ≤ off ∧ off < 0x200) : regAt p off =
    if off % 16 = 0 then .cxinfo (BitVec.ofNat 4 ((off - 0x100) / 16)) else .cxcid (BitVec.ofNat 4 ((off - 0x100) / 16)) := by
  unfold regAt
  repeat rw [if_neg (by omega)]
  exact if_pos h

theorem regAt_ringSlot (h : 0x200 ≤ off ∧ off < 0x300) : regAt p off =
    if off % 16 = 0 then .reinfo (BitVec.ofNat 4 ((off - 0x200) / 16)) else .recid (BitVec.ofNat 4 ((off - 0x200) / 16)) := by
  unfold regAt
  repeat rw [if_neg (by omega)]
  exact if_pos h

/-- The slot that an offset of a block of 16-byte slots names. -/
theorem slotAt_eq {base : Nat} (h : off - base = 16 * i.toNat ∨ off - base = 16 * i.toNat + 8) :
    BitVec.ofNat 4 ((off - base) / 16) = i := by
  have hslot : (off - base) / 16 = i.toNat := by omega
  rw [hslot, BitVec.ofNat_toNat, BitVec.setWidth_eq]

theorem regAt_cxinfo : regAt p (0x100 + 16 * i.toNat) = .cxinfo i := by
  have hi : i.toNat < 16 := i.isLt
  rw [regAt_ctxSlot p (by omega), if_pos (by omega), slotAt_eq i (by omega)]

theorem regAt_cxcid : regAt p (0x108 + 16 * i.toNat) = .cxcid i := by
  have hi : i.toNat < 16 := i.isLt
  rw [regAt_ctxSlot p (by omega), if_neg (by omega), slotAt_eq i (by omega)]

theorem regAt_reinfo : regAt p (0x200 + 16 * i.toNat) = .reinfo i := by
  have hi : i.toNat < 16 := i.isLt
  rw [regAt_ringSlot p (by omega), if_pos (by omega), slotAt_eq i (by omega)]

theorem regAt_recid : regAt p (0x208 + 16 * i.toNat) = .recid i := by
  have hi : i.toNat < 16 := i.isLt
  rw [regAt_ringSlot p (by omega), if_neg (by omega), slotAt_eq i (by omega)]

end

section
variable {s : State} {i : Idx}

theorem readReg_cxinfo (h : i.toNat < s.params.nctx) : s.readReg (.cxinfo i) = (s.cx.get i).infoWord := if_pos h

theorem readReg_cxcid (h : i.toNat < s.params.nctx) : s.readReg (.cxcid i) = (s.cx.get i).cid := if_pos h

theorem readReg_reinfo (h : i.toNat < s.params.nring) : s.readReg (.reinfo i) = (s.re.get i).infoWord := if_pos h

theorem readReg_recid (h : i.toNat < s.params.nring) : s.readReg (.recid i) = (s.re.get i).cid := if_pos h

end

/-- The summary word of a freed slot is 0 (42 R273). -/
theorem infoWord_of_isFree {x : Ctx} (h : x.IsFree) : x.infoWord = 0 := by
  obtain ⟨hvalid, hhost, hcnt, -, hlogn⟩ := h
  rw [Ctx.infoWord, hvalid, hhost, hcnt, hlogn]
  decide

/-- The summary word of an unbound slot is 0 (43 R329). -/
theorem infoWord_of_isUnbound {x : Ring} (h : x.IsUnbound) : x.infoWord = 0 := by
  obtain ⟨hbound, hctx, -, hst⟩ := h
  rw [Ring.infoWord, hbound, hctx, hst]
  decide

/-- Slots that do not exist and slots that are not valid read 0 (10 R51, 20 R82). -/
theorem readReg_ctx_eq_zero {s : State} (hinv : s.Inv) {c : Idx} (h : s.params.nctx ≤ c.toNat ∨ (s.cx.get c).valid = false) :
    s.readReg (.cxinfo c) = 0 ∧ s.readReg (.cxcid c) = 0 := by
  by_cases hc : c.toNat < s.params.nctx
  · have hfree := hinv.free_ctx c (h.resolve_left (Nat.not_le.mpr hc))
    obtain ⟨-, -, -, hcid, -⟩ := id hfree
    rw [readReg_cxinfo hc, readReg_cxcid hc]
    exact ⟨infoWord_of_isFree hfree, hcid⟩
  · exact ⟨if_neg hc, if_neg hc⟩

/-- Slots that do not exist and slots that are not bound read 0 (10 R53, 20 R82). -/
theorem readReg_ring_eq_zero {s : State} (hinv : s.Inv) {r : Idx} (h : s.params.nring ≤ r.toNat ∨ (s.re.get r).bound = false) :
    s.readReg (.reinfo r) = 0 ∧ s.readReg (.recid r) = 0 := by
  by_cases hr : r.toNat < s.params.nring
  · have hunbound := hinv.free_ring r (h.resolve_left (Nat.not_le.mpr hr))
    obtain ⟨-, -, hcid, -⟩ := id hunbound
    rw [readReg_reinfo hr, readReg_recid hr]
    exact ⟨infoWord_of_isUnbound hunbound, hcid⟩
  · exact ⟨if_neg hr, if_neg hr⟩

/-- SLEN fits its register: the staging buffer has at most 2^12 entries (00 R9, 10 R46). -/
theorem slen_lt {s : State} (hinv : s.Inv) : s.slen < 2 ^ 64 := by
  have hlegal := hinv.legal
  simp only [Params.legal, Bool.and_eq_true, decide_eq_true_eq] at hlegal
  obtain ⟨⟨-, hlog⟩, -⟩ := hlegal
  calc s.slen ≤ 2 ^ s.params.lognmax := hinv.slen_le
    _ ≤ 2 ^ 12 := Nat.pow_le_pow_right (by decide) hlog
    _ < 2 ^ 64 := by decide

/-- Settles O11: each register by the bits of its packed word; slots through the invariant. -/
theorem registerValues : Obligations.RegisterValues := by
  intro s hinv rd
  obtain ⟨hnw, hnring, hnctx, hlog, hhigh⟩ := paramsWord_bytes hinv.legal
  refine ⟨rfl, hnw, hnring, hnctx, hlog, hhigh, fun k hk => ?ctrl, fun k hk => getLsbD_statusWord hk _,
    ⟨rfl, rfl, rfl, rfl, rfl, rfl, rfl, rfl, rfl, rfl, rfl, rfl, rfl⟩, fun k hk => getLsbD_flagsWord hk _,
    rfl, rfl, rfl, rfl, ?slen, rfl, fun c hc => ?ctx, fun c hc => ?ctxFree, fun r hr => ?ring, fun r hr => ?ringFree⟩
  case ctrl =>
    refine (getLsbD_bitAt s.irqen hk).trans ?_
    split <;> simp_all
  case slen => exact (BitVec.toNat_ofNat _ _).trans (Nat.mod_eq_of_lt (slen_lt hinv))
  case ctx =>
    simp only [rd, regAt_cxinfo, regAt_cxcid, readReg_cxinfo hc, readReg_cxcid hc, and_true]
    exact fun k hk => getLsbD_ctxInfoWord hk _
  case ctxFree =>
    simp only [rd, regAt_cxinfo, regAt_cxcid]
    exact readReg_ctx_eq_zero hinv hc
  case ring =>
    simp only [rd, regAt_reinfo, regAt_recid, readReg_reinfo hr, readReg_recid hr, and_true]
    exact fun k hk => getLsbD_ringInfoWord hk _
  case ringFree =>
    simp only [rd, regAt_reinfo, regAt_recid]
    exact readReg_ring_eq_zero hinv hr

end Sys2Proof.Proofs
end

section
/-! What a command can do, said once for all 44 (spec 44 R400, 60 R413): it faults, or it has one of ten effects and counts. -/
namespace Sys2Proof.Proofs
open Sys2Proof Sys2Proof.Machine

/-! ## Conditions that are not met -/

theorem firstFault_cons_eq_none {k : Check} {ks : List Check} :
    firstFault (k :: ks) = none ↔ k.fails = false ∧ firstFault ks = none := by
  cases h : k.fails <;> simp [firstFault, h]

theorem code_ne_none_of_firstFault {ks : List Check} {code : ErrCode} (hcodes : ∀ k ∈ ks, k.code ≠ .none)
    (h : firstFault ks = some code) : code ≠ .none := by
  induction ks with
  | nil => cases h
  | cons k ks ih =>
    cases hk : k.fails with
    | true =>
      obtain rfl := Option.some.inj ((firstFault_cons_met hk ks).symm.trans h)
      exact hcodes k List.mem_cons_self
    | false =>
      exact ih (fun j hj => hcodes j (List.mem_cons_of_mem k hj)) ((firstFault_cons_unmet hk ks).symm.trans h)

section
variable (s : State) (i j : Idx) (st : Rep) (code : ErrCode)

@[simp] theorem checkConfigured_code : s.checkConfigured.code = .notConfigured := rfl
@[simp] theorem checkCanonical_code : (s.checkCanonical i).code = .nonCanonical := rfl
@[simp] theorem checkHostCtx_code : (s.checkHostCtx i).code = .invalidHandle := rfl
@[simp] theorem checkBound_code : (s.checkBound i).code = .invalidHandle := rfl
@[simp] theorem checkSameCid_code : (s.checkSameCid i j).code = .configurationMismatch := rfl
@[simp] theorem checkRep_code : (s.checkRep i st).code = .invalidState := rfl
@[simp] theorem checkStageLength_code : (s.checkStageLength i code).code = code := rfl
@[simp] theorem checkStageCanonical_code : (s.checkStageCanonical i).code = .nonCanonical := rfl

theorem checkConfigured_unmet_iff : s.checkConfigured.fails = false ↔ s.status.cfgv = true := by
  simp [State.checkConfigured]

theorem checkBound_unmet_iff : (s.checkBound i).fails = false ↔ (s.re.get i).bound = true := by
  simp [State.checkBound]

theorem checkSameCid_unmet_iff : (s.checkSameCid i j).fails = false ↔ (s.re.get i).cid = (s.re.get j).cid := by
  simp [State.checkSameCid]

end

/-! ## The effects -/

/-- The flags `g` after command `i` differ from `f` at most where 10 R35 to R37 let `i` write. -/
structure FlagsWritten (i : Instr) (f g : Flags) : Prop where
  carry : (∀ d a b, i ≠ .wadd d a b ∧ i ≠ .wsub d a b) → g.cf = f.cf
  compare : (∀ a b, i ≠ .wcmp a b) → g.lt = f.lt ∧ g.eq = f.eq ∧ g.gt = f.gt
  equal : (∀ a b, i ≠ .feq a b ∧ i ≠ .req a b) → g.veq = f.veq

theorem FlagsWritten.refl (i : Instr) (f : Flags) : FlagsWritten i f f :=
  ⟨fun _ => rfl, fun _ => ⟨rfl, rfl, rfl⟩, fun _ => rfl⟩

/-- The effect of a command `i` whose conditions were not met, from the state `s` after its reads to `t`, before it counts. The
hypotheses keep what the conditions, the invariant and well-formedness say of the operands. -/
inductive Effect (i : Instr) (s : State) : State → Prop
  /-- W registers and flags (40, 41; NOP; SGET, REQ, RGETC and RGETN). -/
  | computes {t : State} (hframe : t = { s with w := t.w, written := t.written, flags := t.flags })
      (hflags : FlagsWritten i s.flags t.flags) (hring : s.ringOutcome i = none) : Effect i s t
  /-- CFGW (41 R207). -/
  | configures (sel : CfgSel) (v : Word) (hcfgv : s.status.cfgv = false) (hring : s.ringOutcome i = none) :
      Effect i s { s with cfg := s.cfg.put sel v }
  /-- CFGCOMMIT (41 R209). -/
  | commits (hok : s.status.cfgv = true ∨ cfgOk s.cfg = true) (hring : s.ringOutcome i = none) :
      Effect i s { s with status := { s.status with cfgv := true } }
  /-- CFGINV (41 R210). -/
  | uncommits (hnone : ∀ c, (s.cx.get c).valid = false) (hring : s.ringOutcome i = none) :
      Effect i s { s with status := { s.status with cfgv := false } }
  /-- SCLR, SPUSH, SNTT and SINTT (42 R275, R276, R278, R279). -/
  | stages {t : State} (hframe : t = { s with stage := t.stage, slen := t.slen }) (hinv : s.Inv → t.Inv)
      (hring : s.ringOutcome i = none) : Effect i s t
  /-- CTXNEW (42 R271). -/
  | constructs (c : Idx) (logn : Nat) (hcfgv : s.status.cfgv = true) (hfree : (s.cx.get c).valid = false)
      (hmax : logn ≤ s.params.lognmax) (hroot : logn + 1 ≤ s.cfg.s.toNat) (hcid : s.nextCid ≠ BitVec.allOnes 64)
      (hwf : ∀ p, i.wf p = true → c.toNat < p.nctx) (hring : s.ringOutcome i = none) : Effect i s (s.newCtx c logn)
  /-- CTXREL (42 R272). -/
  | drops (c : Idx) (hvalid : (s.cx.get c).valid = true) (hring : s.ringOutcome i = none) : Effect i s (s.dropHold c)
  /-- The ring commands with a result (43 R322). -/
  | binds (rd c : Idx) (st : Rep) (d : List Word) (hring : s.ringOutcome i = some (rd, some st))
      (hwf : ∀ p, i.wf p = true → rd.toNat < p.nring)
      (hdata : s.Inv → (s.cx.get c).valid = true ∧ Elements s.cfg (s.degree c) d) : Effect i s (s.bindRing rd c st d)
  /-- RFREE (43 R329). -/
  | unbinds (rd : Idx) (hring : s.ringOutcome i = some (rd, none)) (hbound : (s.re.get rd).bound = true) :
      Effect i s (s.unbindRing rd)
  /-- RTONTT and RTOCOEF (43 R330, R331). -/
  | transitions (rd : Idx) (st : Rep) (d : List Word) (hring : s.ringOutcome i = some (rd, some st))
      (hbound : (s.re.get rd).bound = true) (hdata : s.Inv → Elements s.cfg (s.ringDegree rd) d) :
      Effect i s (s.putData rd st d)

theorem Effect.writes {i : Instr} {s : State} (hring : s.ringOutcome i = none) (d : Idx) (v : Word) :
    Effect i s (s.writeW d v) :=
  .computes rfl (.refl i s.flags) hring

/-- WADD and WSUB. -/
theorem Effect.writesCarry {i : Instr} {s : State} (hring : s.ringOutcome i = none)
    (hi : ¬∀ d a b, i ≠ .wadd d a b ∧ i ≠ .wsub d a b) (d : Idx) (v : Word) (b : Bool) :
    Effect i s ((s.writeW d v).setCF b) :=
  .computes rfl ⟨fun h => absurd h hi, fun _ => ⟨rfl, rfl, rfl⟩, fun _ => rfl⟩ hring

/-- FEQ and REQ. -/
theorem Effect.setsVEQ {i : Instr} {s : State} (hring : s.ringOutcome i = none)
    (hi : ¬∀ a b, i ≠ .feq a b ∧ i ≠ .req a b) (b : Bool) : Effect i s (s.setVEQ b) :=
  .computes rfl ⟨fun _ => rfl, fun _ => ⟨rfl, rfl, rfl⟩, fun h => absurd h hi⟩ hring

/-- WCMP. -/
theorem Effect.compares {i : Instr} {s : State} (hring : s.ringOutcome i = none) (hi : ¬∀ a b, i ≠ .wcmp a b) (a b : Word) :
    Effect i s (s.setCompare a b) :=
  .computes rfl ⟨fun _ => rfl, fun h => absurd h hi, fun _ => rfl⟩ hring

/-- WMUL. -/
theorem Effect.writesTwo {i : Instr} {s : State} (hring : s.ringOutcome i = none) (d e : Idx) (v x : Word) :
    Effect i s ((s.writeW d v).writeW e x) :=
  .computes rfl (.refl i s.flags) hring

/-- Command `i` faults with one of the twelve codes, or it has one of the effects and counts (60 R413). -/
def FaultsOrCompletes (i : Instr) (s : State) : Prop :=
  (∃ code rs, code ≠ .none ∧ Faults i s code rs) ∨
  (∃ rs u, Effect i (s.noteReads rs) u ∧ exec i s = .next u.complete)

section
variable {i : Instr} {s : State} {pre post : List Check} {rs : List Idx} {eff : State → State}

theorem faultsOrCompletes_of_command (hi : exec i s = command i pre rs post eff s)
    (hpre : ∀ k ∈ pre, k.code ≠ .none) (hpost : ∀ k ∈ post, k.code ≠ .none)
    (heff : firstFault pre = none → firstFault post = none → Effect i (s.noteReads rs) (eff (s.noteReads rs))) :
    FaultsOrCompletes i s := by
  cases h : firstFault pre with
  | some code => exact .inl ⟨code, [], code_ne_none_of_firstFault hpre h, faults_of_pre hi h⟩
  | none =>
    cases h' : firstFault post with
    | some code => exact .inl ⟨code, rs, code_ne_none_of_firstFault hpost h', faults_of_post hi h h'⟩
    | none => exact .inr ⟨rs, _, heff h h', hi.trans (command_ok h h')⟩

theorem faultsOrCompletes_of_effect {u : State} (hi : exec i s = .next u.complete) (heff : Effect i (s.noteReads rs) u) :
    FaultsOrCompletes i s :=
  .inr ⟨rs, u, heff, hi⟩

/-- A command that reads no W register. -/
theorem faultsOrCompletes_of_checks (hi : exec i s = command i pre [] [] eff s) (hpre : ∀ k ∈ pre, k.code ≠ .none)
    (heff : firstFault pre = none → Effect i s (eff s)) : FaultsOrCompletes i s :=
  faultsOrCompletes_of_command hi hpre nofun fun h _ => by rw [State.noteReads_nil]; exact heff h

/-- A field command that writes one register. -/
theorem faultsOrCompletes_of_field {cs : List Idx} {d : Idx} {f : State → Word}
    (hi : exec i s = command i [s.checkConfigured] rs (cs.map s.checkCanonical) (fun t => t.writeW d (f t)) s)
    (hring : ∀ u : State, u.ringOutcome i = none) : FaultsOrCompletes i s :=
  faultsOrCompletes_of_command hi (by simp) (by simp) fun _ _ => .writes (hring _) _ _

end

/-! ## The effects of the staging, context and ring commands, under their conditions -/

section
variable {c : FieldCfg} {n : Nat} {x y : List Word}

theorem Elements.map (hx : Elements c n x) {f : Word → Word} (hf : ∀ u, u.toNat < c.q.toNat → (f u).toNat < c.q.toNat) :
    Elements c n (x.map f) :=
  ⟨hx.length_map f, hx.canonical.map hf⟩

theorem Elements.zipWith (hx : Elements c n x) (hy : Elements c n y) {f : Word → Word → Word}
    (hf : ∀ u v, u.toNat < c.q.toNat → v.toNat < c.q.toNat → (f u v).toNat < c.q.toNat) :
    Elements c n (List.zipWith f x y) :=
  ⟨hx.length_zipWith hy f, hx.canonical.zipWith hy.canonical hf⟩

theorem zero_toNat_lt {q : Nat} (hq : 0 < q) : (0 : Word).toNat < q := by
  rwa [BitVec.ofNat_eq_ofNat, BitVec.toNat_zero]

/-- A constant polynomial with a canonical constant. -/
theorem Elements.constant (hq : 0 < c.q.toNat) {u : Word} (hu : u.toNat < c.q.toNat) (hn : 0 < n) :
    Elements c n (u :: List.replicate (n - 1) 0) where
  length := by rw [List.length_cons, List.length_replicate, Nat.sub_add_cancel hn]
  canonical v hv := by
    rcases List.mem_cons.mp hv with rfl | hv
    · exact hu
    · rw [List.eq_of_mem_replicate hv]; exact zero_toNat_lt hq

theorem Elements.zero (hq : 0 < c.q.toNat) (n : Nat) : Elements c n (List.replicate n 0) where
  length := List.length_replicate
  canonical v hv := by rw [List.eq_of_mem_replicate hv]; exact zero_toNat_lt hq

end

section
variable {i : Instr} {s : State} {c rd ra rb : Idx} {st : Rep}

/-- SNTT and SINTT replace the staged sequence by one of the same length. -/
theorem effect_rawTransform {d : List Word} (hring : s.ringOutcome i = none)
    (hd : s.Inv → (s.cx.get c).valid = true → d.length = s.degree c)
    (h : firstFault [s.checkHostCtx c, s.checkStageLength c .lengthMismatch, s.checkStageCanonical c] = none) :
    Effect i s (s.putStage d) := by
  simp only [firstFault_cons_eq_none, checkHostCtx_unmet_iff] at h
  obtain ⟨⟨hv, -⟩, -⟩ := h
  exact .stages rfl (fun hinv => hinv.putStage ((hd hinv hv).trans_le (hinv.degree_le hv))) hring

/-- RFROMC and RFROMN. -/
theorem effect_fromStage (hring : s.ringOutcome i = some (rd, some st)) (hwf : ∀ p, i.wf p = true → rd.toNat < p.nring)
    (h : firstFault [s.checkHostCtx c, s.checkStageLength c .constructionError, s.checkStageCanonical c] = none) :
    Effect i s (s.bindRing rd c st (s.staged (s.degree c))) := by
  simp only [firstFault_cons_eq_none, checkHostCtx_unmet_iff, checkStageCanonical_unmet_iff] at h
  obtain ⟨⟨hv, -⟩, -, hcan, -⟩ := h
  exact .binds rd c st _ hring hwf fun hinv => ⟨hv, length_take_stage hinv hv, hcan⟩

/-- RZERO and RONE: a constant that is canonical under a legal configuration. -/
theorem effect_constant {d : List Word} (hring : s.ringOutcome i = some (rd, some .coefficient))
    (hwf : ∀ p, i.wf p = true → rd.toNat < p.nring) (hd : cfgOk s.cfg = true → Elements s.cfg (s.degree c) d)
    (h : firstFault [s.checkHostCtx c] = none) : Effect i s (s.bindRing rd c .coefficient d) := by
  simp only [firstFault_cons_eq_none, checkHostCtx_unmet_iff] at h
  obtain ⟨⟨hv, -⟩, -⟩ := h
  exact .binds rd c _ d hring hwf fun hinv => ⟨hv, hd (hinv.cfgOk_of_valid hv)⟩

/-- A result bound to the context of the bound slot `ra`. -/
theorem effect_derived {d : List Word} (hring : s.ringOutcome i = some (rd, some st))
    (hwf : ∀ p, i.wf p = true → rd.toNat < p.nring) (ha : (s.re.get ra).bound = true)
    (hd : s.Inv → Elements s.cfg (s.ringDegree ra) d) : Effect i s (s.bindRing rd (s.re.get ra).ctx st d) :=
  .binds rd _ st d hring hwf fun hinv => ⟨(hinv.bound_ctx ra ha).1, hd hinv⟩

/-- RADD, RSUB and RMUL: an operation that keeps elements canonical, on two sequences of the operands' degrees. -/
theorem effect_pair {f : Word → Word → Word} {x y : List Word} (hring : s.ringOutcome i = some (rd, some st))
    (hwf : ∀ p, i.wf p = true → rd.toNat < p.nring)
    (hf : ∀ u v, u.toNat < s.cfg.q.toNat → v.toNat < s.cfg.q.toNat → (f u v).toNat < s.cfg.q.toNat)
    (hx : s.Inv → (s.re.get ra).bound = true → Elements s.cfg (s.ringDegree ra) x)
    (hy : s.Inv → (s.re.get rb).bound = true → Elements s.cfg (s.ringDegree rb) y)
    (h : firstFault [s.checkBound ra, s.checkBound rb, s.checkSameCid ra rb] = none) :
    Effect i s (s.bindRing rd (s.re.get ra).ctx st (List.zipWith f x y)) := by
  simp only [firstFault_cons_eq_none, checkBound_unmet_iff, checkSameCid_unmet_iff] at h
  obtain ⟨ha, hb, hcid, -⟩ := h
  refine effect_derived hring hwf ha fun hinv => (hx hinv ha).zipWith ?_ hf
  rw [← ringDegree_eq_of_cid_eq hinv ha hb hcid]
  exact hy hinv hb

end

/-! ## Every command -/

theorem lt_nring_of_has {p : Params} {r : Idx} (h : p.has .r r = true) : r.toNat < p.nring := of_decide_eq_true h

theorem lt_nctx_of_has {p : Params} {c : Idx} (h : p.has .c c = true) : c.toNat < p.nctx := of_decide_eq_true h

/-- 44 R400, 60 R413: all that a command can do. -/
theorem faultsOrCompletes (i : Instr) (s : State) : FaultsOrCompletes i s := by
  cases i with
  | nop => exact faultsOrCompletes_of_effect (exec_nop s) (.computes rfl (.refl _ _) rfl)
  | cfgw sel wa =>
    refine faultsOrCompletes_of_command (exec_cfgw s sel wa) (by simp) nofun fun h _ => .configures sel _ ?_ rfl
    exact (firstFault_cons_eq_none.mp h).1
  | cfgr wd sel => exact faultsOrCompletes_of_effect (exec_cfgr s wd sel) (.writes rfl _ _)
  | cfgcommit =>
    refine faultsOrCompletes_of_checks (exec_cfgcommit s) (by simp) fun h => .commits ?_ rfl
    simpa [or_iff_not_imp_left] using (firstFault_cons_eq_none.mp h).1
  | cfginv =>
    refine faultsOrCompletes_of_checks (exec_cfginv s) (by simp) fun h => .uncommits ?_ rfl
    exact State.anyCtxValid_eq_false (firstFault_cons_eq_none.mp h).1
  | wadd wd wa wb =>
    exact faultsOrCompletes_of_effect (exec_wadd s wd wa wb)
      (.writesCarry rfl (fun h => (h wd wa wb).1 rfl) _ _ _)
  | wsub wd wa wb =>
    exact faultsOrCompletes_of_effect (exec_wsub s wd wa wb)
      (.writesCarry rfl (fun h => (h wd wa wb).2 rfl) _ _ _)
  | wcmp wa wb => exact faultsOrCompletes_of_effect (exec_wcmp s wa wb) (.compares rfl (fun h => h wa wb rfl) _ _)
  | wsel wd wa wb => exact faultsOrCompletes_of_effect (exec_wsel s wd wa wb) (.writes rfl _ _)
  | wmul wlo wa wb whi => exact faultsOrCompletes_of_effect (exec_wmul s wlo wa wb whi) (.writesTwo rfl _ _ _ _)
  | wli wd imm => exact faultsOrCompletes_of_effect (exec_wli s wd imm) (.writes rfl _ _)
  | wmov wd wa => exact faultsOrCompletes_of_effect (exec_wmov s wd wa) (.writes rfl _ _)
  | fenc wd wa => exact faultsOrCompletes_of_field (exec_fenc s wd wa) fun _ => rfl
  | fdec wd wa => exact faultsOrCompletes_of_field (exec_fdec s wd wa) fun _ => rfl
  | fadd wd wa wb => exact faultsOrCompletes_of_field (exec_fadd s wd wa wb) fun _ => rfl
  | fsub wd wa wb => exact faultsOrCompletes_of_field (exec_fsub s wd wa wb) fun _ => rfl
  | fmul wd wa wb => exact faultsOrCompletes_of_field (exec_fmul s wd wa wb) fun _ => rfl
  | fneg wd wa => exact faultsOrCompletes_of_field (exec_fneg s wd wa) fun _ => rfl
  | feq wa wb =>
    exact faultsOrCompletes_of_command (exec_feq s wa wb) (by simp) (by simp) fun _ _ =>
      .setsVEQ rfl (fun h => (h wa wb).1 rfl) _
  | fzero wd => exact faultsOrCompletes_of_field (exec_fzero s wd) fun _ => rfl
  | fone wd => exact faultsOrCompletes_of_field (exec_fone s wd) fun _ => rfl
  | sclr =>
    exact faultsOrCompletes_of_checks (exec_sclr s) nofun fun _ =>
      .stages rfl (fun hinv => hinv.congr rfl rfl hinv.err_iff rfl rfl rfl rfl rfl (Nat.zero_le _)) rfl
  | spush wa =>
    refine faultsOrCompletes_of_command (exec_spush s wa) (by simp) nofun fun h _ => .stages rfl (fun hinv => ?_) rfl
    exact hinv.pushStage _ (of_decide_eq_false (firstFault_cons_eq_none.mp h).1)
  | sget wd idx => exact faultsOrCompletes_of_checks (exec_sget s wd idx) (by simp) fun _ => .writes rfl _ _
  | sntt ca =>
    exact faultsOrCompletes_of_checks (exec_sntt s ca) (by simp) (effect_rawTransform rfl fun hinv hv =>
      nttFwd_length _ _ _ (length_take_stage hinv hv))
  | sintt ca =>
    exact faultsOrCompletes_of_checks (exec_sintt s ca) (by simp) (effect_rawTransform rfl fun hinv hv =>
      nttInv_length _ _ _ _ (length_take_stage hinv hv))
  | ctxnew cd logn =>
    refine faultsOrCompletes_of_checks (exec_ctxnew s cd logn) (by simp) fun h => ?_
    simp only [firstFault_cons_eq_none, checkConfigured_unmet_iff, decide_eq_false_iff_not, Nat.not_lt] at h
    obtain ⟨hcfgv, hfree, hmax, hroot, hcid, -⟩ := h
    exact .constructs cd _ hcfgv hfree hmax hroot hcid (fun _ => lt_nctx_of_has) rfl
  | ctxrel cd =>
    refine faultsOrCompletes_of_checks (exec_ctxrel s cd) (by simp) fun h => .drops cd ?_ rfl
    exact ((checkHostCtx_unmet_iff s cd).mp (firstFault_cons_eq_none.mp h).1).1
  | rfromc rd ca =>
    exact faultsOrCompletes_of_checks (exec_rfromc s rd ca) (by simp)
      (effect_fromStage rfl fun _ h => lt_nring_of_has (Bool.and_elim_left h))
  | rfromn rd ca =>
    exact faultsOrCompletes_of_checks (exec_rfromn s rd ca) (by simp)
      (effect_fromStage rfl fun _ h => lt_nring_of_has (Bool.and_elim_left h))
  | rzero rd ca =>
    exact faultsOrCompletes_of_checks (exec_rzero s rd ca) (by simp)
      (effect_constant rfl (fun _ h => lt_nring_of_has (Bool.and_elim_left h)) fun hok => .zero (cfgOk_q_pos hok) _)
  | rone rd ca =>
    refine faultsOrCompletes_of_checks (exec_rone s rd ca) (by simp)
      (effect_constant rfl (fun _ h => lt_nring_of_has (Bool.and_elim_left h)) fun hok => ?_)
    refine .constant (cfgOk_q_pos hok) ?_ (degree_pos s ca)
    rw [cfgOk_r1 hok]
    exact Nat.mod_lt _ (cfgOk_q_pos hok)
  | rcopy rd ra =>
    refine faultsOrCompletes_of_checks (exec_rcopy s rd ra) (by simp) fun h => ?_
    have ha := (checkBound_unmet_iff s ra).mp (firstFault_cons_eq_none.mp h).1
    exact effect_derived rfl (fun _ h => lt_nring_of_has (Bool.and_elim_left h)) ha fun hinv => ringData_elements hinv ha
  | rfree rd =>
    refine faultsOrCompletes_of_checks (exec_rfree s rd) (by simp) fun h => .unbinds rd rfl ?_
    exact (checkBound_unmet_iff s rd).mp (firstFault_cons_eq_none.mp h).1
  | rtontt rd =>
    refine faultsOrCompletes_of_checks (exec_rtontt s rd) (by simp) fun h => ?_
    have hb := (checkBound_unmet_iff s rd).mp (firstFault_cons_eq_none.mp h).1
    exact .transitions rd _ _ rfl hb fun hinv => nttView_elements hinv hb
  | rtocoef rd =>
    refine faultsOrCompletes_of_checks (exec_rtocoef s rd) (by simp) fun h => ?_
    have hb := (checkBound_unmet_iff s rd).mp (firstFault_cons_eq_none.mp h).1
    exact .transitions rd _ _ rfl hb fun hinv => coefView_elements hinv hb
  | radd rd ra rb =>
    exact faultsOrCompletes_of_checks (exec_radd s rd ra rb) (by simp)
      (effect_pair rfl (fun _ h => lt_nring_of_has (Bool.and_elim_left (Bool.and_elim_left h))) (fun _ _ => fadd_lt)
        addend_elements addend_elements)
  | rsub rd ra rb =>
    exact faultsOrCompletes_of_checks (exec_rsub s rd ra rb) (by simp)
      (effect_pair rfl (fun _ h => lt_nring_of_has (Bool.and_elim_left (Bool.and_elim_left h))) (fun _ _ => fsub_lt)
        addend_elements addend_elements)
  | rmul rd ra rb =>
    exact faultsOrCompletes_of_checks (exec_rmul s rd ra rb) (by simp)
      (effect_pair rfl (fun _ h => lt_nring_of_has (Bool.and_elim_left (Bool.and_elim_left h))) (fun _ v hu _ => fmul_lt hu v)
        nttView_elements nttView_elements)
  | rneg rd ra =>
    refine faultsOrCompletes_of_checks (exec_rneg s rd ra) (by simp) fun h => ?_
    have ha := (checkBound_unmet_iff s ra).mp (firstFault_cons_eq_none.mp h).1
    exact effect_derived rfl (fun _ h => lt_nring_of_has (Bool.and_elim_left h)) ha fun hinv =>
      (ringData_elements hinv ha).map fun _ => fneg_lt
  | rscale rd ra wb =>
    refine faultsOrCompletes_of_command (exec_rscale s rd ra wb) (by simp) (by simp) fun h _ => ?_
    have ha := (checkBound_unmet_iff s ra).mp (firstFault_cons_eq_none.mp h).1
    exact effect_derived (s := s.noteReads [wb]) rfl (fun _ h => lt_nring_of_has (Bool.and_elim_left (Bool.and_elim_left h))) ha
      fun hinv => (ringData_elements hinv ha).map fun _ hu => fmul_lt hu _
  | req ra rb =>
    exact faultsOrCompletes_of_checks (exec_req s ra rb) (by simp) fun _ =>
      .setsVEQ rfl (fun h => (h ra rb).2 rfl) _
  | rgetc wd ra idx => exact faultsOrCompletes_of_checks (exec_rgetc s wd ra idx) (by simp) fun _ => .writes rfl _ _
  | rgetn wd ra idx => exact faultsOrCompletes_of_checks (exec_rgetn s wd ra idx) (by simp) fun _ => .writes rfl _ _

end Sys2Proof.Proofs
end

section
/-! What follows for every command from its ten possible effects: what it leaves alone (spec 60 R413), the flags it writes (10 R35 to
R37), the ring slot it writes (43 R340), and the invariant (10 R56). -/
namespace Sys2Proof.Proofs
open Sys2Proof Sys2Proof.Machine

section
variable {i : Instr} {s t : State}

/-! ## What an effect leaves alone (60 R413) -/

/-- No effect touches the fault record, the counter, the bus or the host's side, and of STATUS only CFGV. -/
theorem Effect.frame (h : Effect i s t) : t = { s with
    w := t.w, written := t.written, flags := t.flags, status := { s.status with cfgv := t.status.cfgv }, cfg := t.cfg
    cx := t.cx, nextCid := t.nextCid, re := t.re, stage := t.stage, slen := t.slen, draws := t.draws } := by
  cases h with
  | computes hframe _ _ => rw [hframe]
  | stages hframe _ _ => rw [hframe]
  | drops c _ _ => rw [(s.dropHold_frame c).1]
  | binds rd c st d _ _ _ => rw [s.bindRing_frame rd c st d]
  | unbinds rd _ _ => rw [(unbindRing_frame s rd).1]
  | _ => rfl

/-- Settles O8: a fault is recorded whole, and what an effect and the counting change is in their frames. -/
theorem commandCompletesOrFaultsWhole : Obligations.CommandCompletesOrFaultsWhole := by
  intro i s
  refine (faultsOrCompletes i s).imp_right ?_
  rintro ⟨rs, u, heff, hexec⟩
  refine ⟨u.complete, hexec, ?_⟩
  rw [heff.frame]
  exact ⟨rfl, rfl, rfl, rfl, rfl, rfl, rfl, rfl, rfl⟩

/-- The two ways a command can answer `t` (44 R400). -/
theorem exec_cases (h : exec i s = .next t) :
    (∃ code rs, code ≠ .none ∧ t = (s.noteReads rs).recordFault code i.cmdValue) ∨
    (∃ rs u, Effect i (s.noteReads rs) u ∧ t = u.complete) := by
  rcases faultsOrCompletes i s with ⟨code, rs, hcode, hfault⟩ | ⟨rs, u, heff, hexec⟩
  · exact .inl ⟨code, rs, hcode, Host.Outcome.next.inj (h.symm.trans hfault)⟩
  · exact .inr ⟨rs, u, heff, Host.Outcome.next.inj (h.symm.trans hexec)⟩

/-! ## Flags (10 R35 to R37) -/

theorem Effect.flagsWritten (h : Effect i s t) : FlagsWritten i s.flags t.flags := by
  cases h with
  | computes _ hflags _ => exact hflags
  | stages hframe _ _ => exact congrArg State.flags hframe ▸ .refl i _
  | drops c _ _ => exact congrArg State.flags (s.dropHold_frame c).1 ▸ .refl i _
  | binds rd c st d _ _ _ => exact congrArg State.flags (s.bindRing_frame rd c st d) ▸ .refl i _
  | unbinds rd _ _ => exact congrArg State.flags (unbindRing_frame s rd).1 ▸ .refl i _
  | _ => exact .refl i _

theorem exec_flagsWritten (h : exec i s = .next t) : FlagsWritten i s.flags t.flags := by
  rcases exec_cases h with ⟨code, rs, -, rfl⟩ | ⟨rs, u, heff, rfl⟩
  · exact .refl i _
  · exact heff.flagsWritten

/-! ## Ring slots (43 R340) -/

/-- The slot of the table ends in its condition, and no other ring slot changes. -/
def RingsAsTabled (i : Instr) (s t : State) : Prop :=
  match s.ringOutcome i with
  | none => t.re = s.re
  | some (rd, cond) => (t.re.get rd).condition = cond ∧ ∀ r, r ≠ rd → t.re.get r = s.re.get r

theorem ringsAsTabled_of_none (hring : s.ringOutcome i = none) (h : t.re = s.re) : RingsAsTabled i s t := by
  simpa [RingsAsTabled, hring]

/-- A command whose destination is replaced by a slot in the tabled condition. -/
theorem ringsAsTabled_of_put {rd : Idx} {cond : Option Rep} {x : Ring} (hring : s.ringOutcome i = some (rd, cond))
    (h : t.re = s.re.put rd x) (hx : x.condition = cond) : RingsAsTabled i s t := by
  simp only [RingsAsTabled, hring, h, Bank.get_put_same]
  exact ⟨hx, fun r hr => Bank.get_put_ne _ _ hr⟩

theorem condition_of_bound {x : Ring} (h : x.bound = true) : x.condition = some x.st := if_pos h

theorem rebind_bound (s : State) (rd c : Idx) : ((s.rebind rd c).re.get rd).bound = true := by
  rw [s.rebind_re, Bank.get_put_same]

theorem Effect.ringsAsTabled (h : Effect i s t) : RingsAsTabled i s t := by
  cases h with
  | computes hframe _ hring => exact ringsAsTabled_of_none hring (congrArg State.re hframe :)
  | stages hframe _ hring => exact ringsAsTabled_of_none hring (congrArg State.re hframe :)
  | drops c _ hring => exact ringsAsTabled_of_none hring (congrArg State.re (s.dropHold_frame c).1 :)
  | binds rd c st d hring _ _ =>
    exact ringsAsTabled_of_put hring (s.bindRing_re rd c st d) (condition_of_bound (rebind_bound s rd c))
  | unbinds rd hring _ => exact ringsAsTabled_of_put hring (unbindRing_re s rd) rfl
  | transitions rd st d hring hbound _ => exact ringsAsTabled_of_put hring (s.putData_re rd st d) (condition_of_bound hbound)
  | configures _ _ _ hring | commits _ hring | uncommits _ hring | constructs _ _ _ _ _ _ _ _ hring =>
    exact ringsAsTabled_of_none hring rfl

theorem add_one_ne_self (x : BitVec 64) : x + 1 ≠ x := by
  intro h
  bv_omega

/-- Settles O22: a command counts exactly when it has its effect; RFREE, RTONTT and RTOCOEF check first that the slot is bound. -/
theorem ringSlotsChangeOnlyAsTabled : Obligations.RingSlotsChangeOnlyAsTabled := by
  refine ⟨fun i s t h => ?_, fun s rd h => ⟨faults_of_pre (exec_rfree s rd) (firstFault_unbound h _),
    faults_of_pre (exec_rtontt s rd) (firstFault_unbound h _), faults_of_pre (exec_rtocoef s rd) (firstFault_unbound h _)⟩⟩
  rcases exec_cases h with ⟨code, rs, -, rfl⟩ | ⟨rs, u, heff, rfl⟩
  · exact ⟨fun _ => rfl, fun hcount => absurd hcount.symm (add_one_ne_self s.cmdcount)⟩
  · have hcount : u.complete.cmdcount = s.cmdcount + 1 := by
      rw [heff.frame]
      rfl
    exact ⟨fun hsame => absurd (hcount.symm.trans hsame) (add_one_ne_self s.cmdcount), fun _ => heff.ringsAsTabled⟩

/-! ## The invariant (10 R56) -/

/-- Every effect of a well-formed command keeps the invariant. -/
theorem Effect.inv (h : Effect i s t) (hinv : s.Inv) (hwf : i.wf s.params = true) : t.Inv := by
  cases h with
  | computes hframe _ _ =>
    rw [hframe]
    exact hinv.same rfl rfl rfl rfl rfl rfl rfl rfl
  | configures sel v hcfgv _ =>
    have huncommitted := hinv.configure (hinv.none_valid hcfgv) (s.cfg.put sel v) false nofun
    exact huncommitted.same rfl (by rw [← hcfgv]) rfl rfl rfl rfl rfl rfl
  | commits hok _ => exact hinv.commit hok
  | uncommits hnone _ => exact hinv.configure hnone s.cfg false nofun
  | stages _ hkeeps _ => exact hkeeps hinv
  | constructs c logn hcfgv hfree hmax hroot hcid hexists _ =>
    exact hinv.newCtx hcfgv hfree hmax hroot hcid (hexists s.params hwf)
  | drops c hvalid _ => exact hinv.dropHold hvalid
  | binds rd c st d _ hexists hdata =>
    obtain ⟨hvalid, helements⟩ := hdata hinv
    have hbinds := s.bindRing_binds [] rd c st d hinv.refcnt_ne_zero
    rw [State.noteReads_nil] at hbinds
    have hcounted := hinv.binds hbinds hvalid helements.length helements.canonical (hexists s.params hwf)
    exact hcounted.same rfl rfl rfl rfl rfl rfl rfl rfl
  | unbinds rd _ hbound => exact hinv.unbindRing hbound
  | transitions rd st d _ hbound hdata => exact hinv.putData hbound (hdata hinv).length (hdata hinv).canonical

/-- Every well-formed command keeps the invariant, whether it completes or faults. -/
theorem exec_inv (h : exec i s = .next t) (hinv : s.Inv) (hwf : i.wf s.params = true) : t.Inv := by
  rcases exec_cases h with ⟨code, rs, hcode, rfl⟩ | ⟨rs, u, heff, rfl⟩
  · exact (hinv.noteReads rs).recordFault hcode _
  · exact (heff.inv (hinv.noteReads rs) hwf).complete

end

end Sys2Proof.Proofs
end

section
/-! Which commands read a flag (spec 10 R35 to R37): a command run on two states that differ in the flags only. -/
namespace Sys2Proof.Proofs
open Sys2Proof Sys2Proof.Machine

/-- `t` and `t'` answer one command on `s` and on `s` with the flags `f`: they agree but for the flags, and each flag is the same
in both, or is in each what it was before. -/
structure FlagBlind (s : State) (f : Flags) (t t' : State) : Prop where
  rest : { t' with flags := t.flags } = t
  cf : t'.flags.cf = t.flags.cf ∨ t'.flags.cf = f.cf ∧ t.flags.cf = s.flags.cf
  lt : t'.flags.lt = t.flags.lt ∨ t'.flags.lt = f.lt ∧ t.flags.lt = s.flags.lt
  eq : t'.flags.eq = t.flags.eq ∨ t'.flags.eq = f.eq ∧ t.flags.eq = s.flags.eq
  gt : t'.flags.gt = t.flags.gt ∨ t'.flags.gt = f.gt ∧ t.flags.gt = s.flags.gt
  veq : t'.flags.veq = t.flags.veq ∨ t'.flags.veq = f.veq ∧ t.flags.veq = s.flags.veq

/-! ## Updates that look at no flag -/

section
variable {s : State} {f : Flags} {t t' : State}

/-- The flags are carried along as they are. -/
theorem FlagBlind.carried (h : t.flags = s.flags) : FlagBlind s f t { t with flags := f } :=
  ⟨rfl, .inr ⟨rfl, by rw [h]⟩, .inr ⟨rfl, by rw [h]⟩, .inr ⟨rfl, by rw [h]⟩, .inr ⟨rfl, by rw [h]⟩,
    .inr ⟨rfl, by rw [h]⟩⟩

theorem FlagBlind.refl (s : State) (f : Flags) : FlagBlind s f s { s with flags := f } := .carried rfl

theorem FlagBlind.writeW (h : FlagBlind s f t t') (d : Idx) (v : Word) : FlagBlind s f (t.writeW d v) (t'.writeW d v) :=
  ⟨congrArg (fun u : State => u.writeW d v) h.rest, h.cf, h.lt, h.eq, h.gt, h.veq⟩

theorem FlagBlind.setCF (h : FlagBlind s f t t') (b : Bool) : FlagBlind s f (t.setCF b) (t'.setCF b) :=
  ⟨congrArg (fun u : State => u.setCF b) h.rest, .inl rfl, h.lt, h.eq, h.gt, h.veq⟩

theorem FlagBlind.setCompare (h : FlagBlind s f t t') (a b : Word) : FlagBlind s f (t.setCompare a b) (t'.setCompare a b) :=
  ⟨congrArg (fun u : State => u.setCompare a b) h.rest, h.cf, .inl rfl, .inl rfl, .inl rfl, h.veq⟩

theorem FlagBlind.setVEQ (h : FlagBlind s f t t') (b : Bool) : FlagBlind s f (t.setVEQ b) (t'.setVEQ b) :=
  ⟨congrArg (fun u : State => u.setVEQ b) h.rest, h.cf, h.lt, h.eq, h.gt, .inl rfl⟩

theorem FlagBlind.complete (h : FlagBlind s f t t') : FlagBlind s f t.complete t'.complete :=
  ⟨congrArg State.complete h.rest, h.cf, h.lt, h.eq, h.gt, h.veq⟩

/-! ## The lifetime of contexts and the binding of results look at no flag (42 R272 to R274, 43 R322, R329) -/

theorem ite_flags (p : Prop) [Decidable p] (u v : State) (f : Flags) :
    (if p then { u with flags := f } else { v with flags := f }) = { (if p then u else v) with flags := f } :=
  (apply_ite (fun t : State => { t with flags := f }) p u v).symm

theorem release_flags (s : State) (f : Flags) (c : Idx) :
    State.release { s with flags := f } c = { s.release c with flags := f } :=
  ite_flags _ (State.freeCtx (s.putCtx c _) c) (s.putCtx c _) f

theorem rebind_flags (s : State) (f : Flags) (rd c : Idx) :
    State.rebind { s with flags := f } rd c = { s.rebind rd c with flags := f } := by
  have hdrop : (if (s.re.get rd).bound then State.release { s.acquire c with flags := f } (s.re.get rd).ctx
        else { s.acquire c with flags := f })
      = { (if (s.re.get rd).bound then (s.acquire c).release (s.re.get rd).ctx else s.acquire c) with flags := f } := by
    rw [release_flags]
    exact ite_flags _ _ _ f
  exact congrArg (fun u : State => u.putRing rd { u.re.get rd with bound := true, ctx := c, cid := (u.cx.get c).cid }) hdrop

theorem FlagBlind.bindRing (s : State) (f : Flags) (rd c : Idx) (st : Rep) (d : List Word) :
    FlagBlind s f (s.bindRing rd c st d) (State.bindRing { s with flags := f } rd c st d) := by
  have hflags : State.bindRing { s with flags := f } rd c st d = { s.bindRing rd c st d with flags := f } :=
    congrArg (fun u : State => u.putData rd st d) (rebind_flags s f rd c)
  rw [hflags]
  exact .carried (t := s.bindRing rd c st d) (congrArg State.flags (s.rebind_frame rd c) :)

theorem FlagBlind.unbindRing (s : State) (f : Flags) (rd : Idx) :
    FlagBlind s f (s.unbindRing rd) (State.unbindRing { s with flags := f } rd) := by
  have hflags : State.unbindRing { s with flags := f } rd = { s.unbindRing rd with flags := f } :=
    release_flags { s with re := s.re.put rd (Ring.cleared s.params.nmax s.draws rd.toNat), draws := s.draws + 1 } f _
  rw [hflags]
  exact .carried (t := s.unbindRing rd) (congrArg State.flags (unbindRing_frame s rd).1 :)

theorem FlagBlind.dropHold (s : State) (f : Flags) (c : Idx) :
    FlagBlind s f (s.dropHold c) (State.dropHold { s with flags := f } c) := by
  have hflags : State.dropHold { s with flags := f } c = { s.dropHold c with flags := f } := by
    exact ite_flags _ (State.freeCtx (s.putCtx c _) c) (s.putCtx c _) f
  rw [hflags]
  exact .carried (t := s.dropHold c) (congrArg State.flags (s.dropHold_frame c).1 :)

end

/-! ## Every command -/

section
variable {i : Instr} {s : State} {f : Flags} {t t' : State}

/-- A command whose conditions look at no flag, with an effect that looks at none. -/
theorem flagBlind_of_command {pre post : List Check} {rs : List Idx} {eff : State → State}
    (hi : exec i s = command i pre rs post eff s)
    (hi' : exec i { s with flags := f } = command i pre rs post eff { s with flags := f })
    (heff : ∀ u : State, FlagBlind u f (eff u) (eff { u with flags := f }))
    (h : exec i s = .next t) (h' : exec i { s with flags := f } = .next t') : FlagBlind s f t t' := by
  rw [hi] at h
  rw [hi'] at h'
  cases hpre : firstFault pre with
  | some code =>
    rw [command_pre_fault hpre] at h h'
    cases h
    cases h'
    exact .carried rfl
  | none =>
    cases hpost : firstFault post with
    | some code =>
      rw [command_post_fault hpre hpost] at h h'
      cases h
      cases h'
      exact .carried rfl
    | none =>
      rw [command_ok hpre hpost] at h h'
      cases h
      cases h'
      obtain ⟨hrest, hcf, hlt, heq, hgt, hveq⟩ := heff (s.noteReads rs)
      exact FlagBlind.complete ⟨hrest, hcf, hlt, heq, hgt, hveq⟩

/-- A command without conditions. -/
theorem flagBlind_of_effect {rs : List Idx} {u u' : State} (hi : exec i s = .next u.complete)
    (hi' : exec i { s with flags := f } = .next u'.complete) (heff : FlagBlind (s.noteReads rs) f u u')
    (h : exec i s = .next t) (h' : exec i { s with flags := f } = .next t') : FlagBlind s f t t' := by
  obtain rfl := Host.Outcome.next.inj (h.symm.trans hi)
  obtain rfl := Host.Outcome.next.inj (h'.symm.trans hi')
  obtain ⟨hrest, hcf, hlt, heq, hgt, hveq⟩ := heff
  exact FlagBlind.complete ⟨hrest, hcf, hlt, heq, hgt, hveq⟩

/-- 10 R35 to R37: no command reads a flag but WSEL, which reads CF. -/
theorem exec_flagBlind (hwsel : ∀ d a b, i = .wsel d a b → f.cf = s.flags.cf)
    (h : exec i s = .next t) (h' : exec i { s with flags := f } = .next t') : FlagBlind s f t t' := by
  cases i with
  | nop => exact flagBlind_of_effect (exec_nop s) (exec_nop _) (.refl _ f) h h'
  | cfgw sel wa => exact flagBlind_of_command (exec_cfgw s sel wa) (exec_cfgw _ sel wa) (fun _ => .carried rfl) h h'
  | cfgr wd sel => exact flagBlind_of_effect (exec_cfgr s wd sel) (exec_cfgr _ wd sel) ((FlagBlind.refl _ f).writeW wd _) h h'
  | cfgcommit => exact flagBlind_of_command (exec_cfgcommit s) (exec_cfgcommit _) (fun _ => .carried rfl) h h'
  | cfginv => exact flagBlind_of_command (exec_cfginv s) (exec_cfginv _) (fun _ => .carried rfl) h h'
  | wadd wd wa wb =>
    exact flagBlind_of_effect (exec_wadd s wd wa wb) (exec_wadd _ wd wa wb) (((FlagBlind.refl _ f).writeW wd _).setCF _) h h'
  | wsub wd wa wb =>
    exact flagBlind_of_effect (exec_wsub s wd wa wb) (exec_wsub _ wd wa wb) (((FlagBlind.refl _ f).writeW wd _).setCF _) h h'
  | wcmp wa wb =>
    exact flagBlind_of_effect (exec_wcmp s wa wb) (exec_wcmp _ wa wb) ((FlagBlind.refl _ f).setCompare _ _) h h'
  | wsel wd wa wb =>
    have hi' := exec_wsel { s with flags := f } wd wa wb
    rw [show ({ s with flags := f } : State).flags.cf = s.flags.cf from hwsel wd wa wb rfl] at hi'
    exact flagBlind_of_effect (exec_wsel s wd wa wb) hi' ((FlagBlind.refl _ f).writeW wd _) h h'
  | wmul wlo wa wb whi =>
    exact flagBlind_of_effect (exec_wmul s wlo wa wb whi) (exec_wmul _ wlo wa wb whi)
      (((FlagBlind.refl _ f).writeW wlo _).writeW whi _) h h'
  | wli wd imm => exact flagBlind_of_effect (exec_wli s wd imm) (exec_wli _ wd imm) ((FlagBlind.refl _ f).writeW wd _) h h'
  | wmov wd wa => exact flagBlind_of_effect (exec_wmov s wd wa) (exec_wmov _ wd wa) ((FlagBlind.refl _ f).writeW wd _) h h'
  | fenc wd wa =>
    exact flagBlind_of_command (exec_fenc s wd wa) (exec_fenc _ wd wa) (fun u => (FlagBlind.refl u f).writeW wd _) h h'
  | fdec wd wa =>
    exact flagBlind_of_command (exec_fdec s wd wa) (exec_fdec _ wd wa) (fun u => (FlagBlind.refl u f).writeW wd _) h h'
  | fadd wd wa wb =>
    exact flagBlind_of_command (exec_fadd s wd wa wb) (exec_fadd _ wd wa wb) (fun u => (FlagBlind.refl u f).writeW wd _) h h'
  | fsub wd wa wb =>
    exact flagBlind_of_command (exec_fsub s wd wa wb) (exec_fsub _ wd wa wb) (fun u => (FlagBlind.refl u f).writeW wd _) h h'
  | fmul wd wa wb =>
    exact flagBlind_of_command (exec_fmul s wd wa wb) (exec_fmul _ wd wa wb) (fun u => (FlagBlind.refl u f).writeW wd _) h h'
  | fneg wd wa =>
    exact flagBlind_of_command (exec_fneg s wd wa) (exec_fneg _ wd wa) (fun u => (FlagBlind.refl u f).writeW wd _) h h'
  | feq wa wb =>
    exact flagBlind_of_command (exec_feq s wa wb) (exec_feq _ wa wb) (fun u => (FlagBlind.refl u f).setVEQ _) h h'
  | fzero wd => exact flagBlind_of_command (exec_fzero s wd) (exec_fzero _ wd) (fun u => (FlagBlind.refl u f).writeW wd _) h h'
  | fone wd => exact flagBlind_of_command (exec_fone s wd) (exec_fone _ wd) (fun u => (FlagBlind.refl u f).writeW wd _) h h'
  | sclr => exact flagBlind_of_command (exec_sclr s) (exec_sclr _) (fun _ => .carried rfl) h h'
  | spush wa => exact flagBlind_of_command (exec_spush s wa) (exec_spush _ wa) (fun _ => .carried rfl) h h'
  | sget wd idx =>
    exact flagBlind_of_command (exec_sget s wd idx) (exec_sget _ wd idx) (fun u => (FlagBlind.refl u f).writeW wd _) h h'
  | sntt ca => exact flagBlind_of_command (exec_sntt s ca) (exec_sntt _ ca) (fun _ => .carried rfl) h h'
  | sintt ca => exact flagBlind_of_command (exec_sintt s ca) (exec_sintt _ ca) (fun _ => .carried rfl) h h'
  | ctxnew cd logn => exact flagBlind_of_command (exec_ctxnew s cd logn) (exec_ctxnew _ cd logn) (fun _ => .carried rfl) h h'
  | ctxrel cd => exact flagBlind_of_command (exec_ctxrel s cd) (exec_ctxrel _ cd) (fun u => .dropHold u f cd) h h'
  | rfromc rd ca =>
    exact flagBlind_of_command (exec_rfromc s rd ca) (exec_rfromc _ rd ca) (fun u => .bindRing u f rd _ _ _) h h'
  | rfromn rd ca =>
    exact flagBlind_of_command (exec_rfromn s rd ca) (exec_rfromn _ rd ca) (fun u => .bindRing u f rd _ _ _) h h'
  | rzero rd ca => exact flagBlind_of_command (exec_rzero s rd ca) (exec_rzero _ rd ca) (fun u => .bindRing u f rd _ _ _) h h'
  | rone rd ca => exact flagBlind_of_command (exec_rone s rd ca) (exec_rone _ rd ca) (fun u => .bindRing u f rd _ _ _) h h'
  | rcopy rd ra => exact flagBlind_of_command (exec_rcopy s rd ra) (exec_rcopy _ rd ra) (fun u => .bindRing u f rd _ _ _) h h'
  | rfree rd => exact flagBlind_of_command (exec_rfree s rd) (exec_rfree _ rd) (fun u => .unbindRing u f rd) h h'
  | rtontt rd => exact flagBlind_of_command (exec_rtontt s rd) (exec_rtontt _ rd) (fun _ => .carried rfl) h h'
  | rtocoef rd => exact flagBlind_of_command (exec_rtocoef s rd) (exec_rtocoef _ rd) (fun _ => .carried rfl) h h'
  | radd rd ra rb =>
    exact flagBlind_of_command (exec_radd s rd ra rb) (exec_radd _ rd ra rb) (fun u => .bindRing u f rd _ _ _) h h'
  | rsub rd ra rb =>
    exact flagBlind_of_command (exec_rsub s rd ra rb) (exec_rsub _ rd ra rb) (fun u => .bindRing u f rd _ _ _) h h'
  | rmul rd ra rb =>
    exact flagBlind_of_command (exec_rmul s rd ra rb) (exec_rmul _ rd ra rb) (fun u => .bindRing u f rd _ _ _) h h'
  | rneg rd ra => exact flagBlind_of_command (exec_rneg s rd ra) (exec_rneg _ rd ra) (fun u => .bindRing u f rd _ _ _) h h'
  | rscale rd ra wb =>
    exact flagBlind_of_command (exec_rscale s rd ra wb) (exec_rscale _ rd ra wb) (fun u => .bindRing u f rd _ _ _) h h'
  | req ra rb =>
    exact flagBlind_of_command (exec_req s ra rb) (exec_req _ ra rb) (fun u => (FlagBlind.refl u f).setVEQ _) h h'
  | rgetc wd ra idx =>
    exact flagBlind_of_command (exec_rgetc s wd ra idx) (exec_rgetc _ wd ra idx) (fun u => (FlagBlind.refl u f).writeW wd _) h h'
  | rgetn wd ra idx =>
    exact flagBlind_of_command (exec_rgetn s wd ra idx) (exec_rgetn _ wd ra idx) (fun u => (FlagBlind.refl u f).writeW wd _) h h'

end

/-- Settles O21: the writers by the effects, the readers by two runs side by side. -/
theorem flagWritersAndReaders : Obligations.FlagWritersAndReaders := by
  refine ⟨fun i s t h => ?_, fun i s t t' f h h' hwsel => ?_⟩
  · obtain ⟨hcarry, hcompare, hequal⟩ := exec_flagsWritten h
    exact ⟨hcarry, hcompare, hequal⟩
  · obtain ⟨hrest, hcf, hlt, heq, hgt, hveq⟩ := exec_flagBlind hwsel h h'
    exact ⟨hrest, hcf, hlt, heq, hgt, hveq⟩

end Sys2Proof.Proofs
end

section
/-! What a step can do, said once for every event of the host side (spec 44 R400), and what follows over any step: the machine
invariant (10 R56), context data and identities (42 R264, 10 R52), the committed configuration (41 R207, R210), and the standing
fault record (60 R415 to R417). -/
namespace Sys2Proof.Proofs
open Sys2Proof Sys2Proof.Machine

/-! ## Updates of no consequence -/

/-- `t` differs from `s` at most in W registers, flags, DROP, BUSERR, IRQEN and the bus; or the fault record has been cleared. -/
structure Quiet (s t : State) : Prop where
  params : t.params = s.params
  cfgv : t.status.cfgv = s.status.cfgv
  fault : t.status.fault = s.status.fault ∧ t.status.err = s.status.err ∨ t.status.fault = false ∧ t.status.err = .none
  cmdcount : t.cmdcount = s.cmdcount
  faultcmd : t.faultcmd = s.faultcmd
  faultseq : t.faultseq = s.faultseq
  cfg : t.cfg = s.cfg
  cx : t.cx = s.cx
  nextCid : t.nextCid = s.nextCid
  re : t.re = s.re
  stage : t.stage = s.stage
  slen : t.slen = s.slen

section
variable {s t u : State}

theorem Quiet.of_frame (h : t = { s with
    w := t.w, written := t.written, flags := t.flags, irqen := t.irqen, rstn := t.rstn, host := t.host, reply := t.reply
    status := { s.status with drop := t.status.drop, buserr := t.status.buserr }
    programFault := t.programFault, draws := t.draws }) : Quiet s t := by
  rw [h]
  exact ⟨rfl, rfl, .inl ⟨rfl, rfl⟩, rfl, rfl, rfl, rfl, rfl, rfl, rfl, rfl, rfl⟩

theorem Quiet.trans (h : Quiet s t) (h' : Quiet t u) : Quiet s u where
  params := h'.params.trans h.params
  cfgv := h'.cfgv.trans h.cfgv
  fault := by
    rcases h'.fault with ⟨hfault, herr⟩ | hclear
    · rw [hfault, herr]
      exact h.fault
    · exact .inr hclear
  cmdcount := h'.cmdcount.trans h.cmdcount
  faultcmd := h'.faultcmd.trans h.faultcmd
  faultseq := h'.faultseq.trans h.faultseq
  cfg := h'.cfg.trans h.cfg
  cx := h'.cx.trans h.cx
  nextCid := h'.nextCid.trans h.nextCid
  re := h'.re.trans h.re
  stage := h'.stage.trans h.stage
  slen := h'.slen.trans h.slen

theorem Quiet.inv (h : Quiet s t) (hinv : s.Inv) : t.Inv := by
  have herr : t.status.err = .none ↔ t.status.fault = false := by
    rcases h.fault with ⟨hfault, herr⟩ | ⟨hfault, herr⟩
    · rw [hfault, herr]
      exact hinv.err_iff
    · exact iff_of_true herr hfault
  exact hinv.congr h.params h.cfgv herr h.cfg h.cx h.nextCid h.re (by rw [h.stage]) (h.slen.trans_le hinv.slen_le)

end

/-! ## Every step -/

/-- All that a step of `s` can answer. -/
inductive StepOutcome (s : State) : State → Prop
  /-- An access that is no command, a dropped command, or the end of the host's list. -/
  | quiet {t : State} (hquiet : Quiet s t) : StepOutcome s t
  /-- A soft reset, or the release of rst_n (70 R460, R461). -/
  | resets {t : State} (hreset : AtReset t) (hinv : s.Inv → t.Inv) : StepOutcome s t
  /-- A command that faults (60 R411). -/
  | faults {u : State} (hclear : s.status.fault = false) (hquiet : Quiet s u) (code : ErrCode) (hcode : code ≠ .none)
      (v : BitVec 64) : StepOutcome s (u.recordFault code v)
  /-- A command that has its effect and counts. -/
  | completes {u t : State} (hclear : s.status.fault = false) (hquiet : Quiet s u) (i : Instr) (hwf : i.wf u.params = true)
      (heff : Effect i u t) : StepOutcome s t.complete

section
variable {s t : State}

theorem StepOutcome.of_host {rest : List HostEvent} (h : StepOutcome { s with host := rest } t) : StepOutcome s t := by
  have hhost : Quiet s { s with host := rest } := .of_frame rfl
  cases h with
  | quiet hquiet => exact .quiet (hhost.trans hquiet)
  | resets hreset hinv => exact .resets hreset fun h => hinv (hhost.inv h)
  | faults hclear hquiet code hcode v => exact .faults (s := s) hclear (hhost.trans hquiet) code hcode v
  | completes hclear hquiet i hwf heff => exact .completes (s := s) hclear (hhost.trans hquiet) i hwf heff

theorem stepOutcome_toReset (s : State) (r : Option Reply) : StepOutcome s (s.toReset.answer r) :=
  .resets (atReset_toReset s r) fun hinv => hinv.toReset.same rfl rfl rfl rfl rfl rfl rfl rfl

/-- 20 R96: a write to a register other than CMD. -/
theorem stepOutcome_writeReg (s : State) (v : Limb) (reg : Reg) (r : Option Reply) :
    StepOutcome s ((s.writeReg v reg).answer r) := by
  cases reg with
  | ctrl =>
    rw [State.writeReg, State.writeCtrl]
    split
    · exact stepOutcome_toReset s r
    · exact .quiet (.of_frame rfl)
  | status =>
    rw [State.writeReg, writeStatus_eq]
    refine .quiet ⟨rfl, rfl, ?_, rfl, rfl, rfl, rfl, rfl, rfl, rfl, rfl, rfl⟩
    cases hclear : v.getLsbD 0 with
    | false => exact .inl ⟨by simp [State.answer], by simp [State.answer]⟩
    | true => exact .inr ⟨by simp [State.answer], by simp [State.answer]⟩
  | _ => exact .quiet (.of_frame rfl)

/-- 44 R400: a command, after its bus write has been answered. -/
theorem stepOutcome_executeCommand {v : BitVec 64} (hquiet : Quiet s u) (hfault : u.status.fault = s.status.fault)
    (h : executeCommand v u = .next t) : StepOutcome s t := by
  cases hf : u.status.fault with
  | true =>
    obtain rfl := Host.Outcome.next.inj (h.symm.trans (executeCommand_of_fault hf))
    exact .quiet (hquiet.trans (.of_frame rfl))
  | false =>
    have hclear : s.status.fault = false := hfault.symm.trans hf
    cases hdec : decode u.params v with
    | error e =>
      obtain rfl := Host.Outcome.next.inj (h.symm.trans (executeCommand_of_decode_error hf hdec))
      exact .faults hclear hquiet .illegalCommand ErrCode.noConfusion v
    | ok i =>
      obtain ⟨hwf, -⟩ := wf_and_eq_cmdValue_of_decode_ok hdec
      rw [executeCommand_of_decode_ok hf hdec] at h
      rcases exec_cases h with ⟨code, rs, hcode, rfl⟩ | ⟨rs, t, heff, rfl⟩
      · exact .faults hclear (hquiet.trans (.of_frame rfl)) code hcode _
      · exact .completes (u := u.noteReads rs) hclear (hquiet.trans (.of_frame rfl)) i hwf heff

/-- 20 R81, R95: no read does anything of consequence. -/
theorem quiet_busRead (addr width : Nat) (s : State) : Quiet s (busRead addr width s) := by
  rw [busRead]
  split
  · exact .of_frame rfl
  · split
    · exact .of_frame rfl
    · split
      · exact .of_frame rfl
      · obtain ⟨b, -, hnote⟩ := noteRegRead_eq s (regAt s.params (addr - s.params.base))
        simp only [hnote]
        exact .of_frame rfl

theorem stepOutcome_busWrite {addr width : Nat} {v : Limb} (h : busWrite addr width v s = .next t) : StepOutcome s t := by
  rw [busWrite] at h
  split at h
  · cases h
    exact .quiet (.of_frame rfl)
  · split at h
    · cases h
      exact .quiet (.of_frame rfl)
    · split at h
      · cases h
        exact .quiet (.of_frame rfl)
      · split at h
        · exact stepOutcome_executeCommand (u := s.answer (some ⟨false, none⟩)) (.of_frame rfl) rfl h
        · cases h
          exact stepOutcome_writeReg s v _ _

theorem stepOutcome_driveReset (s : State) (level : Bool) : StepOutcome s (s.driveReset level) := by
  rw [State.driveReset]
  split
  · split
    · exact .quiet (.of_frame rfl)
    · exact stepOutcome_toReset s s.reply
  · exact .quiet (.of_frame rfl)

/-- 20 R94, 44 R400: all that a step can do. -/
theorem stepOutcome (h : step s = .next t) : StepOutcome s t := by
  rw [step, serve] at h
  split at h
  · cases h
    exact .quiet (.of_frame rfl)
  · rename_i e rest _
    refine .of_host (rest := rest) ?_
    cases e with
    | read addr width =>
      cases h
      exact .quiet (quiet_busRead addr width _)
    | write addr width v => exact stepOutcome_busWrite h
    | rstn level =>
      cases h
      exact stepOutcome_driveReset _ level

end

/-! ## The invariant (10 R56) -/

/-- Settles O20: each outcome of a step keeps the invariant. -/
theorem stepKeepsInvariant : Obligations.StepKeepsInvariant := by
  intro s t hinv h
  cases stepOutcome h with
  | quiet hquiet => exact hquiet.inv hinv
  | resets _ hreset => exact hreset hinv
  | faults _ hquiet code hcode v => exact (hquiet.inv hinv).recordFault hcode v
  | completes _ hquiet i hwf heff => exact (heff.inv (hquiet.inv hinv) hwf).complete

/-! ## Configuration and fault record -/

/-- 41 R207, R210: from a committed configuration. -/
theorem Effect.keepsCommitted {i : Instr} {s t : State} (h : Effect i s t) (hcfgv : s.status.cfgv = true) :
    t.cfg = s.cfg ∧ (t.status.cfgv = true ∨ ∀ c, (s.cx.get c).valid = false) := by
  cases h with
  | configures _ _ huncommitted _ => exact absurd hcfgv (ne_true_of_eq_false huncommitted)
  | uncommits hnone _ => exact ⟨rfl, .inr hnone⟩
  | commits _ _ => exact ⟨rfl, .inl rfl⟩
  | computes hframe _ _ => rw [hframe]; exact ⟨rfl, .inl hcfgv⟩
  | stages hframe _ _ => rw [hframe]; exact ⟨rfl, .inl hcfgv⟩
  | drops c _ _ => rw [(s.dropHold_frame c).1]; exact ⟨rfl, .inl hcfgv⟩
  | binds rd c st d _ _ _ => rw [s.bindRing_frame rd c st d]; exact ⟨rfl, .inl hcfgv⟩
  | unbinds rd _ _ => rw [(unbindRing_frame s rd).1]; exact ⟨rfl, .inl hcfgv⟩
  | constructs _ _ _ _ _ _ _ _ _ | transitions _ _ _ _ _ _ => exact ⟨rfl, .inl hcfgv⟩

/-- Settles O25: CFGW needs CFGV = 0, and CFGINV needs that no context is valid. -/
theorem committedConfigurationIsLocked : Obligations.CommittedConfigurationIsLocked := by
  intro s t h hcfgv
  cases stepOutcome h with
  | quiet hquiet => exact .inr ⟨hquiet.cfg, .inl (hquiet.cfgv.trans hcfgv)⟩
  | resets hreset _ => exact .inl hreset
  | faults _ hquiet code hcode v => exact .inr ⟨hquiet.cfg, .inl (hquiet.cfgv.trans hcfgv)⟩
  | completes _ hquiet i hwf heff =>
    refine .inr ?_
    rw [← hquiet.cfg, ← hquiet.cx]
    exact heff.keepsCommitted (hquiet.cfgv.trans hcfgv)

/-- Settles O26: while FAULT = 1 a step is a reset, or does nothing of consequence but to clear the record. -/
theorem faultRecordStands : Obligations.FaultRecordStands := by
  intro s t h hfault
  cases stepOutcome h with
  | quiet hquiet =>
    refine .inr ⟨hquiet.faultcmd, hquiet.faultseq, hquiet.cmdcount, fun hstands => ?_, fun hcleared => ?_,
      hquiet.cx, hquiet.re, hquiet.stage, hquiet.slen, hquiet.cfg, hquiet.nextCid⟩
    · rcases hquiet.fault with ⟨-, herr⟩ | ⟨hcleared, -⟩
      · exact herr
      · exact absurd hstands (ne_true_of_eq_false hcleared)
    · rcases hquiet.fault with ⟨hsame, -⟩ | ⟨-, herr⟩
      · exact absurd (hsame.trans hfault) (ne_true_of_eq_false hcleared)
      · exact herr
  | resets hreset _ => exact .inl hreset
  | faults hclear _ _ _ _ => exact absurd hfault (ne_true_of_eq_false hclear)
  | completes hclear _ _ _ _ => exact absurd hfault (ne_true_of_eq_false hclear)

/-! ## Contexts (42 R264, 10 R52) -/

/-- What becomes of context slot `c` from `s` to `t`. -/
inductive ContextOutcome (s t : State) (c : Idx) : Prop
  | keeps (h : t.cx.get c = { s.cx.get c with hostref := (t.cx.get c).hostref, refcnt := (t.cx.get c).refcnt })
  | freed (h : (t.cx.get c).IsFree)
  | built (logn : Nat) (hfree : (s.cx.get c).valid = false) (hlogn : (BitVec.ofNat 8 logn).toNat = logn)
      (h : t.cx.get c = Ctx.build s.cfg s.nextCid logn) (hcid : t.nextCid.toNat = s.nextCid.toNat + 1)

section
variable {s t : State} {i : Instr} {c : Idx}

theorem ContextOutcome.of_eq (h : t.cx.get c = s.cx.get c) : ContextOutcome s t c := .keeps (by rw [h])

theorem ContextOutcome.of_released (h : Released (s.cx.get c) (t.cx.get c)) : ContextOutcome s t c := by
  rcases h.shape with ⟨n, hkeeps⟩ | hfree
  · exact .keeps (by rw [hkeeps])
  · exact .freed hfree

/-- 42 R272. -/
theorem contextOutcome_dropHold (s : State) (c c' : Idx) : ContextOutcome s (s.dropHold c) c' := by
  obtain ⟨-, hothers, hslot⟩ := s.dropHold_frame c
  by_cases hc : c' = c
  · subst hc
    split at hslot
    · exact .freed hslot
    · exact .keeps (by rw [hslot])
  · exact .of_eq (hothers c' hc)

/-- 43 R322. -/
theorem contextOutcome_bindRing (hinv : s.Inv) (rd c : Idx) (st : Rep) (d : List Word) (c' : Idx) :
    ContextOutcome s (s.bindRing rd c st d) c' := by
  obtain ⟨hsame, hacquired, hreleased, hothers⟩ := s.rebind_contexts rd c hinv.refcnt_ne_zero
  by_cases hc : c' = c
  · subst hc
    by_cases hold : (s.re.get rd).bound = true ∧ (s.re.get rd).ctx = c'
    · exact .of_eq (by rw [s.bindRing_cx, hsame hold.1 hold.2])
    · exact .keeps (by rw [s.bindRing_cx, hacquired hold])
  · by_cases hold : (s.re.get rd).bound = true ∧ (s.re.get rd).ctx = c'
    · obtain ⟨hbound, rfl⟩ := hold
      exact .of_released (hreleased hbound hc)
    · exact .of_eq (hothers c' hc hold)

/-- 43 R329. -/
theorem contextOutcome_unbindRing (s : State) (rd c : Idx) : ContextOutcome s (s.unbindRing rd) c := by
  obtain ⟨-, hothers, hreleased⟩ := unbindRing_frame s rd
  by_cases hc : c = (s.re.get rd).ctx
  · subst hc
    exact .of_released hreleased
  · exact .of_eq (hothers c hc)

theorem toNat_add_one_of_ne_allOnes {x : BitVec 64} (h : x ≠ BitVec.allOnes 64) : (x + 1).toNat = x.toNat + 1 := by
  have hlt := mt (eq_allOnes_iff x).mpr h
  bv_omega

theorem Effect.contextOutcome (h : Effect i s t) (hinv : s.Inv) (c : Idx) : ContextOutcome s t c := by
  cases h with
  | computes hframe _ _ => exact .of_eq (by rw [hframe])
  | stages hframe _ _ => exact .of_eq (by rw [hframe])
  | constructs c' logn hcfgv hfree hmax hroot hcid _ _ =>
    by_cases hc : c = c'
    · subst hc
      exact .built logn hfree (lognField_toNat hinv.legal hmax) (Bank.get_put_same _ _ _) (toNat_add_one_of_ne_allOnes hcid)
    · exact .of_eq (Bank.get_put_ne _ _ hc)
  | drops c' _ _ => exact contextOutcome_dropHold s c' c
  | binds rd c' st d _ _ _ => exact contextOutcome_bindRing hinv rd c' st d c
  | unbinds rd _ _ => exact contextOutcome_unbindRing s rd c
  | configures _ _ _ _ | commits _ _ | uncommits _ _ | transitions _ _ _ _ _ _ => exact .of_eq rfl

/-- 10 R52. -/
theorem Effect.nextCid (h : Effect i s t) : t.nextCid = s.nextCid ∨ t.nextCid.toNat = s.nextCid.toNat + 1 := by
  cases h with
  | constructs _ _ _ _ _ _ hcid _ _ => exact .inr (toNat_add_one_of_ne_allOnes hcid)
  | computes hframe _ _ => exact .inl (congrArg State.nextCid hframe :)
  | stages hframe _ _ => exact .inl (congrArg State.nextCid hframe :)
  | drops c _ _ => exact .inl (congrArg State.nextCid (s.dropHold_frame c).1 :)
  | binds rd c st d _ _ _ => exact .inl (congrArg State.nextCid (s.bindRing_frame rd c st d) :)
  | unbinds rd _ _ => exact .inl (congrArg State.nextCid (unbindRing_frame s rd).1 :)
  | configures _ _ _ _ | commits _ _ | uncommits _ _ | transitions _ _ _ _ _ _ => exact .inl rfl

/-- Over any step but a reset (which frees every slot). -/
theorem step_contexts (hinv : s.Inv) (h : step s = .next t) :
    AtReset t ∨ ((t.nextCid = s.nextCid ∨ t.nextCid.toNat = s.nextCid.toNat + 1) ∧ ∀ c, ContextOutcome s t c) := by
  cases stepOutcome h with
  | quiet hquiet => exact .inr ⟨.inl hquiet.nextCid, fun _ => .of_eq (by rw [hquiet.cx])⟩
  | resets hreset _ => exact .inl hreset
  | faults _ hquiet _ _ _ => exact .inr ⟨.inl hquiet.nextCid, fun _ => .of_eq (congrArg (Bank.get · _) hquiet.cx)⟩
  | completes _ hquiet i hwf heff =>
    refine .inr ⟨hquiet.nextCid ▸ heff.nextCid, fun c => ?_⟩
    cases heff.contextOutcome (hquiet.inv hinv) c with
    | keeps hkeeps => exact .keeps (hquiet.cx ▸ hkeeps)
    | freed hfree => exact .freed hfree
    | built logn hfree hlogn hbuilt hcid =>
      rw [hquiet.cx] at hfree
      rw [hquiet.cfg, hquiet.nextCid] at hbuilt
      rw [hquiet.nextCid] at hcid
      exact .built logn hfree hlogn hbuilt hcid

end

/-- 42 R261 to R263: what CTXNEW constructs. -/
theorem build_builtFrom {cfg : FieldCfg} {cid : BitVec 64} {logn : Nat} (h : (BitVec.ofNat 8 logn).toNat = logn) :
    (Ctx.build cfg cid logn).BuiltFrom cfg := by
  simp only [Ctx.BuiltFrom, Ctx.build, h, and_self]

/-- Settles O23: the three outcomes of a context slot, and a reset frees it. -/
theorem contextDataIsImmutable : Obligations.ContextDataIsImmutable := by
  intro s t c hinv h
  rcases step_contexts hinv h with hreset | ⟨-, hcontexts⟩
  · exact .inr (.inl (hreset.contexts c))
  · cases hcontexts c with
    | keeps hkeeps => exact .inl hkeeps
    | freed hfree => exact .inr (.inl hfree)
    | built logn hfree hlogn hbuilt _ =>
      refine .inr (.inr ⟨hfree, ?_⟩)
      rw [hbuilt]
      exact ⟨rfl, build_builtFrom hlogn, rfl⟩

/-- Settles O24: a valid slot was kept or is newly built. -/
theorem cidsAreNeverReused : Obligations.CidsAreNeverReused := by
  intro s t hinv h
  refine (step_contexts hinv h).imp_right fun ⟨hnext, hcontexts⟩ => ⟨hnext, fun c hvalid => ?_⟩
  cases hcontexts c with
  | keeps hkeeps =>
    rw [hkeeps] at hvalid ⊢
    exact .inl ⟨hvalid, rfl⟩
  | freed hfree => exact absurd hvalid (ne_true_of_eq_false hfree.1)
  | built logn hfree _ hbuilt hcid =>
    rw [hbuilt]
    exact .inr ⟨hfree, rfl, hcid⟩

end Sys2Proof.Proofs
end

section
/-! The 1024-bit adder and subtractor (spec 40 R161, R162), and REDC and the field operations on values (41 R213, R224;
00 R14). -/
namespace Sys2Proof.Proofs
open Sys2Proof Sys2Proof.Machine

/-! ## The limb chains (40 R161, R162) -/

/-- A difference of bit vectors is the difference of their values modulo 2^w. -/
theorem natCast_toNat_sub {w : Nat} (x y : BitVec w) : ((x - y).toNat : Int) = ((x.toNat : Int) - y.toNat) % 2 ^ w := by
  have hshift : ((2 ^ w : Int) - y.toNat) + x.toNat = (x.toNat - y.toNat) + 2 ^ w := by ring
  rw [BitVec.toNat_sub, Int.natCast_emod, Nat.cast_add, Nat.cast_sub y.isLt.le, Nat.cast_pow, Nat.cast_ofNat, hshift,
    Int.add_emod_right]

theorem carryingAdd_toNat (a b : Word) : (carryingAdd a b).1.toNat = (a.toNat + b.toNat) % 2 ^ 1024 := BitVec.toNat_add a b

theorem carryingAdd_overflow (a b : Word) : (carryingAdd a b).2 = decide (2 ^ 1024 ≤ a.toNat + b.toNat) := by
  rw [carryingAdd, radix]

theorem borrowingSub_toNat (a b : Word) : ((borrowingSub a b).1.toNat : Int) = ((a.toNat : Int) - b.toNat) % 2 ^ 1024 :=
  natCast_toNat_sub a b

/-- Settles O27: the chains limb by limb, and the sum and the difference in closed form. -/
theorem limbChains : Obligations.LimbChains := fun a b =>
  ⟨fun _ hk => limb_carryingAdd a b hk, carryingAdd_carry a b, carryingAdd_toNat a b, carryingAdd_overflow a b,
    fun _ hk => limb_borrowingSub a b hk, borrowingSub_borrow a b, borrowingSub_toNat a b, rfl⟩

/-! ## REDC (41 R213) -/

/-- A bound below the square of the radix. -/
theorem lt_radix_mul_radix {c : FieldCfg} {t : Nat} (h : t < c.q.toNat * radix) : t < radix * radix :=
  h.trans_le (Nat.mul_le_mul_right radix (word_lt_radix c.q).le)

/-- The quotient of REDC before the final subtraction (41 R212). -/
def redcQuotient (c : FieldCfg) (t : Nat) : Nat := (t + t % radix * c.qprime.toNat % radix * c.q.toNat) / radix

section
variable {c : FieldCfg} {t : Nat}

/-- 41 R213, first item: the quotient is exact, and q vanishes in Zq. -/
theorem redcQuotient_mod (hok : cfgOk c = true) (t : Nat) :
    redcQuotient c t % c.q.toNat = t * radixInv c.q.toNat % c.q.toNat := by
  refine (ZMod.natCast_eq_natCast_iff' _ _ _).mp ?_
  have hexact : redcQuotient c t * radix = t + t % radix * c.qprime.toNat % radix * c.q.toNat :=
    Nat.div_mul_cancel (redc_dvd t (cfgOk_qprime hok))
  have hcast := congrArg (Nat.cast (R := ZMod c.q.toNat)) hexact
  rw [Nat.cast_mul, Nat.cast_add, Nat.cast_mul _ c.q.toNat, ZMod.natCast_self, mul_zero, add_zero] at hcast
  calc (redcQuotient c t : ZMod c.q.toNat)
      = redcQuotient c t * (((radix : Nat) : ZMod c.q.toNat) * rho c) := by rw [radix_mul_rho hok, mul_one]
    _ = (t : ZMod c.q.toNat) * rho c := by rw [← mul_assoc, hcast]
    _ = ((t * radixInv c.q.toNat : Nat) : ZMod c.q.toNat) := by rw [Nat.cast_mul, rho]

/-- 41 R213, second item. -/
theorem redcQuotient_lt (ht : t < c.q.toNat * radix) : redcQuotient c t < 2 * c.q.toNat := by
  have hm : t % radix * c.qprime.toNat % radix < radix := Nat.mod_lt _ radix_pos
  rw [redcQuotient, Nat.div_lt_iff_lt_mul radix_pos]
  calc t + t % radix * c.qprime.toNat % radix * c.q.toNat
      < c.q.toNat * radix + radix * c.q.toNat := Nat.add_lt_add_of_lt_of_le ht (Nat.mul_le_mul_right _ hm.le)
    _ = 2 * c.q.toNat * radix := by ring

theorem redc_toNat_of_lt (hok : cfgOk c = true) (ht : t < c.q.toNat * radix) :
    (redc c t).toNat = t * radixInv c.q.toNat % c.q.toNat :=
  toNat_of_val (redc_lt ht) (by rw [val_redc hok (lt_radix_mul_radix ht), Nat.cast_mul, rho])

/-- Settles O28: the items of 41 R213 in their order. -/
theorem redcProperties : Obligations.RedcProperties := by
  intro c hok
  refine ⟨fun T _ => redcQuotient_mod hok T, fun T hT => ⟨redcQuotient_lt hT, redc_toNat_of_lt hok hT, ?_⟩,
    fun a b ha _ => ?_, fun x => ?_, fun a _ => fdec_toNat hok a⟩
  · exact (canonical_iff c _).mpr (redc_lt hT)
  · rw [canonical_iff] at ha
    have hlt : a.toNat * b.toNat < c.q.toNat * radix := Nat.mul_lt_mul_of_lt_of_le ha (word_lt_radix b).le radix_pos
    exact ⟨hlt, redc_toNat_of_lt hok hlt⟩
  · have henc : (redc c (x.toNat * c.r2.toNat)).toNat = x.toNat * radix % c.q.toNat := fenc_toNat hok x
    exact ⟨henc, henc.trans (encNat_mod _ _).symm⟩

/-! ## Field laws (41 R224, 00 R14) -/

/-- A word that stands for the integer `m`. -/
theorem natCast_decNat_of_val {x : Word} {m : Int} (h : val c x * rho c = (m : ZMod c.q.toNat)) :
    (decNat c.q.toNat x.toNat : Int) = m % c.q.toNat := by
  have hcast : (((x.toNat * radixInv c.q.toNat : Nat) : Int) : ZMod c.q.toNat) = m := by
    rw [← h, Int.cast_natCast, Nat.cast_mul, val, rho]
  rw [decNat, Int.natCast_emod]
  exact (ZMod.intCast_eq_intCast_iff' _ _ _).mp hcast

/-- A word that stands for the number `n`. -/
theorem decNat_of_val {x : Word} {n : Nat} (h : val c x * rho c = (n : ZMod c.q.toNat)) :
    decNat c.q.toNat x.toNat = n % c.q.toNat := by
  have hint := natCast_decNat_of_val (m := n) (by rw [h, Int.cast_natCast])
  exact_mod_cast hint

/-- 00 R14: `R` and its inverse cancel. -/
theorem mul_radix_mul_radixInv_mod (hok : cfgOk c = true) (x : Nat) :
    x * (radix * radixInv c.q.toNat) % c.q.toNat = x % c.q.toNat := by
  refine (ZMod.natCast_eq_natCast_iff' _ _ _).mp ?_
  rw [Nat.cast_mul, Nat.cast_mul, ← rho, radix_mul_rho hok, mul_one]

theorem decNat_encNat (hok : cfgOk c = true) {x : Nat} (hx : x < c.q.toNat) : decNat c.q.toNat (encNat c.q.toNat x) = x := by
  rw [decNat, encNat, Nat.mod_mul_mod, mul_assoc, mul_radix_mul_radixInv_mod hok, Nat.mod_eq_of_lt hx]

theorem encNat_decNat (hok : cfgOk c = true) {a : Nat} (ha : a < c.q.toNat) : encNat c.q.toNat (decNat c.q.toNat a) = a := by
  rw [decNat, encNat, Nat.mod_mul_mod, mul_assoc, mul_comm (radixInv _), mul_radix_mul_radixInv_mod hok, Nat.mod_eq_of_lt ha]

variable {a b : Word}

theorem decNat_fadd (ha : a.toNat < c.q.toNat) (hb : b.toNat < c.q.toNat) : decNat c.q.toNat (fadd c a b).toNat =
    (decNat c.q.toNat a.toNat + decNat c.q.toNat b.toNat) % c.q.toNat :=
  decNat_of_val (by rw [val_fadd ha hb, Nat.cast_add, cast_decNat, cast_decNat, add_mul])

theorem decNat_fsub (ha : a.toNat < c.q.toNat) (hb : b.toNat < c.q.toNat) : (decNat c.q.toNat (fsub c a b).toNat : Int) =
    ((decNat c.q.toNat a.toNat : Int) - decNat c.q.toNat b.toNat) % c.q.toNat :=
  natCast_decNat_of_val
    (by rw [val_fsub ha hb, Int.cast_sub, Int.cast_natCast, Int.cast_natCast, cast_decNat, cast_decNat, sub_mul])

theorem decNat_fmul (hok : cfgOk c = true) (a b : Word) : decNat c.q.toNat (fmul c a b).toNat =
    decNat c.q.toNat a.toNat * decNat c.q.toNat b.toNat % c.q.toNat :=
  decNat_of_val (by rw [val_fmul hok, Nat.cast_mul, cast_decNat, cast_decNat]; ring)

theorem decNat_fneg (ha : a.toNat < c.q.toNat) :
    (decNat c.q.toNat (fneg c a).toNat : Int) = (-(decNat c.q.toNat a.toNat : Int)) % c.q.toNat :=
  natCast_decNat_of_val (by rw [val_fneg ha, Int.cast_neg, Int.cast_natCast, cast_decNat, neg_mul])

theorem fmul_r1 (hok : cfgOk c = true) (ha : a.toNat < c.q.toNat) : fmul c a c.r1 = a :=
  val_inj (fmul_lt ha _) ha (by rw [val_fmul hok, val_r1 hok, mul_assoc, radix_mul_rho hok, mul_one])

theorem val_zero (c : FieldCfg) : val c 0 = 0 := by
  rw [val, BitVec.ofNat_eq_ofNat, BitVec.toNat_zero, Nat.cast_zero]

theorem fadd_zero (ha : a.toNat < c.q.toNat) : fadd c a 0 = a := by
  have hzero : (0 : Word).toNat < c.q.toNat := zero_toNat_lt (Nat.zero_lt_of_lt ha)
  exact val_inj (fadd_lt ha hzero) ha (by rw [val_fadd ha hzero, val_zero, add_zero])

end

/-- Settles O29: closure, the four operations on values, the two identities, and both inverses. -/
theorem fieldLaws : Obligations.FieldLaws := by
  intro c hok
  refine ⟨fun a b ha hb => ?_, fun x hx => ⟨encNat_lt hok x, decNat_encNat hok hx⟩,
    fun a ha => ⟨Nat.mod_lt _ (cfgOk_q_pos hok), encNat_decNat hok ha⟩⟩
  rw [canonical_iff] at ha hb
  simp only [canonical_iff]
  exact ⟨⟨fadd_lt ha hb, fsub_lt ha hb, fmul_lt ha b, fneg_lt ha⟩, decNat_fadd ha hb, decNat_fsub ha hb,
    decNat_fmul hok a b, decNat_fneg ha, fmul_r1 hok ha, fadd_zero ha⟩

end Sys2Proof.Proofs
end

section
/-! What the transforms compute (spec 42 R268, R270): evaluation at the odd powers of ψ, and negacyclic products. -/
namespace Sys2Proof.Proofs
open Sys2Proof Sys2Proof.Machine

/-! ## Evaluation (42 R268) -/

/-- ζ_i = ψ^(2·brv(i) + 1) in Zq. -/
def zetaZ (c : FieldCfg) (logn i : Nat) : ZMod c.q.toNat := psiZ c logn ^ (2 * brv logn i + 1)

theorem getD_toNat_lt {c : FieldCfg} {a : List Word} (h : AllCanonical c a) (hq : 0 < c.q.toNat) (i : Nat) :
    (a.getD i 0).toNat < c.q.toNat := by
  rcases lt_or_ge i a.length with hi | hi
  · rw [List.getD_eq_getElem a 0 hi]
    exact h _ (List.getElem_mem hi)
  · rw [List.getD_eq_default a 0 hi]
    exact zero_toNat_lt hq

section
variable {c : FieldCfg} {logn : Nat} {a b : List Word}

/-- The leaves of the network, degree 1 included. -/
theorem fwd_getD_eq_eval (hok : cfgOk c = true) (hs : logn + 1 ≤ c.s.toNat) {x : List (ZMod c.q.toNat)}
    (hlen : x.length = 2 ^ logn) {i : Nat} (hi : i < 2 ^ logn) :
    (Network.fwd (twiddle c (zetaTable c logn)) logn 1 x).getD i 0 = Network.eval (zetaZ c logn i) x := by
  rcases Nat.eq_zero_or_pos logn with rfl | hpos
  · obtain rfl : i = 0 := by simpa using hi
    simp [Network.fwd, Network.eval, hlen]
  · rw [Network.fwd_getElem logn 1 le_rfl (fun j hj hlt => twiddle_sq hok hs hlt (by omega)) hlen i hi, one_mul,
      point_leaf hok hs hi hpos, zetaZ]

/-- 42 R268, in Zq. -/
theorem val_nttFwd_getD (hok : cfgOk c = true) (hs : logn + 1 ≤ c.s.toNat) (hlen : a.length = 2 ^ logn)
    (ha : AllCanonical c a) {i : Nat} (hi : i < 2 ^ logn) :
    val c ((nttFwd c (zetaTable c logn) logn a).getD i 0) =
      ∑ j ∈ Finset.range (2 ^ logn), val c (a.getD j 0) * zetaZ c logn i ^ j := by
  have hmap (l : List Word) (j : Nat) : (l.map (val c)).getD j 0 = val c (l.getD j 0) := by
    rw [← val_zero c, List.getD_map]
  have hmaplen : (a.map (val c)).length = 2 ^ logn := by rw [List.length_map, hlen]
  rw [← hmap, nttFwd_val hok _ hlen ha, fwd_getD_eq_eval hok hs hmaplen hi, Network.eval, hmaplen]
  exact Finset.sum_congr rfl fun j _ => by rw [hmap]

/-- 42 R261: the root a valid context stores. -/
theorem cast_evalPoint {s : State} {k : Idx} (hinv : s.Inv) (hvalid : (s.cx.get k).valid = true) (i : Nat) :
    ((evalPoint s.cfg.q.toNat (s.cx.get k).psi.toNat (s.logDegree k) i : Nat) : ZMod s.cfg.q.toNat) =
      zetaZ s.cfg (s.logDegree k) i := by
  obtain ⟨hpsi, -, -, -⟩ := hinv.built k hvalid
  rw [hpsi, psiWord_toNat (hinv.cfgOk_of_valid hvalid), evalPoint, ZMod.natCast_mod, Nat.cast_pow, zetaZ, psiZ,
    State.logDegree]

theorem reprs_getD (a : List Word) (j : Nat) : (reprs a).getD j 0 = (a.getD j 0).toNat := by
  have hzero : (0 : Word).toNat = 0 := by rw [BitVec.ofNat_eq_ofNat, BitVec.toNat_zero]
  rw [reprs, ← hzero, List.getD_map]

theorem values_getD (q : Nat) (a : List Word) (j : Nat) : (values q a).getD j 0 = decNat q (a.getD j 0).toNat := by
  have hzero : decNat q (0 : Word).toNat = 0 := by
    rw [decNat, BitVec.ofNat_eq_ofNat, BitVec.toNat_zero, Nat.zero_mul, Nat.zero_mod]
  rw [values, ← hzero, List.getD_map]

end

/-- Settles O32: the evaluation in Zq, read on representatives and, times R⁻¹, on values. -/
theorem forwardTransformEvaluates : Obligations.ForwardTransformEvaluates := by
  intro s c a i hinv hvalid hlen hcanonical hi
  have hok := hinv.cfgOk_of_valid hvalid
  have hs : s.logDegree c + 1 ≤ s.cfg.s.toNat := (hinv.degrees c hvalid).2
  have ha : AllCanonical s.cfg a := fun x hx => (canonical_iff s.cfg x).mp (hcanonical x hx)
  have hζ := cast_evalPoint hinv hvalid i
  have hval := val_nttFwd_getD hok hs hlen ha hi
  have hlt := getD_toNat_lt (nttFwd_canonical (zetaTable s.cfg (s.logDegree c)) hlen ha) (cfgOk_q_pos hok) i
  rw [← fwd_of_valid hinv hvalid] at hval hlt
  refine ⟨toNat_of_val hlt ?_, decNat_of_val ?_⟩
  · rw [hval, reprs, List.length_map, hlen, Nat.cast_sum]
    refine Finset.sum_congr rfl fun j _ => ?_
    rw [← reprs, reprs_getD, Nat.cast_mul, Nat.cast_pow, hζ]
    rfl
  · rw [hval, values, List.length_map, hlen, Nat.cast_sum, Finset.sum_mul]
    refine Finset.sum_congr rfl fun j _ => ?_
    rw [← values, values_getD, Nat.cast_mul, Nat.cast_pow, hζ, cast_decNat, mul_right_comm]

/-! ## Negacyclic products (42 R270) -/

/-- The canonical representative with residue `z`. -/
def wordOf (c : FieldCfg) (z : ZMod c.q.toNat) : Word := BitVec.ofNat 1024 z.val

section
variable {c : FieldCfg} {logn : Nat} {a b : List Word}

theorem wordOf_toNat (hq : 0 < c.q.toNat) (z : ZMod c.q.toNat) : (wordOf c z).toNat = z.val := by
  have : NeZero c.q.toNat := ⟨hq.ne'⟩
  rw [wordOf, BitVec.toNat_ofNat]
  exact Nat.mod_eq_of_lt (z.val_lt.trans (word_lt_radix c.q))

theorem wordOf_lt (hq : 0 < c.q.toNat) (z : ZMod c.q.toNat) : (wordOf c z).toNat < c.q.toNat := by
  have : NeZero c.q.toNat := ⟨hq.ne'⟩
  rw [wordOf_toNat hq]
  exact z.val_lt

theorem val_wordOf (hq : 0 < c.q.toNat) (z : ZMod c.q.toNat) : val c (wordOf c z) = z := by
  have : NeZero c.q.toNat := ⟨hq.ne'⟩
  rw [val, wordOf_toNat hq, ZMod.natCast_zmod_val]

/-- The representatives of the negacyclic product of the sequences that `a` and `b` stand for. -/
def productWords (c : FieldCfg) (n : Nat) (a b : List Word) : List Word :=
  (List.range n).map fun k =>
    wordOf c (Network.negacyclic n (fun i => val c (a.getD i 0)) (fun j => val c (b.getD j 0)) k * rho c)

theorem productWords_length (c : FieldCfg) (n : Nat) (a b : List Word) : (productWords c n a b).length = n := by
  rw [productWords, List.length_map, List.length_range]

theorem productWords_canonical (hq : 0 < c.q.toNat) (n : Nat) (a b : List Word) : AllCanonical c (productWords c n a b) := by
  intro x hx
  obtain ⟨k, -, rfl⟩ := List.mem_map.mp hx
  exact wordOf_lt hq _

theorem val_productWords_getD (hq : 0 < c.q.toNat) {n k : Nat} (a b : List Word) (hk : k < n) :
    val c ((productWords c n a b).getD k 0) =
      Network.negacyclic n (fun i => val c (a.getD i 0)) (fun j => val c (b.getD j 0)) k * rho c := by
  have hlt : k < (productWords c n a b).length := by rwa [productWords_length]
  rw [List.getD_eq_getElem _ 0 hlt]
  simp only [productWords, List.getElem_map, List.getElem_range, val_wordOf hq]

/-- ζ_i^n = −1: ζ_i is an odd power of ψ. -/
theorem zetaZ_pow (hok : cfgOk c = true) (hs : logn + 1 ≤ c.s.toNat) (i : Nat) : zetaZ c logn i ^ 2 ^ logn = -1 := by
  rw [zetaZ, pow_right_comm, psi_pow hok hs]
  exact Odd.neg_one_pow ⟨_, rfl⟩

/-- 42 R270: at each ζ_i the negacyclic product evaluates to the product of the values. -/
theorem nttFwd_productWords (hok : cfgOk c = true) (hs : logn + 1 ≤ c.s.toNat) (hla : a.length = 2 ^ logn)
    (hlb : b.length = 2 ^ logn) (ha : AllCanonical c a) (hb : AllCanonical c b) :
    nttFwd c (zetaTable c logn) logn (productWords c (2 ^ logn) a b) =
      List.zipWith (fmul c) (nttFwd c (zetaTable c logn) logn a) (nttFwd c (zetaTable c logn) logn b) := by
  have hq := cfgOk_q_pos hok
  have hlp := productWords_length c (2 ^ logn) a b
  have hp := productWords_canonical hq (2 ^ logn) a b
  have hlfa := nttFwd_length c (zetaTable c logn) logn hla
  have hlfb := nttFwd_length c (zetaTable c logn) logn hlb
  have hfa := nttFwd_canonical (zetaTable c logn) hla ha
  refine List.ext_getElem ?_ fun i hi hi' => ?_
  · rw [nttFwd_length c _ logn hlp, List.length_zipWith, hlfa, hlfb, Nat.min_self]
  · have hin : i < 2 ^ logn := by rwa [nttFwd_length c _ logn hlp] at hi
    rw [List.getElem_zipWith, ← List.getD_eq_getElem _ 0 hi, ← List.getD_eq_getElem _ 0 (hin.trans_eq hlfa.symm),
      ← List.getD_eq_getElem _ 0 (hin.trans_eq hlfb.symm)]
    refine val_inj (getD_toNat_lt (nttFwd_canonical _ hlp hp) hq i) (fmul_lt (getD_toNat_lt hfa hq i) _) ?_
    rw [val_fmul hok, val_nttFwd_getD hok hs hlp hp hin, val_nttFwd_getD hok hs hla ha hin, val_nttFwd_getD hok hs hlb hb hin,
      ← Network.eval_negacyclic (zetaZ_pow hok hs i), Finset.sum_mul]
    refine Finset.sum_congr rfl fun k hk => ?_
    rw [val_productWords_getD hq a b (Finset.mem_range.mp hk), mul_right_comm]

/-- Scaling both factors. -/
theorem negacyclic_mul_mul {K : Type} [CommRing K] (n : Nat) (x y : Nat → K) (r : K) (k : Nat) :
    Network.negacyclic n x y k * r * r = Network.negacyclic n (fun i => x i * r) (fun j => y j * r) k := by
  simp only [Network.negacyclic, Finset.sum_mul, ite_mul, zero_mul]
  refine Finset.sum_congr rfl fun i _ => Finset.sum_congr rfl fun j _ => ?_
  split_ifs <;> ring

/-- 00 R16: the negacyclic product of sequences of numbers, in a ring. -/
theorem cast_negacyclic_sum {K : Type} [CommRing K] (n : Nat) (x y : List Nat) (k : Nat) :
    ((∑ i ∈ Finset.range n, ∑ j ∈ Finset.range n,
      if i + j = k then ((x.getD i 0 * y.getD j 0 : Nat) : Int)
      else if i + j = k + n then -((x.getD i 0 * y.getD j 0 : Nat) : Int) else 0 : Int) : K) =
    Network.negacyclic n (fun i => (x.getD i 0 : K)) (fun j => (y.getD j 0 : K)) k := by
  rw [Network.negacyclic, Int.cast_sum]
  refine Finset.sum_congr rfl fun i _ => ?_
  rw [Int.cast_sum]
  refine Finset.sum_congr rfl fun j _ => ?_
  split_ifs <;> push_cast <;> rfl

theorem decNat_productWords_getD (hq : 0 < c.q.toNat) {n k : Nat} (a b : List Word) (hk : k < n) :
    (decNat c.q.toNat ((productWords c n a b).getD k 0).toNat : Int) =
      negacyclicAt c.q.toNat n (values c.q.toNat a) (values c.q.toNat b) k := by
  refine natCast_decNat_of_val ?_
  rw [val_productWords_getD hq a b hk, negacyclic_mul_mul, cast_negacyclic_sum]
  simp only [values_getD, cast_decNat]

end

/-- Settles O33: the product of the transforms is the transform of the negacyclic product, so the inverse transform gives that. -/
theorem productLaw : Obligations.ProductLaw := by
  intro s c a b hinv hvalid hla hlb hca hcb
  have hok := hinv.cfgOk_of_valid hvalid
  have hq := cfgOk_q_pos hok
  have hs : s.logDegree c + 1 ≤ s.cfg.s.toNat := (hinv.degrees c hvalid).2
  have ha : AllCanonical s.cfg a := fun x hx => (canonical_iff s.cfg x).mp (hca x hx)
  have hb : AllCanonical s.cfg b := fun x hx => (canonical_iff s.cfg x).mp (hcb x hx)
  have hproduct : s.inv c (List.zipWith (fmul s.cfg) (s.fwd c a) (s.fwd c b)) = productWords s.cfg (s.degree c) a b := by
    rw [inv_of_valid hinv hvalid, fwd_of_valid hinv hvalid, fwd_of_valid hinv hvalid, State.degree,
      ← nttFwd_productWords hok hs hla hlb ha hb]
    exact nttInv_nttFwd hok hs (productWords_length _ _ _ _) (productWords_canonical hq _ _ _)
  simp only [hproduct]
  exact ⟨productWords_length _ _ _ _, fun k hk => decNat_productWords_getD hq a b hk⟩

end Sys2Proof.Proofs
end
